-- ==== Sys2Proof/Word.lean ====
section
/-! DEFINITION. The word types of the flashee CORE (rules R7 to R9): bytes, 32-bit containers, memory cells. -/

namespace Sys2Proof

/-- A byte is 8 bits (R7); bit 0 is the least significant (R8). -/
abbrev Byte := BitVec 8

/-- A 32-bit container: an address, a length, the slot counter (R7, R26). -/
abbrev Word := BitVec 32

end Sys2Proof
end

