-- ==== Sys2Proof/Config.lean ====
section
/-! DEFINITION. The configuration record `Cfg` of rule R6, what makes it a legal one, and the free values: what the
spec leaves open and nothing in the model decides. -/

namespace Sys2Proof

/-- `BUS_HANDLE` (R22): which serial bus and which select line; opaque to every rule. -/
structure BusHandle where
  serialBus  : Nat
  selectLine : Nat
  deriving DecidableEq, Repr

/-- The configuration record of R6, fixed when the controller is built: no step changes it (R21).
`pollMax = none` is INFINITY, the "minimal design" (R174). No rule reads the two durations or the bus handle: the
model has no time (R285) and one controller serves one device (R22). -/
structure Cfg where
  pageSize    : Nat
  sectorSize  : Nat
  busyMask    : Byte
  welMask     : Byte
  jedecIdLen  : Nat
  legacyIdMin : Nat
  deviceSize  : Nat
  dummyRdsr   : Nat
  dummyRdsr3  : Nat
  dummyRdlock : Nat
  fill        : Byte
  pollMax     : Option Nat
  tSettle     : Nat
  tPoll       : Nat
  busHandle   : BusHandle
  deriving DecidableEq, Repr

/-- The constraints R6 puts on a configuration: the document's constants, the ranges of the open parameters, and
`PAGE_SIZE` divides `SECTOR_SIZE` divides `DEVICE_SIZE`. -/
abbrev Cfg.Legal (c : Cfg) : Prop :=
  c.pageSize = 256 ∧ c.sectorSize = 4096 ∧ c.busyMask = 0x01#8 ∧ c.welMask = 0x02#8 ∧
  c.jedecIdLen = 3 ∧ c.legacyIdMin = 2 ∧ c.dummyRdsr3 = 1 ∧ c.dummyRdlock = 0 ∧
  c.dummyRdsr ≤ 1 ∧ 0 < c.deviceSize ∧ c.deviceSize ≤ 2 ^ 24 ∧
  c.sectorSize ∣ c.deviceSize ∧ c.pageSize ∣ c.sectorSize ∧ c.pollMax ≠ some 0

/-- The document's constants, with the illustrative values of 95_test_vectors.md for the open parameters
(DESIGN CHOICE, log entry 2). Every statement quantifies over the whole record, so none rests on these. -/
def Cfg.illustration : Cfg where
  pageSize    := 256
  sectorSize  := 4096
  busyMask    := 0x01#8
  welMask     := 0x02#8
  jedecIdLen  := 3
  legacyIdMin := 2
  deviceSize  := 0x100000
  dummyRdsr   := 1
  dummyRdsr3  := 1
  dummyRdlock := 0
  fill        := 0x00#8
  pollMax     := some 1000
  tSettle     := 0
  tPoll       := 0
  busHandle   := ⟨0, 0⟩

/-- What the device is doing internally after a write-class command (R71): `Prog(a, data)` or `Erase(a)`. -/
inductive Pending where
  | prog (a : Nat) (data : List Byte)
  | erase (a : Nat)
  deriving DecidableEq, Repr

/-! The free values. Each is a constant with no body, applied to the plain counter `State.free`: no proof can see what
it is, so a claim holds whatever it is (log entry 6). -/

/-- A byte the device returns where no rule gives one: frame, dummy and write slots (U7), ID bytes beyond the
meaningful length (U14), and any slot beyond what R78 and R79 give. -/
opaque Config.freeByte : Nat → Byte

/-- Whether a write-class command on a locked target is performed or ignored (U9). -/
opaque Config.freeLockChoice : Nat → Bool

/-- What the 32-bit `LEN` holds of a buffer longer than 2^32 - 1 bytes, by that length (R26, R195). No rule reads it:
validation, on the exact length, ends the operation. -/
opaque Config.freeLength : Nat → BitVec 32

/-- The array of a device of which nothing is known any more (U10), as address and byte pairs. -/
opaque Config.freeCells : Nat → List (Nat × Byte)

/-- BUSY of a device of which nothing is known (U10), and BUSY at power-up (U12). -/
opaque Config.freeBusy : Nat → Bool

/-- WEL of a device of which nothing is known (U10). -/
opaque Config.freeWel : Nat → Bool

/-- The internal operation of a device of which nothing is known (U10), and at power-up (U12): any value at all. -/
opaque Config.freePending : Nat → Option Pending

end Sys2Proof
end

