-- ==== Sys2Proof/Syntax.lean ====
section
/-! DEFINITION. The two instruction sets of the block (R1): the nine wire commands of R105, which the controller sends
and the device decodes, and the eight host operations of R111, which the host requests. `Instr` has one constructor for
each of the 17 rows of spec/opcode_table.json. The words they are encoded in stand in Decode.lean. -/

namespace Sys2Proof

/-- The nine wire commands (R105). -/
inductive WireOp where
  | read | pp | se | rdsr | wren | rdid | rdmdid | rdsr3 | rdlock
  deriving DecidableEq, Repr

/-- A wire command with the 32-bit container of its address (R7); the five single-byte commands of R152 carry 0. -/
structure WireCmd where
  op : WireOp
  a  : Word
  deriving DecidableEq, Repr

/-- The eight host operations (R111); an enumeration, as R112 asks. -/
inductive HostOp where
  | readIdJedec | readIdLegacy | readStatus | readStatus3 | readLock | read | program | eraseSector
  deriving DecidableEq, Repr

/-- The operands of a request (R25, R113). Every request carries all three; what an operation does not use is latched
and never read (R111). -/
structure Operands where
  addr : Word
  len  : Word
  wbuf : List Byte
  deriving DecidableEq, Repr

/-- `REQ = (op, addr, len, wbuf)` (R25): the selector is 4 bits and may be a reserved one (R112). -/
structure Request where
  op   : BitVec 4
  args : Operands
  deriving DecidableEq, Repr

/-- The Command Frame (R102): format F1, 8 bits, or format F4, 32 bits sent most significant byte first. -/
inductive Frame where
  | f1 (opcode : BitVec 8)
  | f4 (word : BitVec 32)
  deriving DecidableEq, Repr

/-- The slot kinds of R103: command (a frame byte), dummy, response, write data. -/
inductive Slot where
  | c (b : Byte)
  | d
  | r
  | w (b : Byte)
  deriving DecidableEq, Repr

/-- One constructor per row of the opcode table: nine wire commands (the four address-bearing ones with the address
container), then eight host operations with their operands. `readHost` is host operation 0x6, `READ (host)`. -/
inductive Instr where
  | read (a : Word)
  | pp (a : Word)
  | se (a : Word)
  | rdsr
  | wren
  | rdid
  | rdmdid
  | rdsr3
  | rdlock (a : Word)
  | readIdJedec (q : Operands)
  | readIdLegacy (q : Operands)
  | readStatus (q : Operands)
  | readStatus3 (q : Operands)
  | readLock (q : Operands)
  | readHost (q : Operands)
  | program (q : Operands)
  | eraseSector (q : Operands)
  deriving DecidableEq, Repr

/-- What an instruction is encoded in: the frame bytes of a wire command, in wire order (R102), or the request record
of a host operation (R113). The spec gives a request no byte layout (decision D1). -/
inductive Code where
  | wire (bytes : List Byte)
  | request (q : Request)
  deriving DecidableEq, Repr

end Sys2Proof
end

