-- ==== Sys2Proof/WellFormed.lean ====
section
/-! DEFINITION. What makes an instruction well formed. An address in a command frame fits 24 bits (R7, R27: "top 8 bits
of any 32-bit container must be zero before encoding"). A host operation is well formed with any operands: what it may
not ask for is an error of validation (R195, R211), not of encoding. -/

namespace Sys2Proof

/-- Bits 31:24 of an address container are zero (R7, R27). -/
abbrev addressFits (a : Word) : Bool := a.extractLsb' 24 8 == 0#8

/-- The well-formedness check. The five single-byte commands have no operand, and a request may carry
any (R25, R111). -/
def Instr.wf : Instr → Bool
  | .read a | .pp a | .se a | .rdlock a => addressFits a
  | .rdsr | .wren | .rdid | .rdmdid | .rdsr3 => true
  | .readIdJedec _ | .readIdLegacy _ | .readStatus _ | .readStatus3 _ | .readLock _ | .readHost _ | .program _
  | .eraseSector _ => true

end Sys2Proof
end

