-- ==== Sys2Proof/Decode.lean ====
section
/-! DEFINITION. Encoding and decoding. The opcode map (R105), the two frame formats (R102, R151, R152), the host
selectors (R111), the decoder, total on any bytes and any request record, which refuses by name, and after it the
encoder, written from the same tables. -/

namespace Sys2Proof

/-! ### The tables -/

/-- The opcode map of R105. -/
def WireOp.opcode : WireOp → Byte
  | .read   => 0x03#8
  | .pp     => 0x02#8
  | .se     => 0x20#8
  | .rdsr   => 0x05#8
  | .wren   => 0x06#8
  | .rdid   => 0x9F#8
  | .rdmdid => 0x90#8
  | .rdsr3  => 0x15#8
  | .rdlock => 0x3D#8

/-- The opcode map read backwards: byte 0 alone selects the command (R105, R116). -/
def WireOp.ofOpcode (b : Byte) : Option WireOp :=
  if b = 0x03#8 then some .read
  else if b = 0x02#8 then some .pp
  else if b = 0x20#8 then some .se
  else if b = 0x05#8 then some .rdsr
  else if b = 0x06#8 then some .wren
  else if b = 0x9F#8 then some .rdid
  else if b = 0x90#8 then some .rdmdid
  else if b = 0x15#8 then some .rdsr3
  else if b = 0x3D#8 then some .rdlock
  else none

/-- The four address-bearing commands (format F4, R151); the other five are format F1 (R152). -/
def WireOp.addressBearing : WireOp → Bool
  | .read | .pp | .se | .rdlock => true
  | .rdsr | .wren | .rdid | .rdmdid | .rdsr3 => false

/-- The 4-bit selectors of R111. -/
def HostOp.selector : HostOp → BitVec 4
  | .readIdJedec  => 0x1#4
  | .readIdLegacy => 0x2#4
  | .readStatus   => 0x3#4
  | .readStatus3  => 0x4#4
  | .readLock     => 0x5#4
  | .read         => 0x6#4
  | .program      => 0x7#4
  | .eraseSector  => 0x8#4

/-- The selectors read backwards; 0x0 and 0x9 to 0xF are reserved (R112). -/
def HostOp.ofSelector (b : BitVec 4) : Option HostOp :=
  if b = 0x1#4 then some .readIdJedec
  else if b = 0x2#4 then some .readIdLegacy
  else if b = 0x3#4 then some .readStatus
  else if b = 0x4#4 then some .readStatus3
  else if b = 0x5#4 then some .readLock
  else if b = 0x6#4 then some .read
  else if b = 0x7#4 then some .program
  else if b = 0x8#4 then some .eraseSector
  else none

/-! ### Frames -/

/-- The three address bytes in wire order, most significant first (R104). -/
def addressBytes (a : Word) : List Byte :=
  [(a >>> 16).setWidth 8, (a >>> 8).setWidth 8, a.setWidth 8]

/-- The device rebuilds `a = byte1 * 65536 + byte2 * 256 + byte3` (R104). -/
def assembleAddress (b1 b2 b3 : Byte) : Word :=
  b1.setWidth 32 <<< 16 ||| b2.setWidth 32 <<< 8 ||| b3.setWidth 32

/-- `EncodeF1` (R152): the single opcode byte. -/
def encodeF1 (opcode : Byte) : Frame := .f1 opcode

/-- `EncodeF4` (R102, R151): the 32-bit number `opcode * 2^24 + addr`; of the container only bits 23:0 are taken
(R162). -/
def encodeF4 (opcode : Byte) (a : Word) : Frame := .f4 (opcode ++ a.setWidth 24)

/-- The bytes of a frame in wire order: the most significant first (R62, R102). -/
def Frame.bytes : Frame → List Byte
  | .f1 b => [b]
  | .f4 w => [(w >>> 24).setWidth 8, (w >>> 16).setWidth 8, (w >>> 8).setWidth 8, w.setWidth 8]

/-- The Command Frame of a wire command (R153 to R161). -/
def WireCmd.frame (c : WireCmd) : Frame :=
  if c.op.addressBearing then encodeF4 c.op.opcode c.a else encodeF1 c.op.opcode

/-! ### The decoder -/

/-- Why bytes or a request are no instruction. -/
inductive Reject where
  /-- No byte at all: a transaction has at least the opcode (R130). -/
  | emptyTransaction
  /-- An address-bearing frame cut before its third address byte (R116). -/
  | incompleteFrame
  /-- A first byte outside the nine opcodes (R109). -/
  | unknownOpcode (b : Byte)
  /-- Bytes after a frame, where a frame alone is asked for. -/
  | trailingBytes
  /-- A selector 0x0 or 0x9 to 0xF (R112). -/
  | reservedSelector (op : BitVec 4)
  deriving DecidableEq, Repr

/-- The device's decoder (R100, R116): the first byte selects the command, the next 0 or 3 are its address, and the
rest of the transaction is dummy, response or payload bytes. -/
def decodeWire : List Byte → Except Reject (WireCmd × List Byte)
  | [] => .error .emptyTransaction
  | b :: rest =>
    match WireOp.ofOpcode b with
    | none => .error (.unknownOpcode b)
    | some op =>
      if op.addressBearing then
        match rest with
        | b1 :: b2 :: b3 :: more => .ok (⟨op, assembleAddress b1 b2 b3⟩, more)
        | _ => .error .incompleteFrame
      else .ok (⟨op, 0#32⟩, rest)

/-- A wire command as an instruction. -/
def WireCmd.instr (c : WireCmd) : Instr :=
  match c.op with
  | .read   => .read c.a
  | .pp     => .pp c.a
  | .se     => .se c.a
  | .rdsr   => .rdsr
  | .wren   => .wren
  | .rdid   => .rdid
  | .rdmdid => .rdmdid
  | .rdsr3  => .rdsr3
  | .rdlock => .rdlock c.a

/-- A host operation with its operands as an instruction. -/
def HostOp.instr (op : HostOp) (q : Operands) : Instr :=
  match op with
  | .readIdJedec  => .readIdJedec q
  | .readIdLegacy => .readIdLegacy q
  | .readStatus   => .readStatus q
  | .readStatus3  => .readStatus3 q
  | .readLock     => .readLock q
  | .read         => .readHost q
  | .program      => .program q
  | .eraseSector  => .eraseSector q

/-- The controller's decoder of the host selector (R100, R111, R112). -/
def decodeRequest (q : Request) : Except Reject Instr :=
  match HostOp.ofSelector q.op with
  | none => .error (.reservedSelector q.op)
  | some op => .ok (op.instr q.args)

/-- The decoder: a whole command frame, or a request record. -/
def decode : Code → Except Reject Instr
  | .wire bytes =>
    match decodeWire bytes with
    | .error e => .error e
    | .ok (c, []) => .ok c.instr
    | .ok (_, _ :: _) => .error .trailingBytes
  | .request q => decodeRequest q

/-! ### The encoder -/

/-- The wire command an instruction is, if it is one. -/
def Instr.wireCmd? : Instr → Option WireCmd
  | .read a   => some ⟨.read, a⟩
  | .pp a     => some ⟨.pp, a⟩
  | .se a     => some ⟨.se, a⟩
  | .rdsr     => some ⟨.rdsr, 0#32⟩
  | .wren     => some ⟨.wren, 0#32⟩
  | .rdid     => some ⟨.rdid, 0#32⟩
  | .rdmdid   => some ⟨.rdmdid, 0#32⟩
  | .rdsr3    => some ⟨.rdsr3, 0#32⟩
  | .rdlock a => some ⟨.rdlock, a⟩
  | .readIdJedec _ | .readIdLegacy _ | .readStatus _ | .readStatus3 _ | .readLock _ | .readHost _ | .program _
  | .eraseSector _ => none

/-- The words of an instruction, from the tables of R105 and R111. -/
def encode : Instr → Code
  | .read a         => .wire (WireCmd.frame ⟨.read, a⟩).bytes
  | .pp a           => .wire (WireCmd.frame ⟨.pp, a⟩).bytes
  | .se a           => .wire (WireCmd.frame ⟨.se, a⟩).bytes
  | .rdsr           => .wire (WireCmd.frame ⟨.rdsr, 0#32⟩).bytes
  | .wren           => .wire (WireCmd.frame ⟨.wren, 0#32⟩).bytes
  | .rdid           => .wire (WireCmd.frame ⟨.rdid, 0#32⟩).bytes
  | .rdmdid         => .wire (WireCmd.frame ⟨.rdmdid, 0#32⟩).bytes
  | .rdsr3          => .wire (WireCmd.frame ⟨.rdsr3, 0#32⟩).bytes
  | .rdlock a       => .wire (WireCmd.frame ⟨.rdlock, a⟩).bytes
  | .readIdJedec q  => .request ⟨HostOp.readIdJedec.selector, q⟩
  | .readIdLegacy q => .request ⟨HostOp.readIdLegacy.selector, q⟩
  | .readStatus q   => .request ⟨HostOp.readStatus.selector, q⟩
  | .readStatus3 q  => .request ⟨HostOp.readStatus3.selector, q⟩
  | .readLock q     => .request ⟨HostOp.readLock.selector, q⟩
  | .readHost q     => .request ⟨HostOp.read.selector, q⟩
  | .program q      => .request ⟨HostOp.program.selector, q⟩
  | .eraseSector q  => .request ⟨HostOp.eraseSector.selector, q⟩

/-! ### The opcode table's own words -/

/-- The code that a word of spec/opcode_table.json stands for. A row of 32 bits is an F4 frame, sent most significant
byte first; a row of 8 bits is an F1 frame; a row of 4 bits is a host selector, whose operands are zeros.
In whole bytes a selector is 8 bits too: a word of 8 bits that is the opcode of an F1 command is read as that command,
any other word below 16 as a selector (DESIGN CHOICE, log entry 5). -/
def tableCode (nbits w : Nat) : Option Code :=
  let selector : Code := .request ⟨BitVec.ofNat 4 w, ⟨0#32, 0#32, []⟩⟩
  if nbits = 4 then some selector
  else if nbits = 8 then
    match WireOp.ofOpcode (BitVec.ofNat 8 w) with
    | some op => if w < 16 && op.addressBearing then some selector else some (.wire [BitVec.ofNat 8 w])
    | none => if w < 16 then some selector else some (.wire [BitVec.ofNat 8 w])
  else if nbits = 32 then some (.wire (Frame.f4 (BitVec.ofNat 32 w)).bytes)
  else none

/-- The instruction the decoder reads from a word of the opcode table. -/
def decodeTableWord (nbits w : Nat) : Option Instr :=
  match tableCode nbits w with
  | none => none
  | some c =>
    match decode c with
    | .ok i => some i
    | .error _ => none

end Sys2Proof
end

