-- ==== Sys2Proof/Machine/State.lean ====
section
/-! DEFINITION. The state of the whole system: the controller's registers (R26), the flash device of the reference
contract (R71), the inputs of the host, the transport and the device's own timing (R20), the trace (R13), and the
machine right after reset (R42, R43, R270, R271). All of it is plain data. -/

namespace Sys2Proof.Machine

/-! ### The controller's registers -/

/-- Level of the select line (R26): LOW is asserted (0), HIGH is released (1). -/
inductive Level where
  | low | high
  deriving DecidableEq, Repr

/-- `PHASE`, the sequencer's position (R24). -/
inductive Phase where
  | idle | xbegin | xslot | xend | settle | pollwait | done
  deriving DecidableEq, Repr

/-- `STAGE`, which transaction of the operation is running (R16, R26). -/
inductive Stage where
  | gate | cmd | poll
  deriving DecidableEq, Repr

/-- `RESULT` (R32). -/
inductive Result where
  | ok | busFault | flashTimeout | invalidAddress | invalidLength
  deriving DecidableEq, Repr

/-- The registers of R26, each under its own name. -/
structure Regs where
  cs     : Level
  phase  : Phase
  stage  : Stage
  opr    : HostOp
  addr   : Word
  len    : Word
  wbuf   : List Byte
  frame  : Frame
  slot   : Word
  rbuf   : List Byte
  sr     : Byte
  polls  : Nat
  xok    : Bool
  result : Result
  deriving DecidableEq, Repr

/-! ### The flash device -/

/-- Memory as a list of address and byte pairs, strictly rising, without the cells that hold what an unlisted address
reads as. -/
abbrev Memory := List Host.Cell

/-- The device of the reference contract (R71). `statusHi` holds the undescribed status bits 7:2 (R36); `stream` the
bytes received since the select line went low (R41 (c)); `failed` a device that takes no completion step but those its schedule still
lists (R76, log entry 12). -/
structure Device where
  mem      : Memory
  busy     : Bool
  wel      : Bool
  pending  : Option Pending
  statusHi : BitVec 6
  sr3      : Byte
  lock     : Memory
  jedec    : List Byte
  legacy   : List Byte
  failed   : Bool
  stream   : List Byte
  deriving DecidableEq, Repr

/-! ### The outside world -/

/-- What the transport answers to one `Xfer` (R12): `Ok` with the device's byte, or `Fail`. -/
inductive Answer where
  | ok | fail
  deriving DecidableEq, Repr

/-- The inputs still to come. `requests`: what the host will present, one request at a time, oldest first (R20, R25).
`answers`: the transport's answers to the coming exchanges; when the list has run out every exchange succeeds.
`turns`: for each coming step of the controller, whether the device completes its internal operation before it (R76);
when the list has run out a device that has not failed completes at the next step and a failed one never again. -/
structure Env where
  requests : List Request
  answers  : List Answer
  turns    : List Bool
  deriving DecidableEq, Repr

/-- The two delays (R12). -/
inductive DelayKind where
  | settle | poll
  deriving DecidableEq, Repr

/-- The event alphabet of R13. -/
inductive Event where
  | req (op : HostOp) (addr len : Word) (wbuf : List Byte)
  | csLow
  | csHigh
  | x (tx rx : Byte)
  | xfail (tx : Byte)
  | delay (kind : DelayKind)
  | resp (result : Result) (rbuf : List Byte)
  deriving DecidableEq, Repr

/-- The whole system. `cfg` is the controller's fixed configuration (R6, R21; carried here and changed by no step),
`ctl` its registers, `dev` the device, `env` the inputs, `free` the counter of the free values (the model's own), and
`trace` the events so far, oldest first (R13; an observation that no step reads, R44). -/
structure State where
  cfg   : Cfg
  ctl   : Regs
  dev   : Device
  env   : Env
  free  : Nat
  trace : List Event
  deriving DecidableEq, Repr

/-! ### Outcomes -/

/-- Why the machine stops with a fault. -/
inductive Fault where
  /-- Raised by `step` and `tick` in `XSLOT` when `SLOT` is not below the layout's length: no row of the transition
  table applies (R132, R208). Safe: no run reaches such a state. -/
  | noRowApplies
  deriving DecidableEq, Repr

/-- Why the model refuses a step. -/
inductive Refusal where
  /-- The instruction's arm has no meaning yet. No arm of this model answers so. Safe. -/
  | notModelled (mnemonic : String)
  /-- Raised at the host port for a request with a reserved selector (R112, D24, vector B5.34). Safe: the bus is not
  touched. -/
  | rejectedRequest (why : Reject)
  /-- Raised by the device for a transaction whose first byte is none of the nine opcodes (R109, D24). Safe: no run
  reaches it, the controller sends no other byte. -/
  | unknownOpcode (b : Byte)
  /-- Raised by the device for a command other than a status read that arrives while BUSY is set: the reference device
  gives it no meaning and the run is refused (R80, U2). Safe. -/
  | commandWhileBusy
  /-- Raised by a host operation outside `IDLE`: a second caller during an operation (R88, R138, U1). Safe: `step`
  takes a request in `IDLE` only. -/
  | requestDuringOperation
  /-- Raised by a wire command outside `XBEGIN`: no transaction is due, and another master on the bus is outside the
  model (R130, R88, U1). Safe: `step` starts a transaction in `XBEGIN` only. -/
  | noTransactionDue
  deriving DecidableEq, Repr

/-! ### Reset -/

/-- The controller right after reset: `CS` HIGH and `PHASE` IDLE (R42, R270). The spec leaves every other register
unspecified and no rule reads one before acceptance writes it; the values are the model's (DESIGN CHOICE, log entry
3). -/
def Regs.reset : Regs where
  cs     := .high
  phase  := .idle
  stage  := .gate
  opr    := .readIdJedec
  addr   := 0#32
  len    := 0#32
  wbuf   := []
  frame  := .f1 0x00#8
  slot   := 0#32
  rbuf   := []
  sr     := 0x00#8
  polls  := 0
  xok    := false
  result := .ok

/-- A device after power-up: WEL = 0 (R43, R75, R271). BUSY, the array, the lock bytes, the identification bytes and
status register 3 are whatever the chip holds; the values are the model's (DESIGN CHOICE, log entry 4). -/
def Device.reset : Device where
  mem      := []
  busy     := false
  wel      := false
  pending  := none
  statusHi := 0#6
  sr3      := 0x00#8
  lock     := []
  jedec    := [0x00#8, 0x00#8, 0x00#8]
  legacy   := [0x00#8, 0x00#8]
  failed   := false
  stream   := []

/-- No request, and nothing scheduled: every exchange succeeds and the device completes promptly. -/
def Env.none : Env where
  requests := []
  answers  := []
  turns    := []

/-- The machine right after reset: in `IDLE`, waiting for a request, with no event emitted (R42, R270). -/
def State.reset : State where
  cfg   := Cfg.illustration
  ctl   := Regs.reset
  dev   := Device.reset
  env   := Env.none
  free  := 0
  trace := []

end Sys2Proof.Machine
end

