-- ==== Sys2Proof/Machine/Ops.lean ====
section
/-! DEFINITION. The named operations over memory, the device's own step, the transport and the trace, and how an
operation ends: `raise`, the entry of every condition (R236), and `respond`, the return (R207, R238). -/

namespace Sys2Proof.Machine

/-- The outcome of a step of this machine. -/
abbrev Out := Host.Outcome State Fault Refusal

/-- Go on from a next state; a fault or a refusal ends the run. -/
def andThen (o : Out) (f : State → Out) : Out :=
  match o with
  | .next s => f s
  | .fault r => .fault r
  | .refused r => .refused r

/-! ### Memory -/

/-- What an unlisted address of the array reads as: the erased byte (DESIGN CHOICE, log entry 4; the spec leaves the
contents at first use unspecified, R43). -/
def erasedByte : Byte := 0xFF#8

/-- What an unlisted address reads as in the lock bytes: bit 0 clear, not locked (DESIGN CHOICE, log entry 4). -/
def unlockedByte : Byte := 0x00#8

/-- Strictly rising addresses, the first above or at `lo`, all below `size`, no entry equal to `dflt`. -/
def Memory.canonicalFrom (dflt : Byte) (size : Nat) : Nat → Memory → Bool
  | _, [] => true
  | lo, (k, v) :: m => decide (lo ≤ k) && decide (k < size) && decide (v ≠ dflt) && canonicalFrom dflt size (k + 1) m

/-- The canonical form of a memory of `size` bytes. -/
def Memory.wf (dflt : Byte) (size : Nat) (m : Memory) : Bool := Memory.canonicalFrom dflt size 0 m

/-- One byte. -/
def Memory.get (dflt : Byte) : Memory → Nat → Byte
  | [], _ => dflt
  | (k, v) :: m, a => if k = a then v else Memory.get dflt m a

/-- Write one byte, keeping the canonical form. -/
def Memory.set (dflt : Byte) (a : Nat) (b : Byte) : Memory → Memory
  | [] => if b = dflt then [] else [(a, b)]
  | (k, v) :: m =>
    if a < k then (if b = dflt then (k, v) :: m else (a, b) :: (k, v) :: m)
    else if a = k then (if b = dflt then m else (a, b) :: m)
    else (k, v) :: Memory.set dflt a b m

/-- `MemRead(a, n)` (R10, R71): the bytes `mem[a] .. mem[a+n-1]`. -/
def Memory.read (dflt : Byte) (m : Memory) (a n : Nat) : List Byte :=
  (List.range n).map fun i => Memory.get dflt m (a + i)

/-- Page program (R73): `mem[a+i] <- mem[a+i] & d[i]` for every byte of the data. -/
def Memory.program (a : Nat) : List Byte → Memory → Memory
  | [], m => m
  | d :: ds, m => Memory.program (a + 1) ds (Memory.set erasedByte a (Memory.get erasedByte m a &&& d) m)

/-- Sector erase (R74): `mem[a+i] <- 0xFF` for `i` from 0 to `n - 1`. The erased byte is what an unlisted address
reads as, so the cells are dropped. -/
def Memory.erase (a n : Nat) (m : Memory) : Memory :=
  m.filter fun c => decide (c.1 < a) || decide (a + n ≤ c.1)

/-- A memory from any list of cells: those inside the device, in canonical form. -/
def Memory.ofCells (size : Nat) (cells : List (Nat × Byte)) : Memory :=
  cells.foldl (fun m c => if c.1 < size then Memory.set erasedByte c.1 c.2 m else m) []

/-! ### The device's own step -/

/-- Apply what is pending to the array (R73, R74). Of a page that reaches past the end of the device, which only a device
of which nothing is known can have pending (U10), the bytes at addresses that exist are programmed. -/
def Device.applyPending (cfg : Cfg) (d : Device) : Memory :=
  match d.pending with
  | none => d.mem
  | some (.prog a data) => Memory.program a (data.take (cfg.deviceSize - a)) d.mem
  | some (.erase a) => Memory.erase a cfg.sectorSize d.mem

/-- Completion (R76): apply `pending`, then `pending <- none`, `busy <- 0`, `wel <- 0` (R75). -/
def Device.complete (cfg : Cfg) (d : Device) : Device :=
  { d with mem := d.applyPending cfg, pending := none, busy := false, wel := false }

/-- Whether the device takes its completion step before the controller's next step (R76): while it is busy, the
schedule's choice, and after the schedule's end at once if the device is healthy and never if it has failed. So a device
may complete some operations and fail in the middle of a run (DESIGN CHOICE, log entry 12). -/
def completesNow (s : State) : Bool :=
  s.dev.busy && s.env.turns.headD (!s.dev.failed)

/-- The device's turn between two events (R76). -/
def deviceTurn (s : State) : State :=
  { s with
    dev := if completesNow s then s.dev.complete s.cfg else s.dev
    env := { s.env with turns := s.env.turns.tail } }

/-- Whether a pending operation is one the contract describes (R73, R74): aligned and inside the device. -/
def Pending.legal (cfg : Cfg) : Pending → Bool
  | .prog a data =>
    decide (a % cfg.pageSize = 0) && decide (a + cfg.pageSize ≤ cfg.deviceSize) && decide (data.length = cfg.pageSize)
  | .erase a => decide (a % cfg.sectorSize = 0) && decide (a + cfg.sectorSize ≤ cfg.deviceSize)

/-- A device of which nothing is known: any array, BUSY, WEL and pending operation (R237, U10). -/
def Device.havoc (cfg : Cfg) (n : Nat) (d : Device) : Device :=
  { d with
    mem     := Memory.ofCells cfg.deviceSize (Config.freeCells n)
    busy    := Config.freeBusy n
    wel     := Config.freeWel n
    pending := Config.freePending n }

/-- A device after power-up or reset (R43, R75, R271): WEL cleared, the array kept, BUSY any value (U12)
and with it the pending operation. -/
def Device.powerUp (n : Nat) (d : Device) : Device :=
  { d with
    wel     := false
    busy    := Config.freeBusy n
    pending := Config.freePending n
    stream  := [] }

/-- Reset of the whole system from any state (R42, R43, R270, R271): the controller's registers as after reset, the
device after power-up; no event. Which outside event does this the spec does not say, and no step does it. -/
def State.powerUp (s : State) : State :=
  { s with ctl := Regs.reset, dev := s.dev.powerUp s.free, free := s.free + 1 }

/-! ### The transport, the trace and the end of an operation -/

/-- Append one event to the trace (R13). -/
def emit (e : Event) (s : State) : State :=
  { s with trace := s.trace ++ [e] }

/-- The transport's answer to the next `Xfer` (R12, R20). -/
def nextAnswer (s : State) : Answer := s.env.answers.headD .ok

/-- Take that answer. -/
def popAnswer (s : State) : State :=
  { s with env := { s.env with answers := s.env.answers.tail } }

/-- Take the host's next request. -/
def popRequest (s : State) : State :=
  { s with env := { s.env with requests := s.env.requests.tail } }

/-- Finish the operation with a result: `RESULT <- r`, `PHASE <- DONE`. For `r` a condition this is `raise` (R10,
R236): nothing is saved and there is no handler; the response delivers the code. -/
def raise (r : Result) (s : State) : State :=
  { s with ctl := { s.ctl with result := r, phase := .done } }

/-- Response delivery, row T13 (R207): event `RESP(RESULT, RBUF)`, `PHASE <- IDLE`. It is the return after a condition
too (R238). -/
def respond (s : State) : State :=
  let s := deviceTurn s
  emit (.resp s.ctl.result s.ctl.rbuf) { s with ctl := { s.ctl with phase := .idle } }

end Sys2Proof.Machine
end

