-- ==== Sys2Proof/Machine/Flags.lean ====
section
/-! DEFINITION. Flags: the two of the device's status register (R36, R40), the byte they are read in (R79), the busy
test (R171), and the codes of the select line and the results (R26, R32). -/

namespace Sys2Proof.Machine

/-- The status byte `busy | (wel << 1) | (hi << 2)` (R36, R79). -/
def statusByte (d : Device) : Byte :=
  d.statusHi ++ BitVec.ofBool d.wel ++ BitVec.ofBool d.busy

/-- The busy test `(SR & BUSY_MASK) != 0` (R171); no other bit matters. -/
def isBusy (cfg : Cfg) (sr : Byte) : Bool := sr &&& cfg.busyMask != 0#8

/-- What `WEL_MASK` selects in a status byte (R36). No step of the controller tests it (R189); a host may. -/
def latchSet (cfg : Cfg) (sr : Byte) : Bool := sr &&& cfg.welMask != 0#8

/-- Bit 0 of a lock byte: "locked when set" (R38). -/
def lockedBit (b : Byte) : Bool := b.getLsbD 0

/-- Status register 3, bit 2: the protection-scheme select (R37). -/
def protectionScheme (sr3 : Byte) : Bool := sr3.getLsbD 2

/-- The result codes (R32); 5, 6 and 7 are never produced. -/
def Result.code : Result → BitVec 3
  | .ok             => 0#3
  | .busFault       => 1#3
  | .flashTimeout   => 2#3
  | .invalidAddress => 3#3
  | .invalidLength  => 4#3

/-- The level of the select line as the one bit of `CS` (R26). -/
def Level.bit : Level → BitVec 1
  | .low  => 0#1
  | .high => 1#1

end Sys2Proof.Machine
end

