-- ==== Sys2Proof/Machine/Operands.lean ====
section
/-! DEFINITION. Operands: which wire command a stage runs (R111, R141), the layout of a transaction (R103, R106), the
byte each slot sends, and the validation of a request's address and length (R211). -/

namespace Sys2Proof.Machine

/-- The write-class host operations (R191). -/
def writeClass : HostOp → Bool
  | .program | .eraseSector => true
  | .readIdJedec | .readIdLegacy | .readStatus | .readStatus3 | .readLock | .read => false

/-- The CMD-stage wire command of a host operation (R111). -/
def commandOf : HostOp → WireOp
  | .readIdJedec  => .rdid
  | .readIdLegacy => .rdmdid
  | .readStatus   => .rdsr
  | .readStatus3  => .rdsr3
  | .readLock     => .rdlock
  | .read         => .read
  | .program      => .pp
  | .eraseSector  => .se

/-- A wire command with an address where its frame bears one. -/
def wireCmd (op : WireOp) (a : Word) : WireCmd :=
  ⟨op, if op.addressBearing then a else 0#32⟩

/-- The wire command of the running stage (R141): WREN in GATE, RDSR in POLL, the operation's own in CMD. -/
def stageCommand (r : Regs) : WireCmd :=
  match r.stage with
  | .gate => wireCmd .wren 0#32
  | .poll => wireCmd .rdsr 0#32
  | .cmd  => wireCmd (commandOf r.opr) r.addr

/-- The slots after the frame (R106): dummy slots, then response or payload slots. `n` is `LEN` for READ and RDMDID
and `w` is `WBUF` for PP (R141). -/
def layoutTail (cfg : Cfg) (op : WireOp) (n : Nat) (w : List Byte) : List Slot :=
  match op with
  | .wren   => []
  | .rdid   => List.replicate cfg.jedecIdLen .r
  | .rdmdid => List.replicate n .r
  | .rdsr   => List.replicate cfg.dummyRdsr .d ++ [.r]
  | .rdsr3  => List.replicate cfg.dummyRdsr3 .d ++ [.r]
  | .rdlock => List.replicate cfg.dummyRdlock .d ++ [.r]
  | .read   => List.replicate n .r
  | .pp     => w.map .w
  | .se     => []

/-- The layout of the running transaction (R103, R106): the bytes of `FRAME`, then the tail. -/
def layout (op : WireOp) (s : State) : List Slot :=
  s.ctl.frame.bytes.map .c ++ layoutTail s.cfg op s.ctl.len.toNat s.ctl.wbuf

/-- The byte the controller sends in a slot (R103, R108). -/
def Slot.tx (cfg : Cfg) : Slot → Byte
  | .c b | .w b => b
  | .d | .r => cfg.fill

/-- The `InvalidAddress` column of R211. Sums are exact (R209). -/
def addressInvalid (cfg : Cfg) (op : HostOp) (addr : Word) (len : Nat) : Bool :=
  match op with
  | .readIdJedec | .readIdLegacy | .readStatus | .readStatus3 => false
  | .readLock => !addressFits addr || decide (cfg.deviceSize ≤ addr.toNat)
  | .read => !addressFits addr || decide (cfg.deviceSize < addr.toNat + len)
  | .program => !addressFits addr || decide (cfg.deviceSize < addr.toNat + cfg.pageSize)
  | .eraseSector =>
    !addressFits addr || decide (addr.toNat % cfg.sectorSize ≠ 0) ||
      decide (cfg.deviceSize < addr.toNat + cfg.sectorSize)

/-- The `InvalidLength` column of R211. -/
def lengthInvalid (cfg : Cfg) (op : HostOp) (len : Nat) : Bool :=
  match op with
  | .readIdLegacy => decide (len < cfg.legacyIdMin)
  | .program => decide (len ≠ cfg.pageSize)
  | .readIdJedec | .readStatus | .readStatus3 | .readLock | .read | .eraseSector => false

/-- Validation (R211, R235): the address test first, then the length test; `ok` if neither hits. `len` is the exact
length (R209), so that a buffer of any size has its answer. -/
def validate (cfg : Cfg) (op : HostOp) (addr : Word) (len : Nat) : Result :=
  if addressInvalid cfg op addr len then .invalidAddress
  else if lengthInvalid cfg op len then .invalidLength
  else .ok

/-- The length that acceptance latches and validates (R195): the request's, and for PROGRAM the buffer's. -/
def latchedLen (op : HostOp) (q : Operands) : Nat :=
  match op with
  | .program => q.wbuf.length
  | .readIdJedec | .readIdLegacy | .readStatus | .readStatus3 | .readLock | .read | .eraseSector => q.len.toNat

/-- A length in the 32-bit container `LEN` (R26, R195). Of a buffer too long for it the register holds a free value (log
entry 14). -/
def lenContainer (n : Nat) : Word :=
  if n < 2 ^ 32 then BitVec.ofNat 32 n else Config.freeLength n

end Sys2Proof.Machine
end

