-- ==== Sys2Proof/Machine/Device.lean ====
section
/-! DEFINITION. The flash device as the reference contract gives it (R71 to R80): the byte it returns in a slot, what
it refuses, and what it does when the select line is released. -/

namespace Sys2Proof.Machine

/-- Whether some lock byte of the `n` bytes from `a` has bit 0 set (R38, R71). The spec gives no granularity; the
target is locked if any of its bytes is (log entry 9). -/
def Device.locked (d : Device) (a n : Nat) : Bool :=
  d.lock.any fun c => decide (a ≤ c.1) && decide (c.1 < a + n) && lockedBit c.2

/-- Why the device refuses the run at the first byte of a transaction: an opcode outside R105 (R109), or a command
other than a status read while BUSY is set (R80). -/
def Device.refuses (d : Device) (tx : Byte) : Option Refusal :=
  match d.stream with
  | [] =>
    match WireOp.ofOpcode tx with
    | none => some (.unknownOpcode tx)
    | some .rdsr => none
    | some _ => if d.busy then some .commandWhileBusy else none
  | _ :: _ => none

/-- The byte the device returns in the slot after the bytes it has received (R78, R79). A slot for which no rule gives
a byte (frame and dummy slots, write data, bytes beyond what the device has) returns the free byte. -/
def Device.answer (cfg : Cfg) (d : Device) (free : Byte) : Byte :=
  match decodeWire d.stream with
  | .error _ => free
  | .ok (c, further) =>
    let i := further.length
    match c.op with
    | .read => if c.a.toNat + i < cfg.deviceSize then Memory.get erasedByte d.mem (c.a.toNat + i) else free
    | .rdsr => if i = cfg.dummyRdsr then statusByte d else free
    | .rdsr3 => if i = cfg.dummyRdsr3 then d.sr3 else free
    | .rdlock =>
      if i = cfg.dummyRdlock ∧ c.a.toNat < cfg.deviceSize then Memory.get unlockedByte d.lock c.a.toNat else free
    | .rdid => d.jedec.getD i free
    | .rdmdid => d.legacy.getD i free
    | .wren | .pp | .se => free

/-- A write-class command at the release of the select line. Without WEL it is ignored (R77); outside the contract
(busy, misaligned, out of range, incomplete) nothing is known of the device (U8, U10); on a locked target it is
performed or ignored (U9); otherwise BUSY is set and the operation is pending (R73, R74). -/
def Device.startWrite (cfg : Cfg) (n : Nat) (d : Device) (p : Pending) (a size : Nat) : Device :=
  if !d.wel then d
  else if d.busy || !Pending.legal cfg p then d.havoc cfg n
  else if d.locked a size && !Config.freeLockChoice n then d
  else { d with busy := true, pending := some p }

/-- What the bytes of a transaction do when the select line is released (R72 to R74, R77, R83 (c)). Reads and status
reads do nothing. -/
def Device.act (cfg : Cfg) (n : Nat) (d : Device) : Device :=
  match decodeWire d.stream with
  | .error _ => d.havoc cfg n
  | .ok (c, further) =>
    match c.op with
    | .wren => if further = [] then { d with wel := true } else d.havoc cfg n
    | .pp => d.startWrite cfg n (.prog c.a.toNat further) c.a.toNat cfg.pageSize
    | .se =>
      if further = [] then d.startWrite cfg n (.erase c.a.toNat) c.a.toNat cfg.sectorSize else d.havoc cfg n
    | .read | .rdsr | .rdid | .rdmdid | .rdsr3 | .rdlock => d

/-- The release of the select line: after a transaction without a failure the device acts on what it received; after a
`BusFault` nothing is known of it (R237, U10). -/
def Device.released (cfg : Cfg) (n : Nat) (xok : Bool) (d : Device) : Device :=
  { (if xok then d.act cfg n else d.havoc cfg n) with stream := [] }

end Sys2Proof.Machine
end

