-- ==== Sys2Proof/Machine/Transaction.lean ====
section
/-! DEFINITION. The bus transaction and chip-select arbiter (R130 to R141): BEGIN, one slot, END with its successor
phase, and the whole transaction as the procedure `Transact` of R141. -/

namespace Sys2Proof.Machine

/-- BEGIN, row T2 (R130): select line LOW, `FRAME` built anew (R28), `SLOT <- 0`, `XOK <- 1`, event `CS_LOW`. The device
begins to listen. -/
def beginTransaction (c : WireCmd) (s : State) : State :=
  let s := deviceTurn s
  emit .csLow
    { s with
      ctl := { s.ctl with cs := .low, frame := c.frame, slot := 0#32, xok := true, phase := .xslot }
      dev := { s.dev with stream := [] } }

/-- Where the byte received in an R slot goes (R103, R132): `RBUF` in the CMD stage, `SR` in the POLL stage. The byte
of any other slot is dropped. -/
def capture (sl : Slot) (rx : Byte) (r : Regs) : Regs :=
  match sl, r.stage with
  | .r, .cmd => { r with rbuf := r.rbuf ++ [rx] }
  | .r, .poll => { r with sr := rx }
  | .r, .gate => r
  | .c _, _ | .d, _ | .w _, _ => r

/-- A failed exchange, row T5 (R134): nothing is captured, `XOK <- 0`, event `XFAIL(tx)`. -/
def failSlot (tx : Byte) (s : State) : State :=
  emit (.xfail tx) { popAnswer s with ctl := { s.ctl with xok := false, phase := .xend } }

/-- An exchange that answered `Ok(rx)`, rows T3 and T4 (R132): capture, `SLOT <- SLOT + 1`, event `X(tx>rx)`. -/
def doneSlot (sl : Slot) (last : Bool) (tx rx : Byte) (s : State) : State :=
  emit (.x tx rx)
    { popAnswer s with
      ctl := { capture sl rx s.ctl with slot := s.ctl.slot + 1#32, phase := if last then .xend else .xslot }
      dev := { s.dev with stream := s.dev.stream ++ [tx] }
      free := s.free + 1 }

/-- One slot, rows T3 to T5: one blocking exchange with the device through the transport. -/
def runSlot (sl : Slot) (last : Bool) (s : State) : Out :=
  let s := deviceTurn s
  let tx := Slot.tx s.cfg sl
  match nextAnswer s with
  | .fail => .next (failSlot tx s)
  | .ok =>
    match s.dev.refuses tx with
    | some why => .refused why
    | none => .next (doneSlot sl last tx (s.dev.answer s.cfg (Config.freeByte s.free)) s)

/-- The body of a transaction (R131): its slots in order, none after a failed one (R134). -/
def runSlots : List Slot → State → Out
  | [], s => .next s
  | sl :: rest, s =>
    andThen (runSlot sl rest.isEmpty s) fun s' => if s'.ctl.xok then runSlots rest s' else .next s'

/-- The select line goes HIGH, unconditionally (R133), and the device acts (R83 (c)). -/
def releaseSelect (s : State) : State :=
  emit .csHigh
    { s with
      ctl := { s.ctl with cs := .high }
      dev := s.dev.released s.cfg s.free s.ctl.xok
      free := s.free + 1 }

/-- Whether the status read that has just ended was the last of the poll loop, and with what result (R172): not busy is
`OK`, busy with the budget used up is `FlashTimeout`, and success wins on the same read (D30). -/
def pollVerdict (cfg : Cfg) (sr : Byte) (polls : Nat) : Option Result :=
  if !isBusy cfg sr then some .ok
  else
    match cfg.pollMax with
    | none => none
    | some n => if n ≤ polls then some .flashTimeout else none

/-- The successor of END (R133, R208 rows T6, T7, T9, T10, T11). -/
def afterEnd (s : State) : State :=
  if !s.ctl.xok then raise .busFault s
  else
    match s.ctl.stage with
    | .gate => { s with ctl := { s.ctl with phase := .settle } }
    | .cmd =>
      if writeClass s.ctl.opr then { s with ctl := { s.ctl with polls := 0, stage := .poll, phase := .xbegin } }
      else raise .ok s
    | .poll =>
      let s := { s with ctl := { s.ctl with polls := s.ctl.polls + 1 } }
      match pollVerdict s.cfg s.ctl.sr s.ctl.polls with
      | some r => raise r s
      | none => { s with ctl := { s.ctl with phase := .pollwait } }

/-- END, rows T6, T7, T9, T10 and T11 (R133). -/
def endTransaction (s : State) : State := afterEnd (releaseSelect (deviceTurn s))

/-- `Transact` (R141): BEGIN, the slots of the layout, END. -/
def transact (c : WireCmd) (s : State) : Out :=
  let s := beginTransaction c s
  andThen (runSlots (layout c.op s) s) fun s => .next (endTransaction s)

/-- A wire command where the sequencer is about to begin a transaction; no other agent may begin one (R130, R135). -/
def wireTransaction (op : WireOp) (a : Word) (s : State) : Out :=
  match s.ctl.phase with
  | .xbegin => transact (wireCmd op a) s
  | .idle | .xslot | .xend | .settle | .pollwait | .done => .refused .noTransactionDue

end Sys2Proof.Machine
end

