-- ==== Sys2Proof/Machine/HostOps.lean ====
section
/-! DEFINITION. The meanings of the eight host operations (R196 to R203): acceptance and validation (R195), the sequence
each rule gives in pseudocode, with the write-enable gate (R185 to R190) and the poll loop (R172), and the response.
Each runs from `IDLE` to `IDLE`: the document's "purely synchronous, blocking" call (R11, R212); only a poll without a
budget against a device that never completes does not come back (R174), and is left polling. -/

namespace Sys2Proof.Machine

/-- Acceptance, row T1 (R195): latch the request, `RBUF <- []`, event `REQ`, and validate in the same step; an invalid
request goes to `DONE` with its error before any bus activity. -/
def acceptRequest (op : HostOp) (q : Operands) (s : State) : State :=
  let s := deviceTurn s
  let s := emit (.req op q.addr q.len q.wbuf)
    { s with ctl := { s.ctl with
        opr := op, addr := q.addr, len := lenContainer (latchedLen op q), wbuf := q.wbuf, rbuf := [] } }
  match validate s.cfg op q.addr (latchedLen op q) with
  | .ok => { s with ctl := { s.ctl with stage := if writeClass op then .gate else .cmd, phase := .xbegin } }
  | .busFault => raise .busFault s
  | .flashTimeout => raise .flashTimeout s
  | .invalidAddress => raise .invalidAddress s
  | .invalidLength => raise .invalidLength s

/-- The settle delay, row T8 (R186): event `DELAY(SETTLE)`, `STAGE <- CMD`. -/
def settleDelay (s : State) : State :=
  let s := deviceTurn s
  emit (.delay .settle) { s with ctl := { s.ctl with stage := .cmd, phase := .xbegin } }

/-- The inter-poll delay, row T12 (R173): event `DELAY(POLL)`; the stage stays POLL. -/
def pollDelay (s : State) : State :=
  let s := deviceTurn s
  emit (.delay .poll) { s with ctl := { s.ctl with phase := .xbegin } }

/-- The poll loop (R172): a status read, and after it, unless the loop has ended, the delay and the next. The first
argument bounds the number of reads made here: after that many the operation is still in progress, in `XBEGIN` with the
next status read due, and further steps make it. -/
def pollLoop : Nat → State → Out
  | 0, s => .next s
  | n + 1, s =>
    andThen (transact (wireCmd .rdsr 0#32) s) fun s =>
      match s.ctl.phase with
      | .pollwait => pollLoop n (pollDelay s)
      | .idle | .xbegin | .xslot | .xend | .settle | .done => .next s

/-- How many status reads a whole operation makes at most. With a budget, that many end the loop (R174). Without one
every failed exchange and every completion that the inputs list falls within this many reads, since each read takes at
least one answer and one turn; a loop that has not ended by then, against a device that never completes, never ends
(vector B3.8), and the operation stays in progress (log entry 10). -/
def pollReads (s : State) : Nat :=
  match s.cfg.pollMax with
  | some n => n + 1
  | none => s.env.turns.length + s.env.answers.length + 2

/-- The next part of a sequence, where the phase says that it is due; an operation that has already ended skips it
(R205, R236). -/
def inPhase (p : Phase) (f : State → Out) (s : State) : Out :=
  if s.ctl.phase = p then f s else .next s

/-- The operation's own command transaction (R141): the address is the one latched. -/
def commandTransaction (w : WireOp) (s : State) : Out := transact (wireCmd w s.ctl.addr) s

/-- The response, where the operation has its result (R207); an operation still polling has none yet. -/
def response (s : State) : Out := inPhase .done (fun s => .next (respond s)) s

/-- A reading operation (R196 to R201): one transaction, and its bytes in the response. -/
def readingOperation (op : HostOp) (w : WireOp) (q : Operands) (s : State) : Out :=
  match s.ctl.phase with
  | .idle => andThen (inPhase .xbegin (commandTransaction w) (acceptRequest op q s)) response
  | .xbegin | .xslot | .xend | .settle | .pollwait | .done => .refused .requestDuringOperation

/-- A write-class operation (R202, R203): the write-enable gate in its own transaction (R185), the settle delay (R186),
the command, and the poll until not busy (R177). -/
def writingOperation (op : HostOp) (w : WireOp) (q : Operands) (s : State) : Out :=
  match s.ctl.phase with
  | .idle =>
    andThen (inPhase .xbegin (transact (wireCmd .wren 0#32)) (acceptRequest op q s)) fun s =>
    andThen (inPhase .settle (fun s => commandTransaction w (settleDelay s)) s) fun s =>
    andThen (inPhase .xbegin (fun s => pollLoop (pollReads s) s) s) response
  | .xbegin | .xslot | .xend | .settle | .pollwait | .done => .refused .requestDuringOperation

/-- READ_ID_JEDEC (R196): `Transact(C(0x9F) ++ R * 3)`. -/
def execReadIdJedec (q : Operands) (s : State) : Out := readingOperation .readIdJedec .rdid q s

/-- READ_ID_LEGACY (R197): `Transact(C(0x90) ++ R * n)`, `n >= 2`. -/
def execReadIdLegacy (q : Operands) (s : State) : Out := readingOperation .readIdLegacy .rdmdid q s

/-- READ_STATUS (R198): one status read, no loop, no busy test. -/
def execReadStatus (q : Operands) (s : State) : Out := readingOperation .readStatus .rdsr q s

/-- READ_STATUS3 (R199): `Transact(C(0x15) ++ D * 1 ++ R * 1)`. -/
def execReadStatus3 (q : Operands) (s : State) : Out := readingOperation .readStatus3 .rdsr3 q s

/-- READ_LOCK (R200): the lock byte, for an address below the device size. -/
def execReadLock (q : Operands) (s : State) : Out := readingOperation .readLock .rdlock q s

/-- READ, host operation 0x6 (R201): `LEN` bytes from `ADDR`. -/
def execReadHost (q : Operands) (s : State) : Out := readingOperation .read .read q s

/-- PROGRAM (R202): gate, PP, poll. -/
def execProgram (q : Operands) (s : State) : Out := writingOperation .program .pp q s

/-- ERASE_SECTOR (R203): gate, SE, poll. -/
def execEraseSector (q : Operands) (s : State) : Out := writingOperation .eraseSector .se q s

end Sys2Proof.Machine
end

