-- ==== Sys2Proof/Machine/Wire.lean ====
section
/-! DEFINITION. The meanings of the nine wire commands (R153 to R161): each is one transaction of the running stage,
from BEGIN to END, against the device. What the device does with it is in Device.lean (R72 to R80); where the response
goes is `capture` (R132). -/

namespace Sys2Proof.Machine

/-- READ, 0x03 (R153, R78): four frame slots and `LEN` response slots; `RBUF[i] = mem[a+i]`. -/
def execRead (a : Word) (s : State) : Out := wireTransaction .read a s

/-- PP, 0x02 (R154, R73): four frame slots and the bytes of `WBUF`; page program pending when the transaction ends. -/
def execPp (a : Word) (s : State) : Out := wireTransaction .pp a s

/-- SE, 0x20 (R155, R74): four frame slots; sector erase pending when the transaction ends. -/
def execSe (a : Word) (s : State) : Out := wireTransaction .se a s

/-- RDSR, 0x05 (R156, R79): the status byte, to `SR` in the POLL stage and to `RBUF` in the CMD stage. -/
def execRdsr (s : State) : Out := wireTransaction .rdsr 0#32 s

/-- WREN, 0x06 (R157, R72): WEL set when the transaction ends. -/
def execWren (s : State) : Out := wireTransaction .wren 0#32 s

/-- RDID, 0x9F (R158, R79): the three bytes of the JEDEC ID. -/
def execRdid (s : State) : Out := wireTransaction .rdid 0#32 s

/-- RDMDID, 0x90 (R159, R79): `LEN` bytes of the legacy ID. -/
def execRdmdid (s : State) : Out := wireTransaction .rdmdid 0#32 s

/-- RDSR3, 0x15 (R160, R79): one dummy slot, then status register 3. -/
def execRdsr3 (s : State) : Out := wireTransaction .rdsr3 0#32 s

/-- RDLOCK, 0x3D (R161, R79): the lock byte of the block that holds `a`. -/
def execRdlock (a : Word) (s : State) : Out := wireTransaction .rdlock a s

end Sys2Proof.Machine
end

