-- ==== Sys2Proof/Machine/Dispatch.lean ====
section
/-! DEFINITION. One arm per constructor of `Instr`: the nine wire commands, then the eight host operations. -/

namespace Sys2Proof.Machine

def exec (i : Instr) (s : State) : Host.Outcome State Fault Refusal :=
  match i with
  | .read a => Sys2Proof.Machine.execRead a s
  | .pp a => Sys2Proof.Machine.execPp a s
  | .se a => Sys2Proof.Machine.execSe a s
  | .rdsr => Sys2Proof.Machine.execRdsr s
  | .wren => Sys2Proof.Machine.execWren s
  | .rdid => Sys2Proof.Machine.execRdid s
  | .rdmdid => Sys2Proof.Machine.execRdmdid s
  | .rdsr3 => Sys2Proof.Machine.execRdsr3 s
  | .rdlock a => Sys2Proof.Machine.execRdlock a s
  | .readIdJedec q => Sys2Proof.Machine.execReadIdJedec q s
  | .readIdLegacy q => Sys2Proof.Machine.execReadIdLegacy q s
  | .readStatus q => Sys2Proof.Machine.execReadStatus q s
  | .readStatus3 q => Sys2Proof.Machine.execReadStatus3 q s
  | .readLock q => Sys2Proof.Machine.execReadLock q s
  | .readHost q => Sys2Proof.Machine.execReadHost q s
  | .program q => Sys2Proof.Machine.execProgram q s
  | .eraseSector q => Sys2Proof.Machine.execEraseSector q s

end Sys2Proof.Machine
end

