-- ==== Sys2Proof/Machine/Sequencer.lean ====
section
/-! DEFINITION. The sequencer's transition table (R208): `tick` is one row, one step of the controller at the grain of
R11 and D25. The meanings of the host operations follow the pseudocode of R196 to R203 and R212; that they take exactly
the rows of this table is a statement of its own. -/

namespace Sys2Proof.Machine

/-- Row T1, or a step of the device alone while no request is presented. A request with a reserved
selector is refused at the boundary (R112). -/
def idleRow (s : State) : Out :=
  match s.env.requests with
  | [] => .next (deviceTurn s)
  | q :: _ =>
    match HostOp.ofSelector q.op with
    | none => .refused (.rejectedRequest (.reservedSelector q.op))
    | some op => .next (acceptRequest op q.args (popRequest s))

/-- Rows T3 to T5: the slot numbered `SLOT` of the running layout (R132). -/
def slotRow (s : State) : Out :=
  let slots := layout (stageCommand s.ctl).op s
  match slots[s.ctl.slot.toNat]? with
  | none => .fault .noRowApplies
  | some sl => runSlot sl (decide (s.ctl.slot.toNat + 1 = slots.length)) s

/-- One row of the transition table (R208). -/
def tick (s : State) : Out :=
  match s.ctl.phase with
  | .idle => idleRow s
  | .xbegin => .next (beginTransaction (stageCommand s.ctl) s)
  | .xslot => slotRow s
  | .xend => .next (endTransaction s)
  | .settle => .next (settleDelay s)
  | .pollwait => .next (pollDelay s)
  | .done => .next (respond s)

/-- `n` rows, stopping at the first fault or refusal. -/
def ticks : Nat → State → Out
  | 0, s => .next s
  | n + 1, s => andThen (tick s) (ticks n)

end Sys2Proof.Machine
end

