-- ==== Sys2Proof/Machine/Fetch.lean ====
section
/-! DEFINITION. Where the next instruction comes from: the host port in `IDLE`, the running stage in `XBEGIN`; and how
an instruction is placed there from outside. -/

namespace Sys2Proof.Machine

/-- What starts in a state. -/
inductive Fetch where
  | wait
  | reject (why : Reject)
  | run (i : Instr)
  deriving DecidableEq, Repr

/-- The instruction at the sequencer's position. In `IDLE` the presented request, decoded (R25, R195); in `XBEGIN` the
wire command of the stage (R141), decoded from the frame the encoder builds for it (R130, R150). -/
def fetch (s : State) : Fetch :=
  match s.ctl.phase with
  | .idle =>
    match s.env.requests with
    | [] => .wait
    | q :: _ =>
      match decode (.request q) with
      | .error why => .reject why
      | .ok i => .run i
  | .xbegin =>
    match decode (.wire (stageCommand s.ctl).frame.bytes) with
    | .error why => .reject why
    | .ok i => .run i
  | .xslot | .xend | .settle | .pollwait | .done => .wait

/-- The state in which the fetched instruction runs: a request that has been fetched is taken from the host. -/
def fetched (s : State) : State :=
  match s.ctl.phase with
  | .idle => popRequest s
  | .xbegin | .xslot | .xend | .settle | .pollwait | .done => s

/-- The host operation latched when a wire command is placed: the one whose CMD stage sends it (R111). Two commands have
more than one sender: WREN is sent by the gates of PROGRAM and of ERASE_SECTOR (R111, D17), and PROGRAM is taken; RDSR is
sent by READ_STATUS and by the polls of PROGRAM and ERASE_SECTOR, and READ_STATUS is taken. Both are DESIGN CHOICE, log
entry 5. -/
def senderOf : WireOp → HostOp
  | .rdid   => .readIdJedec
  | .rdmdid => .readIdLegacy
  | .rdsr   => .readStatus
  | .rdsr3  => .readStatus3
  | .rdlock => .readLock
  | .read   => .read
  | .pp     => .program
  | .wren   => .program
  | .se     => .eraseSector

/-- Make a wire command the next transaction: the registers as its host operation would have left them. The operand
bytes a frame does not carry are zeros: a page of zeros for PP, length 0 for READ, and for RDMDID the least length it
may have (R159). -/
def placeCommand (c : WireCmd) (s : State) : State :=
  { s with
    ctl := { s.ctl with
      cs    := .high
      phase := .xbegin
      stage := if c.op = .wren then .gate else .cmd
      opr   := senderOf c.op
      addr  := c.a
      len   := if c.op = .rdmdid then BitVec.ofNat 32 s.cfg.legacyIdMin else 0#32
      wbuf  := List.replicate s.cfg.pageSize 0x00#8
      rbuf  := [] } }

/-- Present a request to the host port. -/
def placeRequest (q : Request) (s : State) : State :=
  { s with
    ctl := { s.ctl with cs := .high, phase := .idle }
    env := { s.env with requests := q :: s.env.requests } }

/-- Bytes that are no command cannot be due as one: they are placed as the frame of a running transaction, and the
device refuses them; the operation latched is READ_STATUS (DESIGN CHOICE, log entry 5). -/
def placeFrame (f : Frame) (s : State) : State :=
  { s with
    ctl := { s.ctl with cs := .low, phase := .xslot, stage := .cmd, opr := .readStatus, frame := f, slot := 0#32 }
    dev := { s.dev with stream := [] } }

/-- Place a word of the opcode table. -/
def placeWord (s : State) (nbits w : Nat) : State :=
  match tableCode nbits w with
  | none => s
  | some (.request q) => placeRequest q s
  | some (.wire bytes) =>
    match decodeWire bytes with
    | .ok (c, _) => placeCommand c s
    | .error _ => placeFrame (if nbits = 32 then .f4 (BitVec.ofNat 32 w) else .f1 (BitVec.ofNat 8 w)) s

end Sys2Proof.Machine
end

