-- ==== Sys2Proof/Machine/Step.lean ====
section
/-! DEFINITION. One step: the instruction that starts in this state, if one does, and otherwise one row of the
transition table. -/

namespace Sys2Proof.Machine

/-- A step of the machine. In `IDLE` with a request presented it is the whole host operation (R212); in `XBEGIN` the
whole transaction of the stage's wire command (R67, R131, R141). Where no instruction starts (waiting in `IDLE`, and in
the other phases of an operation in progress) it is one row of R208. -/
def step (s : State) : Host.Outcome State Fault Refusal :=
  match fetch s with
  | .wait => tick s
  | .reject why => .refused (.rejectedRequest why)
  | .run i => exec i (fetched s)

/-- `s` with a word of the opcode table where `step` fetches its next instruction (log entry 5): a selector is put
before the host's requests, with the sequencer in `IDLE`; a wire command is made the next transaction due. -/
def State.withFetchWord (s : State) (nbits w : Nat) : State := placeWord s nbits w

end Sys2Proof.Machine
end

