-- ==== Sys2Proof/Safety.lean ====
section
/-! DEFINITION. What counts as a safe state and a safe trace, in the terms the statements use: the invariants of R213,
R27, R33 and R136, the form of the device, the shape of a transaction's events, and the conditions on a state under
which an instruction completes. -/

namespace Sys2Proof.Machine

/-! ### Invariants of the state -/

/-- (I1) of R213 and R136: the select line is LOW in `XSLOT` and `XEND` and only there. -/
abbrev SelectDiscipline (s : State) : Prop :=
  s.ctl.cs = .low ↔ (s.ctl.phase = .xslot ∨ s.ctl.phase = .xend)

/-- In the phases of an operation in progress the latched request has passed validation (R27, R195, R211), a PROGRAM
holds exactly one page (R26), and the stage is one the phase can have (R208). -/
abbrev OperationValid (s : State) : Prop :=
  s.ctl.phase ≠ .idle → s.ctl.phase ≠ .done →
    validate s.cfg s.ctl.opr s.ctl.addr s.ctl.len.toNat = .ok ∧
    (s.ctl.opr = .program → s.ctl.wbuf.length = s.cfg.pageSize) ∧
    (writeClass s.ctl.opr = false → s.ctl.stage = .cmd) ∧
    (s.ctl.phase = .settle → s.ctl.stage = .gate) ∧
    (s.ctl.phase = .pollwait → s.ctl.stage = .poll)

/-- The device of R71: array and lock bytes in canonical form, three JEDEC bytes, at least two legacy bytes. What is
pending, BUSY and WEL may have any value: after a BusFault nothing is known of them (R237, U10). -/
abbrev Device.Sound (cfg : Cfg) (d : Device) : Prop :=
  Memory.wf erasedByte cfg.deviceSize d.mem = true ∧
  Memory.wf unlockedByte cfg.deviceSize d.lock = true ∧
  d.jedec.length = cfg.jedecIdLen ∧ cfg.legacyIdMin ≤ d.legacy.length

/-- The invariant of the whole system. -/
def SystemInvariant (s : State) : Prop :=
  s.cfg.Legal ∧ SelectDiscipline s ∧ OperationValid s ∧ s.dev.Sound s.cfg

/-! ### Traces -/

/-- The events that `t` has more than `s`. -/
def newEvents (s t : State) : List Event := t.trace.drop s.trace.length

/-- An exchange or a failed exchange of the byte `tx`. -/
def Event.sends (e : Event) (tx : Byte) : Prop := e = .xfail tx ∨ ∃ rx, e = .x tx rx

/-- The level of the select line after a trace that keeps (I2) of R213, and `none` after one that does not: `CS_LOW` and
`CS_HIGH` alternate, every exchange lies inside a pair, and no request, response or delay does (R135 to R137). -/
def busLevel : List Event → Option Level
  | trace => trace.foldl busStep (some .high)
where
  busStep : Option Level → Event → Option Level
    | some .high, .csLow => some .low
    | some .low, .csHigh => some .high
    | some .low, .x _ _ => some .low
    | some .low, .xfail _ => some .low
    | some .high, .req _ _ _ _ => some .high
    | some .high, .resp _ _ => some .high
    | some .high, .delay _ => some .high
    | _, _ => none

/-- (I3) of R213: every `XFAIL` is followed directly by `CS_HIGH`, and then by `RESP(BusFault, ..)` with no other event
in between; of an operation in progress the sequencer stands where the next of them is due. -/
def FailuresReported (s : State) : Prop :=
  ∀ before tx after, s.trace = before ++ .xfail tx :: after →
    (∃ b rest, after = .csHigh :: .resp .busFault b :: rest) ∨
    after = [] ∧ s.ctl.phase = .xend ∧ s.ctl.xok = false ∨
    after = [.csHigh] ∧ s.ctl.phase = .done ∧ s.ctl.result = .busFault

/-- The events the write-enable gate and the settle delay leave (R187). -/
def GateEvents (rx : Byte) : List Event := [.csLow, .x 0x06#8 rx, .csHigh, .delay .settle]

/-- (I4) of R213, R187: a transaction that starts with 0x02 or 0x20 stands directly after the gate and the settle
delay. -/
def GatePrecedesWrites (trace : List Event) : Prop :=
  ∀ before e after tx, trace = before ++ .csLow :: e :: after → e.sends tx → tx = 0x02#8 ∨ tx = 0x20#8 →
    ∃ earlier rx, before = earlier ++ GateEvents rx

/-- (I7) of R213: after `CS_LOW` the next event sends one of the nine opcodes. -/
def OpcodesOpen (trace : List Event) : Prop :=
  ∀ before after, trace = before ++ .csLow :: after →
    ∃ e rest op, after = e :: rest ∧ e.sends (WireOp.opcode op)

/-- Whether a request is waiting for its response after a trace that keeps (I8) of R213 and R25, and `none` after one
that does not: each `REQ` is followed by exactly one `RESP` before the next `REQ`, and everything else happens in
between. -/
def openRequest : List Event → Option Bool
  | trace => trace.foldl answerStep (some false)
where
  answerStep : Option Bool → Event → Option Bool
    | some false, .req _ _ _ _ => some true
    | some true, .resp _ _ => some false
    | some true, .csLow => some true
    | some true, .csHigh => some true
    | some true, .x _ _ => some true
    | some true, .xfail _ => some true
    | some true, .delay _ => some true
    | _, _ => none

/-- The events of one transaction without a failure that sends the bytes `tx`: bracketed, one exchange per byte in
order (R131, R141). -/
def Exchanged (tx : List Byte) (events : List Event) : Prop :=
  ∃ rx : List Byte, rx.length = tx.length ∧ events = .csLow :: (List.zipWith Event.x tx rx ++ [.csHigh])

/-- The bytes sent in a trace, failed exchanges included. -/
def sentBytes : List Event → List Byte
  | [] => []
  | .x tx _ :: rest => tx :: sentBytes rest
  | .xfail tx :: rest => tx :: sentBytes rest
  | .csLow :: rest | .csHigh :: rest | .delay _ :: rest | .req _ _ _ _ :: rest | .resp _ _ :: rest => sentBytes rest

/-- The number of poll delays in a trace. -/
def pollDelays (trace : List Event) : Nat := trace.count (.delay .poll)

/-- The outline of a trace: for each transaction the byte it opens with, for each delay its kind. -/
def outline : List Event → List (Byte ⊕ DelayKind)
  | [] => []
  | .csLow :: .x tx rx :: rest => .inl tx :: outline (.x tx rx :: rest)
  | .csLow :: .xfail tx :: rest => .inl tx :: outline (.xfail tx :: rest)
  | .delay k :: rest => .inr k :: outline rest
  | _ :: rest => outline rest

/-- The outline of `n` status reads with a delay between every two (R172). -/
def pollOutline : Nat → List (Byte ⊕ DelayKind)
  | 0 => []
  | 1 => [.inl 0x05#8]
  | n + 2 => .inl 0x05#8 :: .inr .poll :: pollOutline (n + 1)

/-! ### Conditions under which an instruction completes -/

/-- The transport answers every exchange to come with `Ok`. -/
abbrev TransportOk (s : State) : Prop := ∀ x ∈ s.env.answers, x = Answer.ok

/-- A request can be accepted, and the device answers any command: `IDLE`, a legal configuration, a sound device that is
not busy, and a transport that does not fail. -/
abbrev HostReady (s : State) : Prop :=
  s.ctl.phase = .idle ∧ s.cfg.Legal ∧ s.dev.Sound s.cfg ∧ s.dev.busy = false ∧ TransportOk s

/-- A transaction of the CMD stage is due, and the device answers any command. -/
abbrev CommandReady (s : State) : Prop :=
  s.ctl.phase = .xbegin ∧ s.ctl.stage = .cmd ∧ s.cfg.Legal ∧ s.dev.Sound s.cfg ∧ s.dev.busy = false ∧ TransportOk s

/-- No lock byte of the target has bit 0 set (R71's premise). -/
abbrev Unlocked (s : State) (a n : Nat) : Prop := s.dev.locked a n = false

/-! ### What stays as it was -/

/-- What a wire command leaves alone besides its own effect: the configuration, the latched request, the host's
requests, and the events so far. -/
def WireFrame (s t : State) : Prop :=
  t.cfg = s.cfg ∧ t.ctl.opr = s.ctl.opr ∧ t.ctl.addr = s.ctl.addr ∧ t.ctl.len = s.ctl.len ∧
  t.ctl.wbuf = s.ctl.wbuf ∧ t.env.requests = s.env.requests ∧ s.trace <+: t.trace

/-- How a command of a reading operation ends (R208 row T9): the operation has its result, and stage, poll counter and
status snapshot are as they were. -/
def ReadingEnd (s t : State) : Prop :=
  t.ctl.cs = .high ∧ t.ctl.sr = s.ctl.sr ∧
  (writeClass s.ctl.opr = false →
    t.ctl.phase = .done ∧ t.ctl.result = .ok ∧ t.ctl.stage = s.ctl.stage ∧ t.ctl.polls = s.ctl.polls)

/-- What a reading host operation leaves alone: the configuration, the host's other requests, `SR` and `POLLS`, and the
whole device but for the bytes it has heard, so that every byte of the array reads as before. -/
def ReadingFrame (s t : State) : Prop :=
  t.cfg = s.cfg ∧ t.env.requests = s.env.requests ∧ t.ctl.sr = s.ctl.sr ∧ t.ctl.polls = s.ctl.polls ∧
  t.dev = { s.dev with stream := [] }

/-- What a write-class host operation leaves alone: the configuration, the host's other requests, and of the device
everything but the array, the two flags, what is pending and what it has heard. -/
def WritingFrame (s t : State) : Prop :=
  t.cfg = s.cfg ∧ t.env.requests = s.env.requests ∧
  t.dev.statusHi = s.dev.statusHi ∧ t.dev.sr3 = s.dev.sr3 ∧ t.dev.lock = s.dev.lock ∧
  t.dev.jedec = s.dev.jedec ∧ t.dev.legacy = s.dev.legacy ∧ t.dev.failed = s.dev.failed

/-- The array byte at an address. -/
def arrayByte (s : State) (a : Nat) : Byte := Memory.get erasedByte s.dev.mem a

/-- The controller is back at rest after an operation (R136, R207). -/
def AtRest (t : State) : Prop := t.ctl.phase = .idle ∧ t.ctl.cs = .high

/-- Where a step that began in `IDLE` can leave the sequencer, and the steps after it: in `IDLE`, or between two
transactions of a poll that goes on without a budget (R174, log entry 10). -/
def AtStepEnd (t : State) : Prop :=
  t.ctl.phase = .idle ∨
    t.ctl.stage = .poll ∧ (t.ctl.phase = .xbegin ∨ t.ctl.phase = .pollwait ∨ t.ctl.phase = .done)

/-- What makes every poll end: a budget, or a device that has not failed (R241). -/
def PollEnds (s : State) : Prop := s.cfg.pollMax ≠ none ∨ s.dev.failed = false

/-- The device takes no completion step any more (R76): it has failed, and its schedule lists none. -/
def NeverCompletes (s : State) : Prop := s.dev.failed = true ∧ ∀ b ∈ s.env.turns, b = false

/-- The trace of a reading operation that went through: `REQ`, one transaction, `RESP(OK, ..)` (R212). -/
def ReadingTrace (s t : State) (op : HostOp) (q : Operands) (tx b : List Byte) : Prop :=
  ∃ body, Exchanged tx body ∧
    t.trace = s.trace ++ .req op q.addr q.len q.wbuf :: (body ++ [.resp .ok b])

/-! ### What a write-class operation leaves in the array -/

/-- Every byte of the page is the AND of the old byte and the data (R73, R202), and every byte outside it is as it
was. -/
def Programmed (s t : State) (a : Nat) (w : List Byte) : Prop :=
  ∀ x, arrayByte t x = if a ≤ x ∧ x < a + w.length then arrayByte s x &&& w.getD (x - a) 0#8 else arrayByte s x

/-- Every byte of the sector is 0xFF (R74, R203), and every byte outside it is as it was. -/
def Erased (s t : State) (a n : Nat) : Prop :=
  ∀ x, arrayByte t x = if a ≤ x ∧ x < a + n then 0xFF#8 else arrayByte s x

/-- A write-class operation that the device has finished: not busy, latch clear, nothing pending. -/
abbrev Finished (t : State) : Prop := t.dev.busy = false ∧ t.dev.wel = false ∧ t.dev.pending = none

/-- A write-class operation that the device is still at: BUSY and WEL set, the operation pending, the array as it
was. -/
abbrev StillRunning (s t : State) (p : Pending) : Prop :=
  t.dev.busy = true ∧ t.dev.wel = true ∧ t.dev.pending = some p ∧ t.dev.mem = s.dev.mem

/-- The events of a write-class operation that has come to its poll: `REQ`, the gate, the settle delay, the command in a
transaction of its own that sends the bytes `tx` (R185 to R187), and after it status reads and poll delays only, so that
gate and command are sent once (R188). -/
def WriteCommandSent (s t : State) (op : HostOp) (q : Operands) (tx : List Byte) : Prop :=
  ∃ rx body rest, Exchanged tx body ∧
    newEvents s t = .req op q.addr q.len q.wbuf :: (GateEvents rx ++ body ++ rest) ∧
    outline rest = pollOutline t.ctl.polls

end Sys2Proof.Machine
end

