-- ==== Sys2Proof/Certificates/Slice0/Obligations.lean ====
section
/-! DEFINITION. The statements for the provers, from the rules of spec/. Each docstring names the rules it formalises. -/

open Sys2Proof Sys2Proof.Machine

/-! ### Encoding -/

/-- Decoding the words of a well-formed instruction gives it back (R102, R104, R105, R111): no bit of an operand is
dropped. -/
def Obligations.DecodeOfEncodeIsTheInstruction : Prop :=
  ∀ i : Instr, i.wf = true → decode (encode i) = .ok i

/-- What decodes is well formed, and its words are the ones it was decoded from: no word has two meanings and no meaning
two words (R105, R111). -/
def Obligations.EncodeOfDecodeIsTheCode : Prop :=
  ∀ (c : Code) (i : Instr), decode c = .ok i → i.wf = true ∧ encode i = c

/-- Words written out from the tables of R105 and R111. -/
def Obligations.SpecWordsDecode : Prop :=
  decode (.wire [0x03#8, 0x01#8, 0x23#8, 0x45#8]) = .ok (.read 0x012345#32) ∧
  decode (.wire [0x02#8, 0x0F#8, 0xFF#8, 0x00#8]) = .ok (.pp 0x0FFF00#32) ∧
  decode (.wire [0x20#8, 0x00#8, 0x10#8, 0x00#8]) = .ok (.se 0x001000#32) ∧
  decode (.wire [0x3D#8, 0x00#8, 0xFF#8, 0xFF#8]) = .ok (.rdlock 0x00FFFF#32) ∧
  decode (.wire [0x9F#8]) = .ok .rdid ∧ decode (.wire [0x90#8]) = .ok .rdmdid ∧
  decode (.wire [0x05#8]) = .ok .rdsr ∧ decode (.wire [0x06#8]) = .ok .wren ∧ decode (.wire [0x15#8]) = .ok .rdsr3 ∧
  decode (.request ⟨0x6#4, ⟨0x012345#32, 2#32, []⟩⟩) = .ok (.readHost ⟨0x012345#32, 2#32, []⟩) ∧
  decode (.request ⟨0x8#4, ⟨0x001000#32, 0#32, []⟩⟩) = .ok (.eraseSector ⟨0x001000#32, 0#32, []⟩)

/-- R112: a request whose selector is 0x0 or 0x9 to 0xF decodes to nothing, and a step refuses it: no next state, so no
event on the bus (log entry 14). -/
def Obligations.ReservedSelectorIsRefused : Prop :=
  ∀ (s : State) (q : Request) (rest : List Request), q.op = 0x0#4 ∨ 9 ≤ q.op.toNat →
    s.ctl.phase = .idle → s.env.requests = q :: rest →
    decode (.request q) = .error (.reservedSelector q.op) ∧
    step s = .refused (.rejectedRequest (.reservedSelector q.op)) ∧
    tick s = .refused (.rejectedRequest (.reservedSelector q.op))

/-- R104, R151, R152: the frame of an address-bearing command (0x03, 0x02, 0x20, 0x3D) is its opcode and the three
address bytes, most significant first; the frame of the other five (0x05, 0x06, 0x9F, 0x90, 0x15) is the opcode; and the
device rebuilds the address from its three bytes. -/
def Obligations.FramesAreBigEndian : Prop :=
  (∀ (op : WireOp) (a : Word), op.addressBearing = true →
    op.opcode ∈ [0x03#8, 0x02#8, 0x20#8, 0x3D#8] ∧
    (wireCmd op a).frame.bytes.map BitVec.toNat =
      [op.opcode.toNat, a.toNat / 2 ^ 16 % 256, a.toNat / 2 ^ 8 % 256, a.toNat % 256]) ∧
  (∀ (op : WireOp) (a : Word), op.addressBearing = false →
    op.opcode ∈ [0x05#8, 0x06#8, 0x9F#8, 0x90#8, 0x15#8] ∧ (wireCmd op a).frame.bytes = [op.opcode]) ∧
  (∀ b1 b2 b3 : Byte, (assembleAddress b1 b2 b3).toNat = b1.toNat * 65536 + b2.toNat * 256 + b3.toNat)

/-- R106: the layout of each of the nine wire commands. -/
def Obligations.LayoutTable : Prop :=
  ∀ (s : State) (op : WireOp) (a : Word), s.cfg.Legal → s.ctl.frame = (wireCmd op a).frame →
    layout op s =
      match op with
      | .wren => [.c 0x06#8]
      | .rdid => [.c 0x9F#8, .r, .r, .r]
      | .rdmdid => .c 0x90#8 :: List.replicate s.ctl.len.toNat .r
      | .rdsr => .c 0x05#8 :: (List.replicate s.cfg.dummyRdsr .d ++ [.r])
      | .rdsr3 => [.c 0x15#8, .d, .r]
      | .rdlock => .c 0x3D#8 :: ((addressBytes a).map .c ++ [.r])
      | .read => .c 0x03#8 :: ((addressBytes a).map .c ++ List.replicate s.ctl.len.toNat .r)
      | .pp => .c 0x02#8 :: ((addressBytes a).map .c ++ s.ctl.wbuf.map .w)
      | .se => .c 0x20#8 :: (addressBytes a).map .c

/-! ### Steps -/

/-- A step runs the instruction that starts in the state: in `IDLE` the request decoded, taken from the host; in
`XBEGIN` the wire command of the stage, decoded from its frame; and where none starts it is one row of the table. The grain of a step is the
model's choice (log entry 1). -/
def Obligations.StepRunsTheFetchedInstruction : Prop :=
  (∀ (s : State) (q : Request) (rest : List Request) (i : Instr), s.ctl.phase = .idle → s.env.requests = q :: rest →
    decode (.request q) = .ok i → step s = exec i (popRequest s)) ∧
  (∀ (s : State) (i : Instr), s.ctl.phase = .xbegin →
    decode (.wire (stageCommand s.ctl).frame.bytes) = .ok i → step s = exec i s) ∧
  (∀ s : State, s.ctl.phase = .xbegin → addressFits s.ctl.addr = true →
    decode (.wire (stageCommand s.ctl).frame.bytes) = .ok (stageCommand s.ctl).instr) ∧
  (∀ s : State, s.ctl.phase = .idle → s.env.requests = [] → step s = tick s) ∧
  (∀ s : State, s.ctl.phase ≠ .idle → s.ctl.phase ≠ .xbegin → step s = tick s)

/-- R212 against R208: every step is a run of one or more rows of the transition table. The two are written apart
(log entry 1): the meanings follow the pseudocode of R141, R172 and R196 to R203, `tick` follows the table. -/
def Obligations.StepIsARunOfTheTransitionTable : Prop :=
  ∀ s t : State, SystemInvariant s → step s = .next t → ∃ n, 0 < n ∧ ticks n s = .next t

/-- R42, R43 and R270: after reset the select line is HIGH, the sequencer in `IDLE`, nothing has been emitted, the latch
is clear, and the invariant holds. -/
def Obligations.ResetIsAtRestAndKeepsTheInvariant : Prop :=
  AtRest State.reset ∧ State.reset.trace = [] ∧ State.reset.dev.wel = false ∧ SystemInvariant State.reset

/-- R271: power-up or reset, from any state, clears WEL and keeps the array; the controller is at rest and emits
nothing. R271 leaves every other register unspecified, so the rest is the model's choice: that status bits 7:2, status
register 3, lock bytes and identification bytes stay as they were is log entry 16 (DEDUCED, what the chip fixes), the
values of the controller's other registers are log entry 3, and what a power-up does at all to inputs, configuration and
trace is log entry 19. -/
def Obligations.PowerUpClearsTheLatchAndKeepsTheArray : Prop :=
  ∀ s : State, s.powerUp.dev.wel = false ∧ (∀ a, arrayByte s.powerUp a = arrayByte s a) ∧
    s.powerUp.dev.sr3 = s.dev.sr3 ∧ s.powerUp.dev.lock = s.dev.lock ∧ s.powerUp.dev.jedec = s.dev.jedec ∧
    s.powerUp.dev.legacy = s.dev.legacy ∧ s.powerUp.dev.statusHi = s.dev.statusHi ∧
    AtRest s.powerUp ∧ s.powerUp.trace = s.trace ∧ s.powerUp.cfg = s.cfg ∧ (SystemInvariant s → SystemInvariant s.powerUp)

/-! ### Invariants -/

/-- Every step keeps the invariant: the select line LOW only inside a transaction (I1), the latched request valid, the
stage one the phase can have, the array and the lock bytes in canonical form. -/
def Obligations.StepKeepsTheInvariant : Prop :=
  ∀ s t : State, SystemInvariant s → step s = .next t → SystemInvariant t

/-- So does every single row of the transition table (R208, R213). -/
def Obligations.RowKeepsTheInvariant : Prop :=
  ∀ s t : State, SystemInvariant s → tick s = .next t → SystemInvariant t

/-- R27: validation rejects an address-bearing request whose top byte is not zero, so that whenever a command of the
operation is due its address fits 24 bits and its frame decodes to the very command: the encoder drops nothing. -/
def Obligations.EncoderDropsNoAddressBits : Prop :=
  (∀ (cfg : Cfg) (op : HostOp) (addr : Word) (len : Nat), (commandOf op).addressBearing = true → addressFits addr = false →
    validate cfg op addr len = .invalidAddress) ∧
  (∀ s : State, SystemInvariant s → s.ctl.phase = .xbegin →
    ((stageCommand s.ctl).op.addressBearing = true → addressFits s.ctl.addr = true) ∧
    ∀ rest, decodeWire ((stageCommand s.ctl).frame.bytes ++ rest) = .ok (stageCommand s.ctl, rest))

/-- R6, R21, R22: the configuration, the bus handle with it, is changed by no step and no row. -/
def Obligations.ConfigurationNeverChanges : Prop :=
  ∀ s t : State, step s = .next t ∨ tick s = .next t → t.cfg = s.cfg

/-- R136: the select line is LOW only in `XSLOT` and `XEND`, so HIGH in `IDLE` and in `DONE`; that holds at reset and
every row keeps it; a row that delivers a response finds the line HIGH. The last two clauses rest on the model's choice
of where a step ends (DESIGN CHOICE, log entries 1 and 10), of which R136 says nothing: the line is HIGH where a step from
`IDLE` ends, which is in `IDLE` again unless a poll without a budget meets a device that has failed. -/
def Obligations.NoTransactionIsOpenAcrossOperations : Prop :=
  SelectDiscipline State.reset ∧
  (∀ s t : State, SelectDiscipline s → tick s = .next t → SelectDiscipline t) ∧
  (∀ s : State, SelectDiscipline s → s.ctl.phase = .idle ∨ s.ctl.phase = .done → s.ctl.cs = .high) ∧
  (∀ (s t : State) (r : Result) (b : List Byte), SelectDiscipline s → tick s = .next t →
    newEvents s t = [.resp r b] → s.ctl.cs = .high ∧ t.ctl.cs = .high) ∧
  (∀ s t : State, AtStepEnd s → s.ctl.cs = .high → step s = .next t → AtStepEnd t ∧ t.ctl.cs = .high) ∧
  (∀ s t : State, AtRest s → s.cfg.Legal → PollEnds s → step s = .next t → AtRest t)

/-- (I2) of R213, R135 and R137: `CS_LOW` and `CS_HIGH` alternate in the trace, every exchange lies inside a pair, no
request, response or delay does, and `CS` is the level the trace says. -/
def Obligations.SelectEventsAlternate : Prop :=
  ∀ s t : State, SelectDiscipline s → busLevel s.trace = some s.ctl.cs → step s = .next t ∨ tick s = .next t →
    busLevel t.trace = some t.ctl.cs

/-- R134 and (I3) of R213: after a failed exchange the select line is released before the error is reported, with
nothing in between; every row and every step keeps it so, from wherever the operation stands. -/
def Obligations.FailedExchangeReleasesThenReports : Prop :=
  ∀ s t : State, FailuresReported s → step s = .next t ∨ tick s = .next t → FailuresReported t

/-- R187 and (I4) of R213: a transaction that starts with 0x02 or 0x20 stands directly after the gate and the settle
delay. Where a step can end (`AtStepEnd`) is the model's choice (log entries 1 and 10). -/
def Obligations.GatePrecedesEveryWriteClassCommand : Prop :=
  ∀ s t : State, AtStepEnd s → GatePrecedesWrites s.trace → step s = .next t → AtStepEnd t ∧ GatePrecedesWrites t.trace

/-- (I7) of R213 and R105: the first byte of every transaction is one of the nine opcodes. Where a step can end
(`AtStepEnd`) is the model's choice (log entries 1 and 10). -/
def Obligations.OnlyTheNineOpcodesOpenATransaction : Prop :=
  ∀ s t : State, AtStepEnd s → OpcodesOpen s.trace → step s = .next t → AtStepEnd t ∧ OpcodesOpen t.trace

/-- (I8) of R213 and R25: each request is followed by exactly one response before the next request, and one waits for
its response exactly while the sequencer is not in `IDLE`; every row and every step keeps it so. -/
def Obligations.EachRequestHasOneResponse : Prop :=
  ∀ s t : State, openRequest s.trace = some (decide (s.ctl.phase ≠ .idle)) → step s = .next t ∨ tick s = .next t →
    openRequest t.trace = some (decide (t.ctl.phase ≠ .idle))

/-- R44: no rule reads the trace. Two states that differ only in the trace take the same step, and the same row, and
append the same events. -/
def Obligations.TraceIsNeverRead : Prop :=
  ∀ (s t : State) (tr : List Event),
    (step s = .next t →
      s.trace <+: t.trace ∧ step { s with trace := tr } = .next { t with trace := tr ++ newEvents s t }) ∧
    (tick s = .next t →
      s.trace <+: t.trace ∧ tick { s with trace := tr } = .next { t with trace := tr ++ newEvents s t })

/-- R195, R25: every request of the eight operations, whatever its operands, is accepted in `IDLE`. Acceptance latches
it (for PROGRAM the buffer's length, where 32 bits can say it, log entry 14), empties `RBUF`, emits `REQ` and validates in
the same step. An error goes to `DONE` and is delivered by the next row, with no transport primitive called; a valid
request goes to `XBEGIN` in the stage of its class. That the event `REQ` carries the request's own `len`, for a PROGRAM
whose buffer has another length too, is the model's reading (DEDUCED, log entry 17). -/
def Obligations.AcceptanceLatchesAndValidates : Prop :=
  ∀ (s : State) (op : HostOp) (q : Operands) (rest : List Request), s.ctl.phase = .idle →
    s.env.requests = ⟨op.selector, q⟩ :: rest →
    ∃ t, tick s = .next t ∧ t.ctl.opr = op ∧ t.ctl.addr = q.addr ∧
      (op ≠ .program → t.ctl.len = q.len) ∧
      (op = .program → q.wbuf.length < 2 ^ 32 → t.ctl.len.toNat = q.wbuf.length) ∧
      t.ctl.wbuf = q.wbuf ∧ t.ctl.rbuf = [] ∧ t.env.requests = rest ∧ t.env.answers = s.env.answers ∧
      t.ctl.cs = s.ctl.cs ∧ t.trace = s.trace ++ [.req op q.addr q.len q.wbuf] ∧
      if validate s.cfg op q.addr (latchedLen op q) = .ok then
        t.ctl.phase = .xbegin ∧ t.ctl.stage = (if op = .program ∨ op = .eraseSector then .gate else .cmd)
      else
        t.ctl.phase = .done ∧ t.ctl.result = validate s.cfg op q.addr (latchedLen op q) ∧
        ∃ u, tick t = .next u ∧ u.ctl.phase = .idle ∧ u.env.answers = s.env.answers ∧
          u.trace = t.trace ++ [.resp t.ctl.result []]

/-- R134: a failed slot emits `XFAIL`, captures nothing, clears `XOK` and goes to `XEND` whatever slots are left; END then
releases the select line and only then is `BusFault` the result; the row after that delivers it. That the device hears
nothing of the failed exchange (`stream` as it was) is the model's choice (DESIGN CHOICE, log entry 13). -/
def Obligations.FailedSlotEndsTheOperation : Prop :=
  (∀ (s : State) (sl : Slot), s.ctl.phase = .xslot →
    (layout (stageCommand s.ctl).op s)[s.ctl.slot.toNat]? = some sl → nextAnswer s = .fail →
    ∃ t, tick s = .next t ∧ t.trace = s.trace ++ [.xfail (Slot.tx s.cfg sl)] ∧ t.ctl.xok = false ∧
      t.ctl.phase = .xend ∧ t.ctl.rbuf = s.ctl.rbuf ∧ t.ctl.sr = s.ctl.sr ∧ t.ctl.slot = s.ctl.slot ∧
      t.ctl.cs = s.ctl.cs ∧ t.dev.stream = s.dev.stream) ∧
  (∀ s : State, s.ctl.phase = .xend → ∃ t, tick s = .next t ∧ t.ctl.cs = .high ∧ t.trace = s.trace ++ [.csHigh] ∧
    (s.ctl.xok = false → t.ctl.phase = .done ∧ t.ctl.result = .busFault)) ∧
  (∀ s : State, s.ctl.phase = .done → ∃ t, tick s = .next t ∧ t.ctl.phase = .idle ∧ t.ctl.cs = s.ctl.cs ∧
    t.trace = s.trace ++ [.resp s.ctl.result s.ctl.rbuf])

/-! ### Wire commands -/

/-- R153, R78: READ sends 0x03 and the address, and the `i`-th response byte is `mem[a+i]`; nothing of the device
changes. -/
def Obligations.ReadCommandReturnsTheArray : Prop :=
  ∀ (s : State) (a : Word), CommandReady s → addressFits a = true → a.toNat + s.ctl.len.toNat ≤ s.cfg.deviceSize →
    ∃ t body, exec (.read a) s = .next t ∧ t.trace = s.trace ++ body ∧
      Exchanged (0x03#8 :: (addressBytes a ++ List.replicate s.ctl.len.toNat s.cfg.fill)) body ∧
      t.ctl.rbuf = s.ctl.rbuf ++ Memory.read erasedByte s.dev.mem a.toNat s.ctl.len.toNat ∧
      ReadingEnd s t ∧ t.dev = { s.dev with stream := [] } ∧ WireFrame s t

/-- R158, R159, R79: RDID returns the three JEDEC bytes; RDMDID returns `LEN` bytes, as many of the legacy ID as there
are, in order. -/
def Obligations.IdCommandsReturnTheIds : Prop :=
  ∀ s : State, CommandReady s →
    (∃ t body, exec .rdid s = .next t ∧ t.trace = s.trace ++ body ∧
      Exchanged [0x9F#8, s.cfg.fill, s.cfg.fill, s.cfg.fill] body ∧
      t.ctl.rbuf = s.ctl.rbuf ++ s.dev.jedec ∧
      ReadingEnd s t ∧ t.dev = { s.dev with stream := [] } ∧ WireFrame s t) ∧
    (∃ t body ids, exec .rdmdid s = .next t ∧ t.trace = s.trace ++ body ∧
      Exchanged (0x90#8 :: List.replicate s.ctl.len.toNat s.cfg.fill) body ∧
      t.ctl.rbuf = s.ctl.rbuf ++ ids ∧ ids.length = s.ctl.len.toNat ∧
      (∀ i, i < s.ctl.len.toNat → i < s.dev.legacy.length → ids[i]? = s.dev.legacy[i]?) ∧
      ReadingEnd s t ∧ t.dev = { s.dev with stream := [] } ∧ WireFrame s t)

/-- R156, R79: RDSR is answered whether or not the device is busy. The byte is the status byte of the device as it is or
as it is after completion, never a stale mixture; it goes to `RBUF` in the CMD stage. In the POLL stage it goes to `SR`, and bit 0 of that very
byte, with the budget, decides whether the loop ends (R171, R172, R208 row T11). Bits 7:2 and the completion schedule are the
model's (log entries 12 and 16). -/
def Obligations.StatusCommandReturnsTheStatus : Prop :=
  ∀ s : State, s.ctl.phase = .xbegin → s.ctl.stage = .cmd ∨ s.ctl.stage = .poll → s.cfg.Legal → TransportOk s →
    ∃ t body b, exec .rdsr s = .next t ∧ t.trace = s.trace ++ body ∧
      Exchanged (0x05#8 :: (List.replicate s.cfg.dummyRdsr s.cfg.fill ++ [s.cfg.fill])) body ∧
      (b = statusByte s.dev ∨ s.dev.busy = true ∧ b = statusByte (s.dev.complete s.cfg)) ∧
      (s.ctl.stage = .cmd → t.ctl.rbuf = s.ctl.rbuf ++ [b] ∧ ReadingEnd s t) ∧
      (s.ctl.stage = .poll → t.ctl.sr = b ∧ t.ctl.rbuf = s.ctl.rbuf ∧ t.ctl.stage = .poll ∧
        t.ctl.polls = s.ctl.polls + 1 ∧
        (b.getLsbD 0 = false → t.ctl.phase = .done ∧ t.ctl.result = .ok) ∧
        (b.getLsbD 0 = true → ∀ n, s.cfg.pollMax = some n → n ≤ s.ctl.polls + 1 →
          t.ctl.phase = .done ∧ t.ctl.result = .flashTimeout) ∧
        (b.getLsbD 0 = true → (∀ n, s.cfg.pollMax = some n → s.ctl.polls + 1 < n) →
          t.ctl.phase = .pollwait ∧ t.ctl.result = s.ctl.result)) ∧
      (t.dev = { s.dev with stream := [] } ∨
        s.dev.busy = true ∧ t.dev = { s.dev.complete s.cfg with stream := [] }) ∧
      (b.getLsbD 0 = false → t.dev.busy = false) ∧ t.ctl.cs = .high ∧ WireFrame s t

/-- R160, R161, R79: RDSR3 returns status register 3 after one dummy slot; RDLOCK returns the lock byte of the address
with none. -/
def Obligations.RegisterCommandsReturnTheRegisters : Prop :=
  ∀ (s : State) (a : Word), CommandReady s → addressFits a = true → a.toNat < s.cfg.deviceSize →
    (∃ t body, exec .rdsr3 s = .next t ∧ t.trace = s.trace ++ body ∧
      Exchanged [0x15#8, s.cfg.fill, s.cfg.fill] body ∧ t.ctl.rbuf = s.ctl.rbuf ++ [s.dev.sr3] ∧
      ReadingEnd s t ∧ t.dev = { s.dev with stream := [] } ∧ WireFrame s t) ∧
    (∃ t body, exec (.rdlock a) s = .next t ∧ t.trace = s.trace ++ body ∧
      Exchanged (0x3D#8 :: (addressBytes a ++ [s.cfg.fill])) body ∧
      t.ctl.rbuf = s.ctl.rbuf ++ [Memory.get unlockedByte s.dev.lock a.toNat] ∧
      ReadingEnd s t ∧ t.dev = { s.dev with stream := [] } ∧ WireFrame s t)

/-- R157, R72, R185: WREN is one exchange of 0x06 in a transaction of its own; at its end WEL is set and nothing else of
the device has changed; the settle delay is next. -/
def Obligations.WriteEnableSetsTheLatch : Prop :=
  ∀ s : State, s.ctl.phase = .xbegin → s.ctl.stage = .gate → s.dev.busy = false → TransportOk s →
    ∃ t rx, exec .wren s = .next t ∧ t.trace = s.trace ++ [.csLow, .x 0x06#8 rx, .csHigh] ∧
      t.dev = { s.dev with wel := true, stream := [] } ∧ t.ctl.phase = .settle ∧ t.ctl.cs = .high ∧
      t.ctl.rbuf = s.ctl.rbuf ∧ t.ctl.sr = s.ctl.sr ∧ t.ctl.polls = s.ctl.polls ∧ t.ctl.stage = .gate ∧
      t.ctl.result = s.ctl.result ∧ WireFrame s t

/-- R154, R73: a complete page program to an aligned, unlocked page, with the latch set, makes the device busy with it;
the array is as it was until completion; the poll is next. -/
def Obligations.PageProgramBecomesPending : Prop :=
  ∀ (s : State) (a : Word), CommandReady s → writeClass s.ctl.opr = true → s.dev.wel = true → addressFits a = true →
    a.toNat % s.cfg.pageSize = 0 → a.toNat + s.cfg.pageSize ≤ s.cfg.deviceSize →
    s.ctl.wbuf.length = s.cfg.pageSize → Unlocked s a.toNat s.cfg.pageSize →
    ∃ t body, exec (.pp a) s = .next t ∧ t.trace = s.trace ++ body ∧
      Exchanged (0x02#8 :: (addressBytes a ++ s.ctl.wbuf)) body ∧
      t.dev = { s.dev with busy := true, pending := some (.prog a.toNat s.ctl.wbuf), stream := [] } ∧
      t.ctl.phase = .xbegin ∧ t.ctl.stage = .poll ∧ t.ctl.polls = 0 ∧ t.ctl.cs = .high ∧
      t.ctl.rbuf = s.ctl.rbuf ∧ t.ctl.sr = s.ctl.sr ∧ t.ctl.result = s.ctl.result ∧ WireFrame s t

/-- R155, R74: a sector erase of an aligned, unlocked sector, with the latch set, makes the device busy with it; the
array is as it was until completion; the poll is next. -/
def Obligations.SectorEraseBecomesPending : Prop :=
  ∀ (s : State) (a : Word), CommandReady s → writeClass s.ctl.opr = true → s.dev.wel = true → addressFits a = true →
    a.toNat % s.cfg.sectorSize = 0 → a.toNat + s.cfg.sectorSize ≤ s.cfg.deviceSize →
    Unlocked s a.toNat s.cfg.sectorSize →
    ∃ t body, exec (.se a) s = .next t ∧ t.trace = s.trace ++ body ∧ Exchanged (0x20#8 :: addressBytes a) body ∧
      t.dev = { s.dev with busy := true, pending := some (.erase a.toNat), stream := [] } ∧
      t.ctl.phase = .xbegin ∧ t.ctl.stage = .poll ∧ t.ctl.polls = 0 ∧ t.ctl.cs = .high ∧
      t.ctl.rbuf = s.ctl.rbuf ∧ t.ctl.sr = s.ctl.sr ∧ t.ctl.result = s.ctl.result ∧ WireFrame s t

/-- R77: a write-class command received while WEL is clear is ignored; the device does not complain and the transaction
ends as any other. -/
def Obligations.WriteClassCommandWithoutLatchIsIgnored : Prop :=
  ∀ (s : State) (a : Word), CommandReady s → s.dev.wel = false →
    (∃ t body, exec (.pp a) s = .next t ∧ t.trace = s.trace ++ body ∧
      Exchanged (0x02#8 :: (addressBytes a ++ s.ctl.wbuf)) body ∧ t.dev = { s.dev with stream := [] } ∧
      t.ctl.xok = true ∧ WireFrame s t) ∧
    (∃ t body, exec (.se a) s = .next t ∧ t.trace = s.trace ++ body ∧
      Exchanged (0x20#8 :: addressBytes a) body ∧ t.dev = { s.dev with stream := [] } ∧
      t.ctl.xok = true ∧ WireFrame s t)

/-- A write-class command of any form runs to the end of its transaction: aligned or not, complete or not, locked or not.
R65 has a misaligned PROGRAM sent as given; R71 and R77 say nothing of what a device outside the contract does, U8 would
refuse the run and U9 lets a locked target be written or not. That such a command runs at all, and that status register 3,
lock bytes and identification bytes survive it, are the model's choice (DESIGN CHOICE, log entries 8 and 9, unsafe for
just that); what the array then holds is left free. -/
def Obligations.WriteClassCommandOfAnyFormEnds : Prop :=
  ∀ (s : State) (a : Word), CommandReady s →
    (∃ t body, exec (.pp a) s = .next t ∧ t.trace = s.trace ++ body ∧
      Exchanged (0x02#8 :: (addressBytes a ++ s.ctl.wbuf)) body ∧ t.dev.sr3 = s.dev.sr3 ∧
      t.dev.lock = s.dev.lock ∧ t.dev.jedec = s.dev.jedec ∧ t.dev.legacy = s.dev.legacy ∧ WireFrame s t) ∧
    (∃ t body, exec (.se a) s = .next t ∧ t.trace = s.trace ++ body ∧
      Exchanged (0x20#8 :: addressBytes a) body ∧ t.dev.sr3 = s.dev.sr3 ∧
      t.dev.lock = s.dev.lock ∧ t.dev.jedec = s.dev.jedec ∧ t.dev.legacy = s.dev.legacy ∧ WireFrame s t)

/-- R80: a command other than a status read that arrives while the device is busy has no meaning and the run is
refused. The device stays busy until the first byte if it never completes or its schedule says so for the two rows (log entries
12 and 13). -/
def Obligations.CommandToABusyDeviceIsRefused : Prop :=
  ∀ (s : State) (i : Instr) (c : WireCmd), s.ctl.phase = .xbegin → i.wireCmd? = some c → c.op ≠ .rdsr →
    s.dev.busy = true → NeverCompletes s ∨ [false, false] <+: s.env.turns → nextAnswer s = .ok →
    exec i s = .refused .commandWhileBusy

/-- R130, R25 (U1): a wire command runs only where a transaction is due, a host operation only in `IDLE`; anything else
would be a second master or a second caller and is refused (the model's choice, log entry 11). -/
def Obligations.SecondMasterOrCallerIsRefused : Prop :=
  ∀ (s : State) (i : Instr),
    (i.wireCmd? ≠ none → s.ctl.phase ≠ .xbegin → exec i s = .refused .noTransactionDue) ∧
    (i.wireCmd? = none → s.ctl.phase ≠ .idle → exec i s = .refused .requestDuringOperation)

/-! ### Host operations that read -/

/-- R196: READ_ID_JEDEC returns the three JEDEC bytes as they arrive, whatever `addr` and `len`. -/
def Obligations.ReadIdJedecReturnsTheId : Prop :=
  ∀ (s : State) (q : Operands), HostReady s →
    ∃ t, exec (.readIdJedec q) s = .next t ∧
      ReadingTrace s t .readIdJedec q [0x9F#8, s.cfg.fill, s.cfg.fill, s.cfg.fill] s.dev.jedec ∧
      t.ctl.rbuf = s.dev.jedec ∧ t.ctl.result = .ok ∧ AtRest t ∧ ReadingFrame s t

/-- R197: READ_ID_LEGACY with `n >= 2` returns `n` bytes, the legacy ID's in order as far as it goes. -/
def Obligations.ReadIdLegacyReturnsTheId : Prop :=
  ∀ (s : State) (q : Operands), HostReady s → 2 ≤ q.len.toNat →
    ∃ t ids, exec (.readIdLegacy q) s = .next t ∧
      ReadingTrace s t .readIdLegacy q (0x90#8 :: List.replicate q.len.toNat s.cfg.fill) ids ∧
      ids.length = q.len.toNat ∧
      (∀ i, i < q.len.toNat → i < s.dev.legacy.length → ids[i]? = s.dev.legacy[i]?) ∧
      t.ctl.rbuf = ids ∧ t.ctl.result = .ok ∧ AtRest t ∧ ReadingFrame s t

/-- R198: READ_STATUS makes one status read and returns the byte, busy or not; with a device that is not busy it is the
device's status byte and nothing changes. -/
def Obligations.ReadStatusReturnsTheStatus : Prop :=
  ∀ (s : State) (q : Operands), s.ctl.phase = .idle → s.ctl.cs = .high → s.cfg.Legal → TransportOk s →
    ∃ t b, exec (.readStatus q) s = .next t ∧
      ReadingTrace s t .readStatus q (0x05#8 :: (List.replicate s.cfg.dummyRdsr s.cfg.fill ++ [s.cfg.fill])) [b] ∧
      (b = statusByte s.dev ∨ s.dev.busy = true ∧ b = statusByte (s.dev.complete s.cfg)) ∧
      t.ctl.rbuf = [b] ∧ t.ctl.result = .ok ∧ AtRest t ∧ (s.dev.busy = false → ReadingFrame s t)

/-- R199: READ_STATUS3 returns status register 3. -/
def Obligations.ReadStatus3ReturnsTheRegister : Prop :=
  ∀ (s : State) (q : Operands), HostReady s →
    ∃ t, exec (.readStatus3 q) s = .next t ∧
      ReadingTrace s t .readStatus3 q [0x15#8, s.cfg.fill, s.cfg.fill] [s.dev.sr3] ∧
      t.ctl.rbuf = [s.dev.sr3] ∧ t.ctl.result = .ok ∧ AtRest t ∧ ReadingFrame s t

/-- R200: READ_LOCK of any address below the device size returns the lock byte. -/
def Obligations.ReadLockReturnsTheLockByte : Prop :=
  ∀ (s : State) (q : Operands), HostReady s → q.addr.toNat < s.cfg.deviceSize →
    ∃ t, exec (.readLock q) s = .next t ∧
      ReadingTrace s t .readLock q (0x3D#8 :: (addressBytes q.addr ++ [s.cfg.fill]))
        [Memory.get unlockedByte s.dev.lock q.addr.toNat] ∧
      t.ctl.rbuf = [Memory.get unlockedByte s.dev.lock q.addr.toNat] ∧ t.ctl.result = .ok ∧ AtRest t ∧
      ReadingFrame s t

/-- R201: READ returns `LEN` bytes, the `i`-th being `mem[ADDR+i]`; with `LEN` = 0 it still runs its four frame slots. The
address must fit 24 bits, which only an empty read at `DEVICE_SIZE` = 2^24 does not (D32). -/
def Obligations.ReadReturnsTheArray : Prop :=
  ∀ (s : State) (q : Operands), HostReady s → q.addr.toNat < 2 ^ 24 →
    q.addr.toNat + q.len.toNat ≤ s.cfg.deviceSize →
    ∃ t, exec (.readHost q) s = .next t ∧
      ReadingTrace s t .read q (0x03#8 :: (addressBytes q.addr ++ List.replicate q.len.toNat s.cfg.fill))
        (Memory.read erasedByte s.dev.mem q.addr.toNat q.len.toNat) ∧
      t.ctl.rbuf = Memory.read erasedByte s.dev.mem q.addr.toNat q.len.toNat ∧ t.ctl.result = .ok ∧ AtRest t ∧
      ReadingFrame s t

/-- R68: a READ followed by a READ of the same range returns identical bytes. -/
def Obligations.ReadIsIdempotent : Prop :=
  ∀ (s : State) (q : Operands), HostReady s → validate s.cfg .read q.addr q.len.toNat = .ok →
    ∃ t u, exec (.readHost q) s = .next t ∧ exec (.readHost q) t = .next u ∧ u.ctl.rbuf = t.ctl.rbuf ∧
      t.ctl.result = .ok ∧ u.ctl.result = .ok ∧ u.dev = t.dev

/-! ### Host operations that write -/

/-- R202: PROGRAM of an aligned, unlocked page by a device that completes promptly (log entry 12) returns `OK` after one
status read: every byte of the page is the AND of old and new, every other byte is as it was, and the device is not busy,
its latch clear. That the event `REQ` carries the request's own `len`, which need not be the buffer's length, is the
model's reading (DEDUCED, log entry 17). -/
def Obligations.ProgramAndsThePage : Prop :=
  ∀ (s : State) (q : Operands), HostReady s → s.dev.failed = false → s.env.turns = [] →
    q.wbuf.length = s.cfg.pageSize → q.addr.toNat % s.cfg.pageSize = 0 →
    q.addr.toNat + s.cfg.pageSize ≤ s.cfg.deviceSize → Unlocked s q.addr.toNat s.cfg.pageSize →
    ∃ t rx body poll, exec (.program q) s = .next t ∧
      Exchanged (0x02#8 :: (addressBytes q.addr ++ q.wbuf)) body ∧
      Exchanged (0x05#8 :: (List.replicate s.cfg.dummyRdsr s.cfg.fill ++ [s.cfg.fill])) poll ∧
      t.trace = s.trace ++ .req .program q.addr q.len q.wbuf ::
        (GateEvents rx ++ body ++ poll ++ [.resp .ok []]) ∧
      t.ctl.result = .ok ∧ t.ctl.rbuf = [] ∧ AtRest t ∧ Programmed s t q.addr.toNat q.wbuf ∧ Finished t ∧
      WritingFrame s t

/-- R203: ERASE_SECTOR of an unlocked sector by a device that completes promptly (log entry 12) returns `OK` after one
status read: every byte of the sector is 0xFF, every other byte is as it was, and the device is not busy, its latch clear. -/
def Obligations.EraseSetsTheSectorToOnes : Prop :=
  ∀ (s : State) (q : Operands), HostReady s → s.dev.failed = false → s.env.turns = [] →
    q.addr.toNat % s.cfg.sectorSize = 0 → q.addr.toNat + s.cfg.sectorSize ≤ s.cfg.deviceSize →
    Unlocked s q.addr.toNat s.cfg.sectorSize →
    ∃ t rx body poll, exec (.eraseSector q) s = .next t ∧ Exchanged (0x20#8 :: addressBytes q.addr) body ∧
      Exchanged (0x05#8 :: (List.replicate s.cfg.dummyRdsr s.cfg.fill ++ [s.cfg.fill])) poll ∧
      t.trace = s.trace ++ .req .eraseSector q.addr q.len q.wbuf ::
        (GateEvents rx ++ body ++ poll ++ [.resp .ok []]) ∧
      t.ctl.result = .ok ∧ t.ctl.rbuf = [] ∧ AtRest t ∧ Erased s t q.addr.toNat s.cfg.sectorSize ∧ Finished t ∧
      WritingFrame s t

/-- R202, R203, R76: whenever the device completes, with any finite budget, and without one for a device that has not
failed, the operation returns `OK` or, with a budget, `FlashTimeout`. After `OK` the device has finished and the array is as the operation says; after `FlashTimeout` it has
finished or is still at it. Bytes outside the target are as they were either way. The schedule is the model's form of
the device's own time (log entry 12). -/
def Obligations.WriteOperationsUnderAnySchedule : Prop :=
  ∀ (s : State) (q : Operands), HostReady s → PollEnds s →
    (q.wbuf.length = s.cfg.pageSize → q.addr.toNat % s.cfg.pageSize = 0 →
      q.addr.toNat + s.cfg.pageSize ≤ s.cfg.deviceSize → Unlocked s q.addr.toNat s.cfg.pageSize →
      ∃ t, exec (.program q) s = .next t ∧ AtRest t ∧ WritingFrame s t ∧
        (t.ctl.result = .ok ∧ Finished t ∧ Programmed s t q.addr.toNat q.wbuf ∨
          t.ctl.result = .flashTimeout ∧ s.cfg.pollMax ≠ none ∧
            (StillRunning s t (.prog q.addr.toNat q.wbuf) ∨ Finished t ∧ Programmed s t q.addr.toNat q.wbuf))) ∧
    (q.addr.toNat % s.cfg.sectorSize = 0 → q.addr.toNat + s.cfg.sectorSize ≤ s.cfg.deviceSize →
      Unlocked s q.addr.toNat s.cfg.sectorSize →
      ∃ t, exec (.eraseSector q) s = .next t ∧ AtRest t ∧ WritingFrame s t ∧
        (t.ctl.result = .ok ∧ Finished t ∧ Erased s t q.addr.toNat s.cfg.sectorSize ∨
          t.ctl.result = .flashTimeout ∧ s.cfg.pollMax ≠ none ∧
            (StillRunning s t (.erase q.addr.toNat) ∨ Finished t ∧ Erased s t q.addr.toNat s.cfg.sectorSize)))

/-- R65, R188, R206 (U8, U9): PROGRAM and ERASE_SECTOR send every request that passes validation as given, once, after
the gate: a misaligned or locked page too, an unerased one too; after the command only status reads follow. That such a
page runs at all, and that the device's other registers survive it, is the model's choice where the spec leaves the
device's part open (DESIGN CHOICE, log entries 8 and 9), and that the event `REQ` carries the request's own length is the
model's reading (DEDUCED, log entry 17). What the array then holds is said elsewhere where the spec says
it. -/
def Obligations.AcceptedWritesAreSentAsGiven : Prop :=
  ∀ (s : State) (q : Operands), HostReady s → PollEnds s →
    (validate s.cfg .program q.addr q.wbuf.length = .ok →
      ∃ t, exec (.program q) s = .next t ∧ AtRest t ∧ WritingFrame s t ∧
        WriteCommandSent s t .program q (0x02#8 :: (addressBytes q.addr ++ q.wbuf))) ∧
    (validate s.cfg .eraseSector q.addr q.len.toNat = .ok →
      ∃ t, exec (.eraseSector q) s = .next t ∧ AtRest t ∧ WritingFrame s t ∧
        WriteCommandSent s t .eraseSector q (0x20#8 :: addressBytes q.addr))

/-- R87: erase a sector, program a page in it, read the page: the bytes read are the bytes written. -/
def Obligations.EraseProgramReadReturnsTheData : Prop :=
  ∀ (s : State) (e p r : Operands), HostReady s → s.dev.failed = false → s.env.turns = [] →
    e.addr.toNat % s.cfg.sectorSize = 0 → e.addr.toNat + s.cfg.sectorSize ≤ s.cfg.deviceSize →
    Unlocked s e.addr.toNat s.cfg.sectorSize →
    p.addr.toNat % s.cfg.pageSize = 0 → e.addr.toNat ≤ p.addr.toNat →
    p.addr.toNat + s.cfg.pageSize ≤ e.addr.toNat + s.cfg.sectorSize → p.wbuf.length = s.cfg.pageSize →
    r.addr = p.addr → r.len = BitVec.ofNat 32 s.cfg.pageSize →
    ∃ t u v, exec (.eraseSector e) s = .next t ∧ exec (.program p) t = .next u ∧ exec (.readHost r) u = .next v ∧
      t.ctl.result = .ok ∧ u.ctl.result = .ok ∧ v.ctl.result = .ok ∧ v.ctl.rbuf = p.wbuf ∧
      (∀ x, x < e.addr.toNat ∨ e.addr.toNat + s.cfg.sectorSize ≤ x → arrayByte v x = arrayByte s x)

/-! ### Conditions -/

/-- R195, R236, R237: a request that fails validation is answered with its error; its whole trace is `REQ`, `RESP`; a
device that is not busy is exactly as before, and no other register of the transaction machinery has changed. That the
event `REQ` carries the request's own `len`, for a PROGRAM too, is the model's reading (DEDUCED, log entry 17). -/
def Obligations.InvalidRequestNeverReachesTheBus : Prop :=
  ∀ (s : State) (op : HostOp) (q : Operands) (e : Result), s.ctl.phase = .idle →
    validate s.cfg op q.addr (latchedLen op q) = e → e ≠ .ok →
    ∃ t, exec (op.instr q) s = .next t ∧
      t.trace = s.trace ++ [.req op q.addr q.len q.wbuf, .resp e []] ∧ t.ctl.result = e ∧
      t.ctl.phase = .idle ∧ t.ctl.cs = s.ctl.cs ∧ t.ctl.frame = s.ctl.frame ∧ t.ctl.slot = s.ctl.slot ∧
      t.ctl.sr = s.ctl.sr ∧ t.ctl.polls = s.ctl.polls ∧ t.ctl.xok = s.ctl.xok ∧ t.ctl.stage = s.ctl.stage ∧
      t.env.requests = s.env.requests ∧ t.env.answers = s.env.answers ∧ t.cfg = s.cfg ∧
      (s.dev.busy = false → t.dev = s.dev)

/-- R211, R233, R234, R235, R209: the validation table in exact arithmetic, the address test before the length test, and
the length that is tested: for PROGRAM that of the buffer, whatever its size. -/
def Obligations.ValidationTable : Prop :=
  (∀ (op : HostOp) (q : Operands), latchedLen op q = if op = .program then q.wbuf.length else q.len.toNat) ∧
  ∀ (cfg : Cfg) (addr : Word) (len : Nat), cfg.Legal →
    validate cfg .readIdJedec addr len = .ok ∧ validate cfg .readStatus addr len = .ok ∧
    validate cfg .readStatus3 addr len = .ok ∧
    validate cfg .readIdLegacy addr len = (if len < 2 then .invalidLength else .ok) ∧
    validate cfg .readLock addr len =
      (if 2 ^ 24 ≤ addr.toNat ∨ cfg.deviceSize ≤ addr.toNat then .invalidAddress else .ok) ∧
    validate cfg .read addr len =
      (if 2 ^ 24 ≤ addr.toNat ∨ cfg.deviceSize < addr.toNat + len then .invalidAddress else .ok) ∧
    validate cfg .program addr len =
      (if 2 ^ 24 ≤ addr.toNat ∨ cfg.deviceSize < addr.toNat + 256 then .invalidAddress
        else if len ≠ 256 then .invalidLength else .ok) ∧
    validate cfg .eraseSector addr len =
      (if 2 ^ 24 ≤ addr.toNat ∨ addr.toNat % 4096 ≠ 0 ∨ cfg.deviceSize < addr.toNat + 4096 then .invalidAddress
        else .ok)

/-- R134, R190, R231: a failure of the first exchange, which for a write-class operation is the gate's only one, ends any
valid operation at once: the line is released, then `BusFault` is reported; no delay, no further transaction. That the
event `REQ` carries the request's own `len`, for a PROGRAM too, is the model's reading (DEDUCED, log entry 17). -/
def Obligations.FirstExchangeFailureEndsTheOperation : Prop :=
  ∀ (s : State) (op : HostOp) (q : Operands), s.ctl.phase = .idle →
    validate s.cfg op q.addr (latchedLen op q) = .ok → nextAnswer s = .fail →
    ∃ t, exec (op.instr q) s = .next t ∧
      t.trace = s.trace ++ [.req op q.addr q.len q.wbuf, .csLow,
        .xfail (if op = .program ∨ op = .eraseSector then 0x06#8 else (commandOf op).opcode), .csHigh,
        .resp .busFault []] ∧
      t.ctl.result = .busFault ∧ AtRest t

/-- R231: an operation that has returned ended with `BusFault` exactly if one of its exchanges failed. -/
def Obligations.BusFaultExactlyAfterAFailedExchange : Prop :=
  ∀ (s t : State) (op : HostOp) (q : Operands), s.ctl.phase = .idle → exec (op.instr q) s = .next t →
    t.ctl.phase = .idle → (t.ctl.result = .busFault ↔ ∃ tx, Event.xfail tx ∈ newEvents s t)

/-- R175, R82: when a write-class operation returns `OK`, the last status byte has BUSY clear and so has the device. -/
def Obligations.OkMeansTheDeviceIsNotBusy : Prop :=
  ∀ (s t : State) (op : HostOp) (q : Operands), s.ctl.phase = .idle → s.cfg.Legal → writeClass op = true →
    exec (op.instr q) s = .next t → t.ctl.phase = .idle → t.ctl.result = .ok →
    isBusy s.cfg t.ctl.sr = false ∧ t.dev.busy = false

/-- R179, R174: a write-class operation that returns `OK` made between 1 and `POLL_MAX` status reads, one that returns
`FlashTimeout` exactly `POLL_MAX`; the delays between them are one fewer. -/
def Obligations.PollCounts : Prop :=
  ∀ (s t : State) (op : HostOp) (q : Operands), s.ctl.phase = .idle → s.cfg.Legal → writeClass op = true →
    exec (op.instr q) s = .next t → t.ctl.phase = .idle →
    (t.ctl.result = .ok → 1 ≤ t.ctl.polls ∧ (∀ n, s.cfg.pollMax = some n → t.ctl.polls ≤ n) ∧
      pollDelays (newEvents s t) = t.ctl.polls - 1) ∧
    (t.ctl.result = .flashTimeout → s.cfg.pollMax = some t.ctl.polls ∧
      pollDelays (newEvents s t) = t.ctl.polls - 1)

/-- R232: an operation that has returned ended with `FlashTimeout` exactly if it is PROGRAM or ERASE_SECTOR, was valid, had no failed
exchange, and its last status read, the `POLL_MAX`-th, shows BUSY; the select line is HIGH. Never without a budget. -/
def Obligations.FlashTimeoutExactlyAtTheEndOfTheBudget : Prop :=
  ∀ (s t : State) (op : HostOp) (q : Operands), s.ctl.phase = .idle → s.cfg.Legal → exec (op.instr q) s = .next t →
    t.ctl.phase = .idle →
    (t.ctl.result = .flashTimeout ↔
      (op = .program ∨ op = .eraseSector) ∧ validate s.cfg op q.addr (latchedLen op q) = .ok ∧
      (∀ tx, Event.xfail tx ∉ newEvents s t) ∧ s.cfg.pollMax = some t.ctl.polls ∧ t.ctl.sr.getLsbD 0 = true) ∧
    (t.ctl.result = .flashTimeout → t.ctl.cs = .high ∧ s.cfg.pollMax ≠ none ∧
      ∃ before, newEvents s t = before ++ [.csHigh, .resp .flashTimeout []])

/-- R115 (and the transactions of R212): an operation that goes through expands into the transactions of the table: a reading operation into its own
command; PROGRAM into WREN, settle, PP, poll; ERASE_SECTOR into WREN, settle, SE, poll; with the poll delay between
every two status reads. -/
def Obligations.OperationsExpandAsTheTable : Prop :=
  ∀ (s t : State) (op : HostOp) (q : Operands), s.ctl.phase = .idle → s.cfg.Legal → exec (op.instr q) s = .next t →
    t.ctl.phase = .idle → t.ctl.result = .ok ∨ t.ctl.result = .flashTimeout →
    outline (newEvents s t) =
      match op with
      | .readIdJedec => [.inl 0x9F#8]
      | .readIdLegacy => [.inl 0x90#8]
      | .readStatus => [.inl 0x05#8]
      | .readStatus3 => [.inl 0x15#8]
      | .readLock => [.inl 0x3D#8]
      | .read => [.inl 0x03#8]
      | .program => .inl 0x06#8 :: .inr .settle :: .inl 0x02#8 :: pollOutline t.ctl.polls
      | .eraseSector => .inl 0x06#8 :: .inr .settle :: .inl 0x20#8 :: pollOutline t.ctl.polls

/-- R232: with a device that never completes, a write-class operation whose command it has taken ends in
`FlashTimeout` after `POLL_MAX` status reads; the device is still at it and the array is as it was. -/
def Obligations.StuckDeviceTimesOut : Prop :=
  ∀ (s : State) (q : Operands) (n : Nat), HostReady s → NeverCompletes s → s.cfg.pollMax = some n →
    (q.wbuf.length = s.cfg.pageSize → q.addr.toNat % s.cfg.pageSize = 0 →
      q.addr.toNat + s.cfg.pageSize ≤ s.cfg.deviceSize → Unlocked s q.addr.toNat s.cfg.pageSize →
      ∃ t, exec (.program q) s = .next t ∧ t.ctl.result = .flashTimeout ∧ t.ctl.polls = n ∧
        StillRunning s t (.prog q.addr.toNat q.wbuf) ∧ AtRest t ∧ WritingFrame s t) ∧
    (q.addr.toNat % s.cfg.sectorSize = 0 → q.addr.toNat + s.cfg.sectorSize ≤ s.cfg.deviceSize →
      Unlocked s q.addr.toNat s.cfg.sectorSize →
      ∃ t, exec (.eraseSector q) s = .next t ∧ t.ctl.result = .flashTimeout ∧ t.ctl.polls = n ∧
        StillRunning s t (.erase q.addr.toNat) ∧ AtRest t ∧ WritingFrame s t)

/-- R174 with `POLL_MAX` = INFINITY (vector B3.8): with a device that never completes the operation does not return. It
is left polling, after its command and any number of status reads with a delay after each, and however many rows follow,
it is at neither `DONE` nor `IDLE` and the device is still at it (log entry 10). -/
def Obligations.StuckDeviceWithoutBudgetNeverReturns : Prop :=
  ∀ (s : State) (q : Operands), HostReady s → NeverCompletes s → s.cfg.pollMax = none →
    (q.wbuf.length = s.cfg.pageSize → q.addr.toNat % s.cfg.pageSize = 0 →
      q.addr.toNat + s.cfg.pageSize ≤ s.cfg.deviceSize → Unlocked s q.addr.toNat s.cfg.pageSize →
      ∃ t, exec (.program q) s = .next t ∧ t.ctl.phase = .xbegin ∧ t.ctl.stage = .poll ∧ WritingFrame s t ∧
        outline (newEvents s t) =
          .inl 0x06#8 :: .inr .settle :: .inl 0x02#8 :: (pollOutline t.ctl.polls ++ [.inr .poll]) ∧
        ∀ n, ∃ u, ticks n t = .next u ∧ u.ctl.phase ≠ .idle ∧ u.ctl.phase ≠ .done ∧
          StillRunning s u (.prog q.addr.toNat q.wbuf)) ∧
    (q.addr.toNat % s.cfg.sectorSize = 0 → q.addr.toNat + s.cfg.sectorSize ≤ s.cfg.deviceSize →
      Unlocked s q.addr.toNat s.cfg.sectorSize →
      ∃ t, exec (.eraseSector q) s = .next t ∧ t.ctl.phase = .xbegin ∧ t.ctl.stage = .poll ∧ WritingFrame s t ∧
        outline (newEvents s t) =
          .inl 0x06#8 :: .inr .settle :: .inl 0x20#8 :: (pollOutline t.ctl.polls ++ [.inr .poll]) ∧
        ∀ n, ∃ u, ticks n t = .next u ∧ u.ctl.phase ≠ .idle ∧ u.ctl.phase ≠ .done ∧
          StillRunning s u (.erase q.addr.toNat))

/-- R241, R172, R178: no hang. With a finite budget, or a device that has not failed, or a failure of the transport to
come, every request accepted in `IDLE` reaches its response, whatever the transport answers and whenever the device
completes. The one other outcome is R80's refusal: of a valid request other than READ_STATUS, at a device that is busy
when the request comes (log entries 12 and 13). -/
def Obligations.EveryRequestIsAnswered : Prop :=
  ∀ (s : State) (op : HostOp) (q : Operands), s.ctl.phase = .idle → s.cfg.Legal →
    PollEnds s ∨ Answer.fail ∈ s.env.answers →
    (∃ t events, exec (op.instr q) s = .next t ∧ t.ctl.phase = .idle ∧
      t.trace = s.trace ++ events ++ [.resp t.ctl.result t.ctl.rbuf]) ∨
    exec (op.instr q) s = .refused .commandWhileBusy ∧ s.dev.busy = true ∧ op ≠ .readStatus ∧
      validate s.cfg op q.addr (latchedLen op q) = .ok

/-- R36, R79, R171: the status byte has BUSY in bit 0, WEL in bit 1 and the undescribed bits above, and the busy test
reads bit 0 only (the bits above are a field of the device, log entry 16). -/
def Obligations.StatusByteAndBusyTest : Prop :=
  (∀ d : Device, (statusByte d).toNat = d.busy.toNat + 2 * d.wel.toNat + 4 * d.statusHi.toNat) ∧
  (∀ (cfg : Cfg) (sr : Byte), cfg.Legal →
    isBusy cfg sr = decide (sr.toNat % 2 = 1) ∧ latchSet cfg sr = decide (sr.toNat / 2 % 2 = 1))

/-- R73, R74, R75, R76: completion applies what is pending to the array, clears BUSY and WEL, and leaves nothing
pending; it happens before a row exactly if the device is busy and its schedule says so, or the schedule is at its end and
the device has not failed (log entry 12). -/
def Obligations.CompletionAppliesThePendingOperation : Prop :=
  ∀ s : State, s.cfg.Legal → s.dev.Sound s.cfg →
    (∀ a w, s.dev.pending = some (.prog a w) → a + w.length ≤ s.cfg.deviceSize → completesNow s = true →
      Programmed s (deviceTurn s) a w) ∧
    (∀ a, s.dev.pending = some (.erase a) → completesNow s = true →
      Erased s (deviceTurn s) a s.cfg.sectorSize) ∧
    (s.dev.pending = none → completesNow s = true → (deviceTurn s).dev.mem = s.dev.mem) ∧
    (completesNow s = true → Finished (deviceTurn s)) ∧
    (completesNow s = true ↔ s.dev.busy = true ∧
      (s.env.turns = [] ∧ s.dev.failed = false ∨ ∃ rest, s.env.turns = true :: rest)) ∧
    (completesNow s = false → (deviceTurn s).dev = s.dev)
end

