-- ==== Sys2Proof/Laws/Decode.lean ====
section
/-! SUPPORT. The opcode and selector tables read both ways, the bytes of a frame, and what the device decodes from the
bytes the controller sends. -/

namespace Sys2Proof

@[simp] theorem WireOp.ofOpcode_opcode (op : WireOp) : WireOp.ofOpcode op.opcode = some op := by
  cases op <;> decide

theorem WireOp.opcode_of_ofOpcode {b : Byte} {op : WireOp} (h : WireOp.ofOpcode b = some op) : b = op.opcode := by
  unfold WireOp.ofOpcode at h
  repeat' split at h
  all_goals first | (injection h with h; subst h; assumption) | cases h

@[simp] theorem HostOp.ofSelector_selector (op : HostOp) : HostOp.ofSelector op.selector = some op := by
  cases op <;> decide

theorem HostOp.selector_of_ofSelector {b : BitVec 4} {op : HostOp} (h : HostOp.ofSelector b = some op) :
    b = op.selector := by
  unfold HostOp.ofSelector at h
  repeat' split at h
  all_goals first | (injection h with h; subst h; assumption) | cases h

/-- The low 24 bits of an address container, as the device rebuilds them. -/
theorem assembleAddress_bytes (a : Word) :
    assembleAddress ((a >>> 16).setWidth 8) ((a >>> 8).setWidth 8) (a.setWidth 8) = (a.setWidth 24).setWidth 32 := by
  apply BitVec.eq_of_getLsbD_eq
  intro i hi
  simp only [assembleAddress, BitVec.getLsbD_or, BitVec.getLsbD_shiftLeft, BitVec.getLsbD_setWidth,
    BitVec.getLsbD_ushiftRight]
  rcases Nat.lt_or_ge i 8 with h | h
  · simp [hi, h, show i < 16 by omega, show i < 24 by omega]
  · rcases Nat.lt_or_ge i 16 with h' | h'
    · simp [hi, h', show ¬ i < 8 by omega, show i - 8 < 8 by omega, show i - 8 < 32 by omega,
        show 8 + (i - 8) = i by omega, show i < 24 by omega]
    · rcases Nat.lt_or_ge i 24 with h'' | h''
      · simp [hi, h'', show ¬ i < 8 by omega, show ¬ i < 16 by omega, show i - 16 < 8 by omega,
          show ¬ i - 8 < 8 by omega, show i - 16 < 32 by omega, show 16 + (i - 16) = i by omega]
      · simp [hi, show ¬ i < 8 by omega, show ¬ i < 16 by omega, show ¬ i < 24 by omega,
          show ¬ i - 8 < 8 by omega, show ¬ i - 16 < 8 by omega]

theorem addressFits_iff (a : Word) : addressFits a = true ↔ a.toNat < 2 ^ 24 := by
  rw [addressFits, beq_iff_eq, ← BitVec.toNat_inj, BitVec.extractLsb'_toNat]
  have := a.isLt
  simp only [Nat.shiftRight_eq_div_pow, BitVec.toNat_ofNat]
  omega

theorem low24_of_fits {a : Word} (h : addressFits a = true) : (a.setWidth 24).setWidth 32 = a := by
  rw [addressFits_iff] at h
  apply BitVec.eq_of_toNat_eq
  simp only [BitVec.toNat_setWidth]
  omega

@[simp] theorem addressFits_zero : addressFits 0#32 = true := by decide

/-- The four bytes of an F4 frame. -/
theorem encodeF4_bytes (opcode : Byte) (a : Word) :
    (encodeF4 opcode a).bytes =
      [opcode, (a >>> 16).setWidth 8, (a >>> 8).setWidth 8, a.setWidth 8] := by
  simp only [encodeF4, Frame.bytes, List.cons.injEq, and_true]
  refine ⟨?_, ?_, ?_, ?_⟩ <;>
  · apply BitVec.eq_of_getLsbD_eq
    intro i hi
    simp only [BitVec.getLsbD_setWidth, BitVec.getLsbD_ushiftRight, BitVec.getLsbD_append]
    simp [hi, show i < 24 by omega, show 8 + i < 24 by omega, show 16 + i < 24 by omega]

/-- The bytes of a command's frame: the opcode, and for an address-bearing command the three address bytes. -/
theorem WireCmd.frame_bytes (c : WireCmd) :
    c.frame.bytes = c.op.opcode :: (if c.op.addressBearing then addressBytes c.a else []) := by
  unfold WireCmd.frame
  split
  · simp [encodeF4_bytes, addressBytes]
  · rfl

@[simp] theorem addressBytes_length (a : Word) : (addressBytes a).length = 3 := rfl

/-- What the device decodes from the frame of a command followed by any bytes: the command, its address cut to 24 bits,
and those bytes. -/
theorem decodeWire_frame (op : WireOp) (a : Word) (rest : List Byte) :
    decodeWire ((Machine.wireCmd op a).frame.bytes ++ rest) =
      .ok (Machine.wireCmd op ((a.setWidth 24).setWidth 32), rest) := by
  rw [WireCmd.frame_bytes]
  cases op <;>
    simp [Machine.wireCmd, WireOp.addressBearing, decodeWire, WireOp.opcode, WireOp.ofOpcode, addressBytes,
      assembleAddress_bytes]

/-- For an address that fits, the address itself. -/
theorem decodeWire_frame_of_fits (op : WireOp) {a : Word} (h : addressFits a = true) (rest : List Byte) :
    decodeWire ((Machine.wireCmd op a).frame.bytes ++ rest) = .ok (Machine.wireCmd op a, rest) := by
  rw [decodeWire_frame, low24_of_fits h]

/-- The device decodes the address of any complete frame it can read at all from its first four bytes: later bytes do
not matter. -/
theorem decodeWire_append {bytes more : List Byte} {c : WireCmd} {further : List Byte}
    (h : decodeWire bytes = .ok (c, further)) : decodeWire (bytes ++ more) = .ok (c, further ++ more) := by
  unfold decodeWire at h ⊢
  cases bytes with
  | nil => cases h
  | cons b rest =>
    simp only [List.cons_append] at h ⊢
    cases hop : WireOp.ofOpcode b with
    | none => simp [hop] at h
    | some op =>
      simp only [hop] at h ⊢
      by_cases hf : op.addressBearing
      · simp only [hf, if_true] at h ⊢
        match rest, h with
        | b1 :: b2 :: b3 :: tail, h => simp only [Except.ok.injEq, Prod.mk.injEq] at h; simp [h.1, ← h.2]
        | [], h => cases h
        | [_], h => cases h
        | [_, _], h => cases h
      · simp only [hf] at h ⊢
        simp only [Bool.false_eq_true, if_false, Except.ok.injEq, Prod.mk.injEq] at h ⊢
        simp [h.1, ← h.2]

end Sys2Proof
end

