-- ==== Sys2Proof/Laws/State.lean ====
section
/-! SUPPORT. Beside State: for each named update of a state, what every field holds after it. Later proofs cite these and
never unfold a record update. -/

namespace Sys2Proof.Machine

/-! `emit` -/

@[simp] theorem emit_cfg (e : Event) (s : State) : (emit e s).cfg = s.cfg := rfl
@[simp] theorem emit_ctl (e : Event) (s : State) : (emit e s).ctl = s.ctl := rfl
@[simp] theorem emit_dev (e : Event) (s : State) : (emit e s).dev = s.dev := rfl
@[simp] theorem emit_env (e : Event) (s : State) : (emit e s).env = s.env := rfl
@[simp] theorem emit_free (e : Event) (s : State) : (emit e s).free = s.free := rfl
@[simp] theorem emit_trace (e : Event) (s : State) : (emit e s).trace = s.trace ++ [e] := rfl

/-! `deviceTurn` -/

@[simp] theorem deviceTurn_cfg (s : State) : (deviceTurn s).cfg = s.cfg := rfl
@[simp] theorem deviceTurn_ctl (s : State) : (deviceTurn s).ctl = s.ctl := rfl
theorem deviceTurn_dev (s : State) : (deviceTurn s).dev = if completesNow s then s.dev.complete s.cfg else s.dev := rfl
@[simp] theorem deviceTurn_requests (s : State) : (deviceTurn s).env.requests = s.env.requests := rfl
@[simp] theorem deviceTurn_answers (s : State) : (deviceTurn s).env.answers = s.env.answers := rfl
@[simp] theorem deviceTurn_turns (s : State) : (deviceTurn s).env.turns = s.env.turns.tail := rfl
@[simp] theorem deviceTurn_free (s : State) : (deviceTurn s).free = s.free := rfl
@[simp] theorem deviceTurn_trace (s : State) : (deviceTurn s).trace = s.trace := rfl

/-! `popAnswer` -/

@[simp] theorem popAnswer_cfg (s : State) : (popAnswer s).cfg = s.cfg := rfl
@[simp] theorem popAnswer_ctl (s : State) : (popAnswer s).ctl = s.ctl := rfl
@[simp] theorem popAnswer_dev (s : State) : (popAnswer s).dev = s.dev := rfl
@[simp] theorem popAnswer_requests (s : State) : (popAnswer s).env.requests = s.env.requests := rfl
@[simp] theorem popAnswer_answers (s : State) : (popAnswer s).env.answers = s.env.answers.tail := rfl
@[simp] theorem popAnswer_turns (s : State) : (popAnswer s).env.turns = s.env.turns := rfl
@[simp] theorem popAnswer_free (s : State) : (popAnswer s).free = s.free := rfl
@[simp] theorem popAnswer_trace (s : State) : (popAnswer s).trace = s.trace := rfl

/-! `popRequest` -/

@[simp] theorem popRequest_cfg (s : State) : (popRequest s).cfg = s.cfg := rfl
@[simp] theorem popRequest_ctl (s : State) : (popRequest s).ctl = s.ctl := rfl
@[simp] theorem popRequest_dev (s : State) : (popRequest s).dev = s.dev := rfl
@[simp] theorem popRequest_requests (s : State) : (popRequest s).env.requests = s.env.requests.tail := rfl
@[simp] theorem popRequest_answers (s : State) : (popRequest s).env.answers = s.env.answers := rfl
@[simp] theorem popRequest_turns (s : State) : (popRequest s).env.turns = s.env.turns := rfl
@[simp] theorem popRequest_free (s : State) : (popRequest s).free = s.free := rfl
@[simp] theorem popRequest_trace (s : State) : (popRequest s).trace = s.trace := rfl

/-! `raise` -/

@[simp] theorem raise_cfg (r : Result) (s : State) : (raise r s).cfg = s.cfg := rfl
@[simp] theorem raise_cs (r : Result) (s : State) : (raise r s).ctl.cs = s.ctl.cs := rfl
@[simp] theorem raise_phase (r : Result) (s : State) : (raise r s).ctl.phase = .done := rfl
@[simp] theorem raise_stage (r : Result) (s : State) : (raise r s).ctl.stage = s.ctl.stage := rfl
@[simp] theorem raise_opr (r : Result) (s : State) : (raise r s).ctl.opr = s.ctl.opr := rfl
@[simp] theorem raise_addr (r : Result) (s : State) : (raise r s).ctl.addr = s.ctl.addr := rfl
@[simp] theorem raise_len (r : Result) (s : State) : (raise r s).ctl.len = s.ctl.len := rfl
@[simp] theorem raise_wbuf (r : Result) (s : State) : (raise r s).ctl.wbuf = s.ctl.wbuf := rfl
@[simp] theorem raise_frame (r : Result) (s : State) : (raise r s).ctl.frame = s.ctl.frame := rfl
@[simp] theorem raise_slot (r : Result) (s : State) : (raise r s).ctl.slot = s.ctl.slot := rfl
@[simp] theorem raise_rbuf (r : Result) (s : State) : (raise r s).ctl.rbuf = s.ctl.rbuf := rfl
@[simp] theorem raise_sr (r : Result) (s : State) : (raise r s).ctl.sr = s.ctl.sr := rfl
@[simp] theorem raise_polls (r : Result) (s : State) : (raise r s).ctl.polls = s.ctl.polls := rfl
@[simp] theorem raise_xok (r : Result) (s : State) : (raise r s).ctl.xok = s.ctl.xok := rfl
@[simp] theorem raise_result (r : Result) (s : State) : (raise r s).ctl.result = r := rfl
@[simp] theorem raise_dev (r : Result) (s : State) : (raise r s).dev = s.dev := rfl
@[simp] theorem raise_env (r : Result) (s : State) : (raise r s).env = s.env := rfl
@[simp] theorem raise_free (r : Result) (s : State) : (raise r s).free = s.free := rfl
@[simp] theorem raise_trace (r : Result) (s : State) : (raise r s).trace = s.trace := rfl

/-! `respond` -/

@[simp] theorem respond_cfg (s : State) : (respond s).cfg = s.cfg := rfl
@[simp] theorem respond_cs (s : State) : (respond s).ctl.cs = s.ctl.cs := rfl
@[simp] theorem respond_phase (s : State) : (respond s).ctl.phase = .idle := rfl
@[simp] theorem respond_stage (s : State) : (respond s).ctl.stage = s.ctl.stage := rfl
@[simp] theorem respond_opr (s : State) : (respond s).ctl.opr = s.ctl.opr := rfl
@[simp] theorem respond_addr (s : State) : (respond s).ctl.addr = s.ctl.addr := rfl
@[simp] theorem respond_len (s : State) : (respond s).ctl.len = s.ctl.len := rfl
@[simp] theorem respond_wbuf (s : State) : (respond s).ctl.wbuf = s.ctl.wbuf := rfl
@[simp] theorem respond_frame (s : State) : (respond s).ctl.frame = s.ctl.frame := rfl
@[simp] theorem respond_slot (s : State) : (respond s).ctl.slot = s.ctl.slot := rfl
@[simp] theorem respond_rbuf (s : State) : (respond s).ctl.rbuf = s.ctl.rbuf := rfl
@[simp] theorem respond_sr (s : State) : (respond s).ctl.sr = s.ctl.sr := rfl
@[simp] theorem respond_polls (s : State) : (respond s).ctl.polls = s.ctl.polls := rfl
@[simp] theorem respond_xok (s : State) : (respond s).ctl.xok = s.ctl.xok := rfl
@[simp] theorem respond_result (s : State) : (respond s).ctl.result = s.ctl.result := rfl
@[simp] theorem respond_dev (s : State) : (respond s).dev = (deviceTurn s).dev := rfl
@[simp] theorem respond_requests (s : State) : (respond s).env.requests = s.env.requests := rfl
@[simp] theorem respond_answers (s : State) : (respond s).env.answers = s.env.answers := rfl
@[simp] theorem respond_turns (s : State) : (respond s).env.turns = s.env.turns.tail := rfl
@[simp] theorem respond_free (s : State) : (respond s).free = s.free := rfl
@[simp] theorem respond_trace (s : State) : (respond s).trace = s.trace ++ [.resp s.ctl.result s.ctl.rbuf] := rfl

/-! `beginTransaction` -/

@[simp] theorem beginTransaction_cfg (c : WireCmd) (s : State) : (beginTransaction c s).cfg = s.cfg := rfl
@[simp] theorem beginTransaction_cs (c : WireCmd) (s : State) : (beginTransaction c s).ctl.cs = .low := rfl
@[simp] theorem beginTransaction_phase (c : WireCmd) (s : State) : (beginTransaction c s).ctl.phase = .xslot := rfl
@[simp] theorem beginTransaction_stage (c : WireCmd) (s : State) : (beginTransaction c s).ctl.stage = s.ctl.stage := rfl
@[simp] theorem beginTransaction_opr (c : WireCmd) (s : State) : (beginTransaction c s).ctl.opr = s.ctl.opr := rfl
@[simp] theorem beginTransaction_addr (c : WireCmd) (s : State) : (beginTransaction c s).ctl.addr = s.ctl.addr := rfl
@[simp] theorem beginTransaction_len (c : WireCmd) (s : State) : (beginTransaction c s).ctl.len = s.ctl.len := rfl
@[simp] theorem beginTransaction_wbuf (c : WireCmd) (s : State) : (beginTransaction c s).ctl.wbuf = s.ctl.wbuf := rfl
@[simp] theorem beginTransaction_frame (c : WireCmd) (s : State) : (beginTransaction c s).ctl.frame = c.frame := rfl
@[simp] theorem beginTransaction_slot (c : WireCmd) (s : State) : (beginTransaction c s).ctl.slot = 0#32 := rfl
@[simp] theorem beginTransaction_rbuf (c : WireCmd) (s : State) : (beginTransaction c s).ctl.rbuf = s.ctl.rbuf := rfl
@[simp] theorem beginTransaction_sr (c : WireCmd) (s : State) : (beginTransaction c s).ctl.sr = s.ctl.sr := rfl
@[simp] theorem beginTransaction_polls (c : WireCmd) (s : State) : (beginTransaction c s).ctl.polls = s.ctl.polls := rfl
@[simp] theorem beginTransaction_xok (c : WireCmd) (s : State) : (beginTransaction c s).ctl.xok = true := rfl
@[simp] theorem beginTransaction_result (c : WireCmd) (s : State) : (beginTransaction c s).ctl.result = s.ctl.result := rfl
@[simp] theorem beginTransaction_dev (c : WireCmd) (s : State) : (beginTransaction c s).dev = { (deviceTurn s).dev with stream := [] } := rfl
@[simp] theorem beginTransaction_requests (c : WireCmd) (s : State) : (beginTransaction c s).env.requests = s.env.requests := rfl
@[simp] theorem beginTransaction_answers (c : WireCmd) (s : State) : (beginTransaction c s).env.answers = s.env.answers := rfl
@[simp] theorem beginTransaction_turns (c : WireCmd) (s : State) : (beginTransaction c s).env.turns = s.env.turns.tail := rfl
@[simp] theorem beginTransaction_free (c : WireCmd) (s : State) : (beginTransaction c s).free = s.free := rfl
@[simp] theorem beginTransaction_trace (c : WireCmd) (s : State) : (beginTransaction c s).trace = s.trace ++ [.csLow] := rfl

/-! `failSlot` -/

@[simp] theorem failSlot_cfg (tx : Byte) (s : State) : (failSlot tx s).cfg = s.cfg := rfl
@[simp] theorem failSlot_cs (tx : Byte) (s : State) : (failSlot tx s).ctl.cs = s.ctl.cs := rfl
@[simp] theorem failSlot_phase (tx : Byte) (s : State) : (failSlot tx s).ctl.phase = .xend := rfl
@[simp] theorem failSlot_stage (tx : Byte) (s : State) : (failSlot tx s).ctl.stage = s.ctl.stage := rfl
@[simp] theorem failSlot_opr (tx : Byte) (s : State) : (failSlot tx s).ctl.opr = s.ctl.opr := rfl
@[simp] theorem failSlot_addr (tx : Byte) (s : State) : (failSlot tx s).ctl.addr = s.ctl.addr := rfl
@[simp] theorem failSlot_len (tx : Byte) (s : State) : (failSlot tx s).ctl.len = s.ctl.len := rfl
@[simp] theorem failSlot_wbuf (tx : Byte) (s : State) : (failSlot tx s).ctl.wbuf = s.ctl.wbuf := rfl
@[simp] theorem failSlot_frame (tx : Byte) (s : State) : (failSlot tx s).ctl.frame = s.ctl.frame := rfl
@[simp] theorem failSlot_slot (tx : Byte) (s : State) : (failSlot tx s).ctl.slot = s.ctl.slot := rfl
@[simp] theorem failSlot_rbuf (tx : Byte) (s : State) : (failSlot tx s).ctl.rbuf = s.ctl.rbuf := rfl
@[simp] theorem failSlot_sr (tx : Byte) (s : State) : (failSlot tx s).ctl.sr = s.ctl.sr := rfl
@[simp] theorem failSlot_polls (tx : Byte) (s : State) : (failSlot tx s).ctl.polls = s.ctl.polls := rfl
@[simp] theorem failSlot_xok (tx : Byte) (s : State) : (failSlot tx s).ctl.xok = false := rfl
@[simp] theorem failSlot_result (tx : Byte) (s : State) : (failSlot tx s).ctl.result = s.ctl.result := rfl
@[simp] theorem failSlot_dev (tx : Byte) (s : State) : (failSlot tx s).dev = s.dev := rfl
@[simp] theorem failSlot_requests (tx : Byte) (s : State) : (failSlot tx s).env.requests = s.env.requests := rfl
@[simp] theorem failSlot_answers (tx : Byte) (s : State) : (failSlot tx s).env.answers = s.env.answers.tail := rfl
@[simp] theorem failSlot_turns (tx : Byte) (s : State) : (failSlot tx s).env.turns = s.env.turns := rfl
@[simp] theorem failSlot_free (tx : Byte) (s : State) : (failSlot tx s).free = s.free := rfl
@[simp] theorem failSlot_trace (tx : Byte) (s : State) : (failSlot tx s).trace = s.trace ++ [.xfail tx] := rfl

/-! `releaseSelect` -/

@[simp] theorem releaseSelect_cfg (s : State) : (releaseSelect s).cfg = s.cfg := rfl
@[simp] theorem releaseSelect_cs (s : State) : (releaseSelect s).ctl.cs = .high := rfl
@[simp] theorem releaseSelect_phase (s : State) : (releaseSelect s).ctl.phase = s.ctl.phase := rfl
@[simp] theorem releaseSelect_stage (s : State) : (releaseSelect s).ctl.stage = s.ctl.stage := rfl
@[simp] theorem releaseSelect_opr (s : State) : (releaseSelect s).ctl.opr = s.ctl.opr := rfl
@[simp] theorem releaseSelect_addr (s : State) : (releaseSelect s).ctl.addr = s.ctl.addr := rfl
@[simp] theorem releaseSelect_len (s : State) : (releaseSelect s).ctl.len = s.ctl.len := rfl
@[simp] theorem releaseSelect_wbuf (s : State) : (releaseSelect s).ctl.wbuf = s.ctl.wbuf := rfl
@[simp] theorem releaseSelect_frame (s : State) : (releaseSelect s).ctl.frame = s.ctl.frame := rfl
@[simp] theorem releaseSelect_slot (s : State) : (releaseSelect s).ctl.slot = s.ctl.slot := rfl
@[simp] theorem releaseSelect_rbuf (s : State) : (releaseSelect s).ctl.rbuf = s.ctl.rbuf := rfl
@[simp] theorem releaseSelect_sr (s : State) : (releaseSelect s).ctl.sr = s.ctl.sr := rfl
@[simp] theorem releaseSelect_polls (s : State) : (releaseSelect s).ctl.polls = s.ctl.polls := rfl
@[simp] theorem releaseSelect_xok (s : State) : (releaseSelect s).ctl.xok = s.ctl.xok := rfl
@[simp] theorem releaseSelect_result (s : State) : (releaseSelect s).ctl.result = s.ctl.result := rfl
@[simp] theorem releaseSelect_dev (s : State) : (releaseSelect s).dev = s.dev.released s.cfg s.free s.ctl.xok := rfl
@[simp] theorem releaseSelect_env (s : State) : (releaseSelect s).env = s.env := rfl
@[simp] theorem releaseSelect_free (s : State) : (releaseSelect s).free = s.free + 1 := rfl
@[simp] theorem releaseSelect_trace (s : State) : (releaseSelect s).trace = s.trace ++ [.csHigh] := rfl

/-! `settleDelay` -/

@[simp] theorem settleDelay_cfg (s : State) : (settleDelay s).cfg = s.cfg := rfl
@[simp] theorem settleDelay_cs (s : State) : (settleDelay s).ctl.cs = s.ctl.cs := rfl
@[simp] theorem settleDelay_phase (s : State) : (settleDelay s).ctl.phase = .xbegin := rfl
@[simp] theorem settleDelay_stage (s : State) : (settleDelay s).ctl.stage = .cmd := rfl
@[simp] theorem settleDelay_opr (s : State) : (settleDelay s).ctl.opr = s.ctl.opr := rfl
@[simp] theorem settleDelay_addr (s : State) : (settleDelay s).ctl.addr = s.ctl.addr := rfl
@[simp] theorem settleDelay_len (s : State) : (settleDelay s).ctl.len = s.ctl.len := rfl
@[simp] theorem settleDelay_wbuf (s : State) : (settleDelay s).ctl.wbuf = s.ctl.wbuf := rfl
@[simp] theorem settleDelay_frame (s : State) : (settleDelay s).ctl.frame = s.ctl.frame := rfl
@[simp] theorem settleDelay_slot (s : State) : (settleDelay s).ctl.slot = s.ctl.slot := rfl
@[simp] theorem settleDelay_rbuf (s : State) : (settleDelay s).ctl.rbuf = s.ctl.rbuf := rfl
@[simp] theorem settleDelay_sr (s : State) : (settleDelay s).ctl.sr = s.ctl.sr := rfl
@[simp] theorem settleDelay_polls (s : State) : (settleDelay s).ctl.polls = s.ctl.polls := rfl
@[simp] theorem settleDelay_xok (s : State) : (settleDelay s).ctl.xok = s.ctl.xok := rfl
@[simp] theorem settleDelay_result (s : State) : (settleDelay s).ctl.result = s.ctl.result := rfl
@[simp] theorem settleDelay_dev (s : State) : (settleDelay s).dev = (deviceTurn s).dev := rfl
@[simp] theorem settleDelay_requests (s : State) : (settleDelay s).env.requests = s.env.requests := rfl
@[simp] theorem settleDelay_answers (s : State) : (settleDelay s).env.answers = s.env.answers := rfl
@[simp] theorem settleDelay_turns (s : State) : (settleDelay s).env.turns = s.env.turns.tail := rfl
@[simp] theorem settleDelay_free (s : State) : (settleDelay s).free = s.free := rfl
@[simp] theorem settleDelay_trace (s : State) : (settleDelay s).trace = s.trace ++ [.delay .settle] := rfl

/-! `pollDelay` -/

@[simp] theorem pollDelay_cfg (s : State) : (pollDelay s).cfg = s.cfg := rfl
@[simp] theorem pollDelay_cs (s : State) : (pollDelay s).ctl.cs = s.ctl.cs := rfl
@[simp] theorem pollDelay_phase (s : State) : (pollDelay s).ctl.phase = .xbegin := rfl
@[simp] theorem pollDelay_stage (s : State) : (pollDelay s).ctl.stage = s.ctl.stage := rfl
@[simp] theorem pollDelay_opr (s : State) : (pollDelay s).ctl.opr = s.ctl.opr := rfl
@[simp] theorem pollDelay_addr (s : State) : (pollDelay s).ctl.addr = s.ctl.addr := rfl
@[simp] theorem pollDelay_len (s : State) : (pollDelay s).ctl.len = s.ctl.len := rfl
@[simp] theorem pollDelay_wbuf (s : State) : (pollDelay s).ctl.wbuf = s.ctl.wbuf := rfl
@[simp] theorem pollDelay_frame (s : State) : (pollDelay s).ctl.frame = s.ctl.frame := rfl
@[simp] theorem pollDelay_slot (s : State) : (pollDelay s).ctl.slot = s.ctl.slot := rfl
@[simp] theorem pollDelay_rbuf (s : State) : (pollDelay s).ctl.rbuf = s.ctl.rbuf := rfl
@[simp] theorem pollDelay_sr (s : State) : (pollDelay s).ctl.sr = s.ctl.sr := rfl
@[simp] theorem pollDelay_polls (s : State) : (pollDelay s).ctl.polls = s.ctl.polls := rfl
@[simp] theorem pollDelay_xok (s : State) : (pollDelay s).ctl.xok = s.ctl.xok := rfl
@[simp] theorem pollDelay_result (s : State) : (pollDelay s).ctl.result = s.ctl.result := rfl
@[simp] theorem pollDelay_dev (s : State) : (pollDelay s).dev = (deviceTurn s).dev := rfl
@[simp] theorem pollDelay_requests (s : State) : (pollDelay s).env.requests = s.env.requests := rfl
@[simp] theorem pollDelay_answers (s : State) : (pollDelay s).env.answers = s.env.answers := rfl
@[simp] theorem pollDelay_turns (s : State) : (pollDelay s).env.turns = s.env.turns.tail := rfl
@[simp] theorem pollDelay_free (s : State) : (pollDelay s).free = s.free := rfl
@[simp] theorem pollDelay_trace (s : State) : (pollDelay s).trace = s.trace ++ [.delay .poll] := rfl

/-! `capture` touches `RBUF` and `SR` only. -/

@[simp] theorem capture_cs (sl : Slot) (rx : Byte) (r : Regs) : (capture sl rx r).cs = r.cs := by
 unfold capture; split <;> rfl
@[simp] theorem capture_phase (sl : Slot) (rx : Byte) (r : Regs) : (capture sl rx r).phase = r.phase := by
 unfold capture; split <;> rfl
@[simp] theorem capture_stage (sl : Slot) (rx : Byte) (r : Regs) : (capture sl rx r).stage = r.stage := by
 unfold capture; split <;> rfl
@[simp] theorem capture_opr (sl : Slot) (rx : Byte) (r : Regs) : (capture sl rx r).opr = r.opr := by
 unfold capture; split <;> rfl
@[simp] theorem capture_addr (sl : Slot) (rx : Byte) (r : Regs) : (capture sl rx r).addr = r.addr := by
 unfold capture; split <;> rfl
@[simp] theorem capture_len (sl : Slot) (rx : Byte) (r : Regs) : (capture sl rx r).len = r.len := by
 unfold capture; split <;> rfl
@[simp] theorem capture_wbuf (sl : Slot) (rx : Byte) (r : Regs) : (capture sl rx r).wbuf = r.wbuf := by
 unfold capture; split <;> rfl
@[simp] theorem capture_frame (sl : Slot) (rx : Byte) (r : Regs) : (capture sl rx r).frame = r.frame := by
 unfold capture; split <;> rfl
@[simp] theorem capture_slot (sl : Slot) (rx : Byte) (r : Regs) : (capture sl rx r).slot = r.slot := by
 unfold capture; split <;> rfl
@[simp] theorem capture_polls (sl : Slot) (rx : Byte) (r : Regs) : (capture sl rx r).polls = r.polls := by
 unfold capture; split <;> rfl
@[simp] theorem capture_xok (sl : Slot) (rx : Byte) (r : Regs) : (capture sl rx r).xok = r.xok := by
 unfold capture; split <;> rfl
@[simp] theorem capture_result (sl : Slot) (rx : Byte) (r : Regs) : (capture sl rx r).result = r.result := by
 unfold capture; split <;> rfl

/-! `doneSlot` -/

@[simp] theorem doneSlot_cfg (sl : Slot) (last : Bool) (tx rx : Byte) (s : State) : (doneSlot sl last tx rx s).cfg = s.cfg := rfl
@[simp] theorem doneSlot_cs (sl : Slot) (last : Bool) (tx rx : Byte) (s : State) : (doneSlot sl last tx rx s).ctl.cs = s.ctl.cs :=
 capture_cs sl rx s.ctl
@[simp] theorem doneSlot_phase (sl : Slot) (last : Bool) (tx rx : Byte) (s : State) : (doneSlot sl last tx rx s).ctl.phase = if last then .xend else .xslot := rfl
@[simp] theorem doneSlot_stage (sl : Slot) (last : Bool) (tx rx : Byte) (s : State) : (doneSlot sl last tx rx s).ctl.stage = s.ctl.stage :=
 capture_stage sl rx s.ctl
@[simp] theorem doneSlot_opr (sl : Slot) (last : Bool) (tx rx : Byte) (s : State) : (doneSlot sl last tx rx s).ctl.opr = s.ctl.opr :=
 capture_opr sl rx s.ctl
@[simp] theorem doneSlot_addr (sl : Slot) (last : Bool) (tx rx : Byte) (s : State) : (doneSlot sl last tx rx s).ctl.addr = s.ctl.addr :=
 capture_addr sl rx s.ctl
@[simp] theorem doneSlot_len (sl : Slot) (last : Bool) (tx rx : Byte) (s : State) : (doneSlot sl last tx rx s).ctl.len = s.ctl.len :=
 capture_len sl rx s.ctl
@[simp] theorem doneSlot_wbuf (sl : Slot) (last : Bool) (tx rx : Byte) (s : State) : (doneSlot sl last tx rx s).ctl.wbuf = s.ctl.wbuf :=
 capture_wbuf sl rx s.ctl
@[simp] theorem doneSlot_frame (sl : Slot) (last : Bool) (tx rx : Byte) (s : State) : (doneSlot sl last tx rx s).ctl.frame = s.ctl.frame :=
 capture_frame sl rx s.ctl
@[simp] theorem doneSlot_slot (sl : Slot) (last : Bool) (tx rx : Byte) (s : State) : (doneSlot sl last tx rx s).ctl.slot = s.ctl.slot + 1#32 := rfl
@[simp] theorem doneSlot_rbuf (sl : Slot) (last : Bool) (tx rx : Byte) (s : State) : (doneSlot sl last tx rx s).ctl.rbuf = (capture sl rx s.ctl).rbuf := rfl
@[simp] theorem doneSlot_sr (sl : Slot) (last : Bool) (tx rx : Byte) (s : State) : (doneSlot sl last tx rx s).ctl.sr = (capture sl rx s.ctl).sr := rfl
@[simp] theorem doneSlot_polls (sl : Slot) (last : Bool) (tx rx : Byte) (s : State) : (doneSlot sl last tx rx s).ctl.polls = s.ctl.polls :=
 capture_polls sl rx s.ctl
@[simp] theorem doneSlot_xok (sl : Slot) (last : Bool) (tx rx : Byte) (s : State) : (doneSlot sl last tx rx s).ctl.xok = s.ctl.xok :=
 capture_xok sl rx s.ctl
@[simp] theorem doneSlot_result (sl : Slot) (last : Bool) (tx rx : Byte) (s : State) : (doneSlot sl last tx rx s).ctl.result = s.ctl.result :=
 capture_result sl rx s.ctl
@[simp] theorem doneSlot_dev (sl : Slot) (last : Bool) (tx rx : Byte) (s : State) : (doneSlot sl last tx rx s).dev = { s.dev with stream := s.dev.stream ++ [tx] } := rfl
@[simp] theorem doneSlot_requests (sl : Slot) (last : Bool) (tx rx : Byte) (s : State) : (doneSlot sl last tx rx s).env.requests = s.env.requests := rfl
@[simp] theorem doneSlot_answers (sl : Slot) (last : Bool) (tx rx : Byte) (s : State) : (doneSlot sl last tx rx s).env.answers = s.env.answers.tail := rfl
@[simp] theorem doneSlot_turns (sl : Slot) (last : Bool) (tx rx : Byte) (s : State) : (doneSlot sl last tx rx s).env.turns = s.env.turns := rfl
@[simp] theorem doneSlot_free (sl : Slot) (last : Bool) (tx rx : Byte) (s : State) : (doneSlot sl last tx rx s).free = s.free + 1 := rfl
@[simp] theorem doneSlot_trace (sl : Slot) (last : Bool) (tx rx : Byte) (s : State) : (doneSlot sl last tx rx s).trace = s.trace ++ [.x tx rx] := rfl

end Sys2Proof.Machine
end

