-- ==== Sys2Proof/Laws/Transaction.lean ====
section
/-! SUPPORT. What a slot, the body of a transaction and a whole transaction can do: the inversion lemmas, the registers
they leave alone, the shape of the events they append, and the exact result when the transport does not fail. -/

namespace Sys2Proof.Machine

/-! ### Sequencing -/

@[simp] theorem andThen_next (s : State) (f : State → Out) : andThen (.next s) f = f s := rfl
@[simp] theorem andThen_fault (r : Fault) (f : State → Out) : andThen (.fault r) f = .fault r := rfl
@[simp] theorem andThen_refused (r : Refusal) (f : State → Out) : andThen (.refused r) f = .refused r := rfl

theorem andThen_eq_next {o : Out} {f : State → Out} {t : State} :
    andThen o f = .next t ↔ ∃ s, o = .next s ∧ f s = .next t := by
  cases o <;> simp

theorem andThen_eq_fault {o : Out} {f : State → Out} {r : Fault} :
    andThen o f = .fault r ↔ o = .fault r ∨ ∃ s, o = .next s ∧ f s = .fault r := by
  cases o <;> simp

theorem andThen_assoc (o : Out) (f g : State → Out) :
    andThen (andThen o f) g = andThen o fun s => andThen (f s) g := by
  cases o <;> rfl

/-! ### The device's turn -/

theorem deviceTurn_of_idle {s : State} (h : s.dev.busy = false) : (deviceTurn s).dev = s.dev := by
  simp [deviceTurn_dev, completesNow, h]

@[simp] theorem deviceTurn_stream (s : State) : (deviceTurn s).dev.stream = s.dev.stream := by
  rw [deviceTurn_dev]; split <;> rfl

theorem deviceTurn_busy_of {s : State} (h : (deviceTurn s).dev.busy = true) :
    (deviceTurn s).dev = s.dev ∧ s.dev.busy = true := by
  rw [deviceTurn_dev] at h ⊢
  split at h
  · cases h
  · rename_i hc; simp [hc, h]

theorem Device.refuses_later {d : Device} (h : d.stream ≠ []) (tx : Byte) : d.refuses tx = none := by
  unfold Device.refuses
  split
  · contradiction
  · rfl

theorem Device.refuses_opcode {d : Device} (op : WireOp) (h : d.busy = false ∨ op = .rdsr) :
    d.refuses op.opcode = none := by
  unfold Device.refuses
  split
  · rw [WireOp.ofOpcode_opcode]
    cases op <;> simp_all
  · rfl

/-! ### One slot -/

/-- Everything a slot can do when it goes on: a failed exchange, or a complete one. -/
theorem runSlot_cases {sl : Slot} {last : Bool} {s t : State} (h : runSlot sl last s = .next t) :
    (nextAnswer s = .fail ∧ t = failSlot (Slot.tx s.cfg sl) (deviceTurn s)) ∨
    (nextAnswer s = .ok ∧ (deviceTurn s).dev.refuses (Slot.tx s.cfg sl) = none ∧
      t = doneSlot sl last (Slot.tx s.cfg sl) ((deviceTurn s).dev.answer s.cfg (Config.freeByte s.free)) (deviceTurn s)) := by
  unfold runSlot at h
  simp only [deviceTurn_cfg, deviceTurn_free] at h
  have hn : nextAnswer (deviceTurn s) = nextAnswer s := rfl
  rw [hn] at h
  cases ha : nextAnswer s with
  | fail => simp [ha] at h; exact .inl ⟨rfl, h.symm⟩
  | ok =>
    simp only [ha] at h
    cases hr : (deviceTurn s).dev.refuses (Slot.tx s.cfg sl) with
    | some w => simp [hr] at h
    | none => simp [hr] at h; exact .inr ⟨rfl, rfl, h.symm⟩

theorem runSlot_not_fault (sl : Slot) (last : Bool) (s : State) (r : Fault) : runSlot sl last s ≠ .fault r := by
  unfold runSlot
  simp only
  split
  · simp
  · split <;> simp

/-- A slot whose exchange succeeds. -/
theorem runSlot_ok {sl : Slot} {last : Bool} {s : State} (ha : nextAnswer s = .ok)
    (hr : (deviceTurn s).dev.refuses (Slot.tx s.cfg sl) = none) :
    runSlot sl last s =
      .next (doneSlot sl last (Slot.tx s.cfg sl) ((deviceTurn s).dev.answer s.cfg (Config.freeByte s.free))
        (deviceTurn s)) := by
  have hn : nextAnswer (deviceTurn s) = nextAnswer s := rfl
  simp [runSlot, hn, ha, hr]

/-- A slot whose exchange fails. -/
theorem runSlot_fail {sl : Slot} {last : Bool} {s : State} (ha : nextAnswer s = .fail) :
    runSlot sl last s = .next (failSlot (Slot.tx s.cfg sl) (deviceTurn s)) := by
  have hn : nextAnswer (deviceTurn s) = nextAnswer s := rfl
  simp [runSlot, hn, ha]

/-! ### The body of a transaction -/

/-- What every slot keeps, the body keeps. -/
theorem runSlots_induct {P : State → Prop}
    (hslot : ∀ sl last s t, P s → runSlot sl last s = .next t → P t) {slots : List Slot} {s t : State}
    (hs : P s) (h : runSlots slots s = .next t) : P t := by
  induction slots generalizing s with
  | nil => cases h; exact hs
  | cons sl rest ih =>
    obtain ⟨s', h1, h2⟩ := andThen_eq_next.1 h
    have hs' := hslot _ _ _ _ hs h1
    cases hx : s'.ctl.xok
    · simp [hx] at h2; exact h2 ▸ hs'
    · simp only [hx, if_true] at h2; exact ih hs' h2

theorem runSlots_not_fault (slots : List Slot) (s : State) (r : Fault) : runSlots slots s ≠ .fault r := by
  induction slots generalizing s with
  | nil => simp [runSlots]
  | cons sl rest ih =>
    intro h
    rcases andThen_eq_fault.1 h with h | ⟨s', -, h⟩
    · exact runSlot_not_fault _ _ _ _ h
    · split at h
      · exact ih _ h
      · cases h

/-- The registers and inputs no slot touches. -/
def SlotFrame (s t : State) : Prop :=
  t.cfg = s.cfg ∧ t.ctl.cs = s.ctl.cs ∧ t.ctl.stage = s.ctl.stage ∧ t.ctl.opr = s.ctl.opr ∧
  t.ctl.addr = s.ctl.addr ∧ t.ctl.len = s.ctl.len ∧ t.ctl.wbuf = s.ctl.wbuf ∧ t.ctl.frame = s.ctl.frame ∧
  t.ctl.polls = s.ctl.polls ∧ t.ctl.result = s.ctl.result ∧ t.env.requests = s.env.requests

theorem runSlot_frame {sl : Slot} {last : Bool} {s t : State} (h : runSlot sl last s = .next t) : SlotFrame s t := by
  rcases runSlot_cases h with ⟨-, rfl⟩ | ⟨-, -, rfl⟩ <;> simp [SlotFrame]

theorem runSlots_frame {slots : List Slot} {s t : State} (h : runSlots slots s = .next t) : SlotFrame s t := by
  refine runSlots_induct (P := SlotFrame s) ?_ ?_ h
  · intro sl last u v hu hv
    have := runSlot_frame hv
    unfold SlotFrame at *
    grind
  · simp [SlotFrame]

/-- The events of a body that sends the bytes `tx`, up to and with the first failure (R132, R134). -/
def Body (tx : List Byte) (ok : Bool) (events : List Event) : Prop :=
  if ok then ∃ rx : List Byte, rx.length = tx.length ∧ events = List.zipWith Event.x tx rx
  else ∃ (k : Nat) (b : Byte) (rx : List Byte), tx[k]? = some b ∧ rx.length = k ∧
    events = List.zipWith Event.x (tx.take k) rx ++ [.xfail b]

theorem runSlots_trace {slots : List Slot} {s t : State} (hx : s.ctl.xok = true) (h : runSlots slots s = .next t) :
    ∃ events, t.trace = s.trace ++ events ∧ Body (slots.map (Slot.tx s.cfg)) t.ctl.xok events := by
  induction slots generalizing s with
  | nil => cases h; exact ⟨[], by simp, by simp [Body, hx]⟩
  | cons sl rest ih =>
    obtain ⟨s', h1, h2⟩ := andThen_eq_next.1 h
    rcases runSlot_cases h1 with ⟨-, rfl⟩ | ⟨-, -, rfl⟩
    · simp only [failSlot_xok, Bool.false_eq_true, if_false, Host.Outcome.next.injEq] at h2
      subst h2
      refine ⟨[.xfail (Slot.tx s.cfg sl)], by simp, ?_⟩
      simp only [failSlot_xok, Body, Bool.false_eq_true, if_false]
      exact ⟨0, Slot.tx s.cfg sl, [], by simp, rfl, by simp⟩
    · simp only [doneSlot_xok, deviceTurn_ctl, hx, if_true] at h2
      obtain ⟨events, h3, h4⟩ := ih (by simp [hx]) h2
      refine ⟨.x (Slot.tx s.cfg sl) _ :: events, by rw [h3]; simp; rfl, ?_⟩
      simp only [doneSlot_cfg, deviceTurn_cfg] at h4
      cases ht : t.ctl.xok
      · rw [ht] at h4
        simp only [Body, Bool.false_eq_true, if_false] at h4 ⊢
        obtain ⟨k, b, rx, h5, h6, h7⟩ := h4
        exact ⟨k + 1, b, _ :: rx, by simpa using h5, by simp [h6], by rw [h7]; rfl⟩
      · rw [ht] at h4
        simp only [Body, if_true] at h4 ⊢
        obtain ⟨rx, h6, h7⟩ := h4
        exact ⟨_ :: rx, by simp [h6], by rw [h7]; rfl⟩

/-- After a body that has at least one slot the next phase is `XEND`. -/
theorem runSlots_phase {slots : List Slot} {s t : State} (hx : s.ctl.xok = true) (hne : slots ≠ [])
    (h : runSlots slots s = .next t) : t.ctl.phase = .xend := by
  induction slots generalizing s with
  | nil => contradiction
  | cons sl rest ih =>
    obtain ⟨s', h1, h2⟩ := andThen_eq_next.1 h
    rcases runSlot_cases h1 with ⟨-, rfl⟩ | ⟨-, -, rfl⟩
    · simp at h2; simp [← h2]
    · simp only [doneSlot_xok, deviceTurn_ctl, hx, if_true] at h2
      cases rest with
      | nil => simp [runSlots] at h2; simp [← h2]
      | cons _ _ => exact ih (by simp [hx]) (by simp) h2

/-! ### The whole transaction -/

theorem layout_ne_nil (op : WireOp) (c : WireCmd) (s : State) : layout op (beginTransaction c s) ≠ [] := by
  simp [layout, WireCmd.frame_bytes]

/-- A transaction that goes on: BEGIN, a body, END. -/
theorem transact_cases {c : WireCmd} {s t : State} (h : transact c s = .next t) :
    ∃ u, runSlots (layout c.op (beginTransaction c s)) (beginTransaction c s) = .next u ∧ t = endTransaction u := by
  obtain ⟨u, h1, h2⟩ := andThen_eq_next.1 h
  exact ⟨u, h1, by simpa using h2.symm⟩

theorem transact_not_fault (c : WireCmd) (s : State) (r : Fault) : transact c s ≠ .fault r := by
  intro h
  rcases andThen_eq_fault.1 h with h | ⟨u, -, h⟩
  · exact runSlots_not_fault _ _ _ h
  · cases h

/-- What END changes: `CS`, `PHASE`, `STAGE`, `POLLS`, `RESULT`, the device, the inputs' turns, one event. -/
theorem endTransaction_frame (s : State) :
    (endTransaction s).cfg = s.cfg ∧ (endTransaction s).ctl.cs = .high ∧ (endTransaction s).ctl.opr = s.ctl.opr ∧
    (endTransaction s).ctl.addr = s.ctl.addr ∧ (endTransaction s).ctl.len = s.ctl.len ∧
    (endTransaction s).ctl.wbuf = s.ctl.wbuf ∧ (endTransaction s).ctl.frame = s.ctl.frame ∧
    (endTransaction s).ctl.slot = s.ctl.slot ∧ (endTransaction s).ctl.rbuf = s.ctl.rbuf ∧
    (endTransaction s).ctl.sr = s.ctl.sr ∧ (endTransaction s).ctl.xok = s.ctl.xok ∧
    (endTransaction s).env.requests = s.env.requests ∧ (endTransaction s).env.answers = s.env.answers ∧
    (endTransaction s).env.turns = s.env.turns.tail ∧ (endTransaction s).free = s.free + 1 ∧
    (endTransaction s).dev = (deviceTurn s).dev.released s.cfg s.free s.ctl.xok ∧
    (endTransaction s).trace = s.trace ++ [.csHigh] := by
  unfold endTransaction afterEnd
  cases hx : s.ctl.xok
  · simp [hx]
  · cases hg : s.ctl.stage
    · simp [hx, hg]
    · cases hw : writeClass s.ctl.opr <;> simp [hx, hg, hw]
    · simp only [releaseSelect_xok, deviceTurn_ctl, hx, releaseSelect_stage, hg]
      simp only [Bool.not_true, Bool.false_eq_true, if_false]
      split <;> simp [hx]

theorem endTransaction_trace (s : State) : (endTransaction s).trace = s.trace ++ [.csHigh] := by
  simp [endTransaction_frame]

/-- The phase, stage, counter and result after END (R208 rows T6, T7, T9, T10, T11). -/
theorem endTransaction_successor (s : State) :
    (s.ctl.xok = false ∧ (endTransaction s).ctl.phase = .done ∧ (endTransaction s).ctl.result = .busFault ∧
      (endTransaction s).ctl.stage = s.ctl.stage ∧ (endTransaction s).ctl.polls = s.ctl.polls) ∨
    (s.ctl.xok = true ∧ s.ctl.stage = .gate ∧ (endTransaction s).ctl.phase = .settle ∧
      (endTransaction s).ctl.result = s.ctl.result ∧ (endTransaction s).ctl.stage = .gate ∧
      (endTransaction s).ctl.polls = s.ctl.polls) ∨
    (s.ctl.xok = true ∧ s.ctl.stage = .cmd ∧ writeClass s.ctl.opr = false ∧ (endTransaction s).ctl.phase = .done ∧
      (endTransaction s).ctl.result = .ok ∧ (endTransaction s).ctl.stage = .cmd ∧
      (endTransaction s).ctl.polls = s.ctl.polls) ∨
    (s.ctl.xok = true ∧ s.ctl.stage = .cmd ∧ writeClass s.ctl.opr = true ∧ (endTransaction s).ctl.phase = .xbegin ∧
      (endTransaction s).ctl.result = s.ctl.result ∧ (endTransaction s).ctl.stage = .poll ∧
      (endTransaction s).ctl.polls = 0) ∨
    (s.ctl.xok = true ∧ s.ctl.stage = .poll ∧ (endTransaction s).ctl.stage = .poll ∧
      (endTransaction s).ctl.polls = s.ctl.polls + 1 ∧
      match pollVerdict s.cfg s.ctl.sr (s.ctl.polls + 1) with
      | some r => (endTransaction s).ctl.phase = .done ∧ (endTransaction s).ctl.result = r
      | none => (endTransaction s).ctl.phase = .pollwait ∧ (endTransaction s).ctl.result = s.ctl.result) := by
  unfold endTransaction afterEnd
  cases hx : s.ctl.xok
  · simp [hx]
  · cases hg : s.ctl.stage
    · simp [hx, hg]
    · cases hw : writeClass s.ctl.opr <;> simp [hx, hg, hw]
    · simp only [releaseSelect_xok, deviceTurn_ctl, hx, releaseSelect_stage, hg, releaseSelect_polls,
        releaseSelect_cfg, deviceTurn_cfg, releaseSelect_sr]
      cases hv : pollVerdict s.cfg s.ctl.sr (s.ctl.polls + 1) <;> simp

/-- What a transaction leaves alone. -/
theorem transact_frame {c : WireCmd} {s t : State} (h : transact c s = .next t) :
    t.cfg = s.cfg ∧ t.ctl.cs = .high ∧ t.ctl.opr = s.ctl.opr ∧ t.ctl.addr = s.ctl.addr ∧ t.ctl.len = s.ctl.len ∧
    t.ctl.wbuf = s.ctl.wbuf ∧ t.ctl.frame = c.frame ∧ t.env.requests = s.env.requests := by
  obtain ⟨u, h1, rfl⟩ := transact_cases h
  have hf := runSlots_frame h1
  have he := endTransaction_frame u
  simp only [SlotFrame, beginTransaction_cfg, beginTransaction_opr, beginTransaction_addr, beginTransaction_len,
    beginTransaction_wbuf, beginTransaction_frame, beginTransaction_requests] at hf
  grind

/-- The events of a transaction: `CS_LOW`, a body that sends the bytes of its layout, `CS_HIGH` (R131, R133, R134). -/
theorem transact_trace {c : WireCmd} {s t : State} (h : transact c s = .next t) :
    ∃ events, t.trace = s.trace ++ .csLow :: (events ++ [.csHigh]) ∧
      Body ((layout c.op (beginTransaction c s)).map (Slot.tx s.cfg)) t.ctl.xok events := by
  obtain ⟨u, h1, rfl⟩ := transact_cases h
  obtain ⟨events, h2, h3⟩ := runSlots_trace (by simp) h1
  refine ⟨events, ?_, ?_⟩
  · rw [endTransaction_trace, h2]; simp
  · rw [(endTransaction_frame u).2.2.2.2.2.2.2.2.2.2.1]; simpa using h3

/-- The successor of a transaction, by its stage. -/
theorem transact_successor {c : WireCmd} {s t : State} (h : transact c s = .next t) :
    (t.ctl.xok = false ∧ t.ctl.phase = .done ∧ t.ctl.result = .busFault ∧ t.ctl.stage = s.ctl.stage ∧
      t.ctl.polls = s.ctl.polls) ∨
    (t.ctl.xok = true ∧ s.ctl.stage = .gate ∧ t.ctl.phase = .settle ∧ t.ctl.result = s.ctl.result ∧
      t.ctl.stage = .gate ∧ t.ctl.polls = s.ctl.polls) ∨
    (t.ctl.xok = true ∧ s.ctl.stage = .cmd ∧ writeClass s.ctl.opr = false ∧ t.ctl.phase = .done ∧
      t.ctl.result = .ok ∧ t.ctl.stage = .cmd ∧ t.ctl.polls = s.ctl.polls) ∨
    (t.ctl.xok = true ∧ s.ctl.stage = .cmd ∧ writeClass s.ctl.opr = true ∧ t.ctl.phase = .xbegin ∧
      t.ctl.result = s.ctl.result ∧ t.ctl.stage = .poll ∧ t.ctl.polls = 0) ∨
    (t.ctl.xok = true ∧ s.ctl.stage = .poll ∧ t.ctl.stage = .poll ∧ t.ctl.polls = s.ctl.polls + 1 ∧
      match pollVerdict s.cfg t.ctl.sr (s.ctl.polls + 1) with
      | some r => t.ctl.phase = .done ∧ t.ctl.result = r
      | none => t.ctl.phase = .pollwait ∧ t.ctl.result = s.ctl.result) := by
  obtain ⟨u, h1, rfl⟩ := transact_cases h
  obtain ⟨hcfg, -, hst, hop, -, -, -, -, hpo, hre, -⟩ := runSlots_frame h1
  have hf := endTransaction_frame u
  have := endTransaction_successor u
  simp only [beginTransaction_cfg, beginTransaction_stage, beginTransaction_opr, beginTransaction_polls,
    beginTransaction_result] at hcfg hst hop hpo hre
  rw [hcfg, hst, hop, hpo, hre] at this
  rw [hf.2.2.2.2.2.2.2.2.2.2.1, hf.2.2.2.2.2.2.2.2.2.1]
  exact this

/-- What every row of a transaction keeps, the transaction keeps. -/
theorem transact_induct {P : State → Prop} (hbegin : ∀ c s, P s → P (beginTransaction c s))
    (hslot : ∀ sl last s t, P s → runSlot sl last s = .next t → P t) (hend : ∀ s, P s → P (endTransaction s))
    {c : WireCmd} {s t : State} (hs : P s) (h : transact c s = .next t) : P t := by
  obtain ⟨u, h1, rfl⟩ := transact_cases h
  exact hend u (runSlots_induct hslot (hbegin c s hs) h1)

end Sys2Proof.Machine
end

