-- ==== Sys2Proof/Laws/HostOps.lean ====
section
/-! SUPPORT. The host operations: what acceptance leaves, the parts an operation is made of, and what each part keeps the
whole operation keeps. -/

namespace Sys2Proof.Machine

/-! ### Acceptance -/

/-- A length that fits the container is held exactly (R26). -/
theorem lenContainer_toNat {n : Nat} (h : n < 2 ^ 32) : (lenContainer n).toNat = n := by
  rw [lenContainer, if_pos h, BitVec.toNat_ofNat, Nat.mod_eq_of_lt h]

@[simp] theorem lenContainer_word (w : Word) : lenContainer w.toNat = w := by
  simp [lenContainer, w.isLt]

theorem validate_cases (cfg : Cfg) (op : HostOp) (addr : Word) (len : Nat) :
    validate cfg op addr len = .ok ∨ validate cfg op addr len = .invalidAddress ∨
      validate cfg op addr len = .invalidLength := by
  unfold validate
  split
  · simp
  · split <;> simp

theorem validate_eq_ok {cfg : Cfg} {op : HostOp} {addr : Word} {len : Nat} :
    validate cfg op addr len = .ok ↔ addressInvalid cfg op addr len = false ∧ lengthInvalid cfg op len = false := by
  unfold validate
  cases addressInvalid cfg op addr len <;> cases lengthInvalid cfg op len <;> simp

/-- A valid request of an address-bearing command has an address of 24 bits (R27). -/
theorem addressFits_of_valid {cfg : Cfg} {op : HostOp} {addr : Word} {len : Nat} (h : validate cfg op addr len = .ok)
    (hb : (commandOf op).addressBearing = true) : addressFits addr = true := by
  have := (validate_eq_ok.1 h).1
  cases op <;> simp_all [addressInvalid, commandOf, WireOp.addressBearing]

/-- A valid request's length is in `LEN` as it is: PROGRAM's is a page, the others' comes in 32 bits. -/
theorem lenContainer_of_valid {cfg : Cfg} {op : HostOp} {q : Operands} (hL : cfg.Legal)
    (h : validate cfg op q.addr (latchedLen op q) = .ok) :
    (lenContainer (latchedLen op q)).toNat = latchedLen op q := by
  have hl := (validate_eq_ok.1 h).2
  cases op <;> simp only [latchedLen, lenContainer_word]
  simp only [lengthInvalid, latchedLen, ne_eq, decide_not, Bool.not_eq_eq_eq_not, Bool.not_false, decide_eq_true_eq,
    hL.1] at hl
  exact lenContainer_toNat (by omega)

/-- What acceptance writes whatever validation says (R195). -/
theorem acceptRequest_frame (op : HostOp) (q : Operands) (s : State) :
    (acceptRequest op q s).cfg = s.cfg ∧ (acceptRequest op q s).ctl.cs = s.ctl.cs ∧
    (acceptRequest op q s).ctl.opr = op ∧ (acceptRequest op q s).ctl.addr = q.addr ∧
    (acceptRequest op q s).ctl.len = lenContainer (latchedLen op q) ∧ (acceptRequest op q s).ctl.wbuf = q.wbuf ∧
    (acceptRequest op q s).ctl.frame = s.ctl.frame ∧ (acceptRequest op q s).ctl.slot = s.ctl.slot ∧
    (acceptRequest op q s).ctl.rbuf = [] ∧ (acceptRequest op q s).ctl.sr = s.ctl.sr ∧
    (acceptRequest op q s).ctl.polls = s.ctl.polls ∧ (acceptRequest op q s).ctl.xok = s.ctl.xok ∧
    (acceptRequest op q s).dev = (deviceTurn s).dev ∧
    (acceptRequest op q s).env.requests = s.env.requests ∧ (acceptRequest op q s).env.answers = s.env.answers ∧
    (acceptRequest op q s).env.turns = s.env.turns.tail ∧ (acceptRequest op q s).free = s.free ∧
    (acceptRequest op q s).trace = s.trace ++ [.req op q.addr q.len q.wbuf] := by
  unfold acceptRequest
  simp only [emit_cfg, deviceTurn_cfg]
  cases validate s.cfg op q.addr (latchedLen op q) <;> simp

/-- The phase, stage and result after acceptance (R195, R208 row T1). -/
theorem acceptRequest_successor (op : HostOp) (q : Operands) (s : State) :
    (validate s.cfg op q.addr (latchedLen op q) = .ok ∧ (acceptRequest op q s).ctl.phase = .xbegin ∧
      (acceptRequest op q s).ctl.stage = (if writeClass op then .gate else .cmd) ∧
      (acceptRequest op q s).ctl.result = s.ctl.result) ∨
    (validate s.cfg op q.addr (latchedLen op q) ≠ .ok ∧ (acceptRequest op q s).ctl.phase = .done ∧
      (acceptRequest op q s).ctl.stage = s.ctl.stage ∧
      (acceptRequest op q s).ctl.result = validate s.cfg op q.addr (latchedLen op q)) := by
  unfold acceptRequest
  simp only [emit_cfg, deviceTurn_cfg]
  cases validate s.cfg op q.addr (latchedLen op q) <;> simp

@[simp] theorem acceptRequest_cfg (op : HostOp) (q : Operands) (s : State) :
    (acceptRequest op q s).cfg = s.cfg := (acceptRequest_frame op q s).1
@[simp] theorem acceptRequest_cs (op : HostOp) (q : Operands) (s : State) :
    (acceptRequest op q s).ctl.cs = s.ctl.cs := (acceptRequest_frame op q s).2.1
@[simp] theorem acceptRequest_opr (op : HostOp) (q : Operands) (s : State) :
    (acceptRequest op q s).ctl.opr = op := (acceptRequest_frame op q s).2.2.1
@[simp] theorem acceptRequest_addr (op : HostOp) (q : Operands) (s : State) :
    (acceptRequest op q s).ctl.addr = q.addr := (acceptRequest_frame op q s).2.2.2.1
@[simp] theorem acceptRequest_len (op : HostOp) (q : Operands) (s : State) :
    (acceptRequest op q s).ctl.len = lenContainer (latchedLen op q) := (acceptRequest_frame op q s).2.2.2.2.1
@[simp] theorem acceptRequest_wbuf (op : HostOp) (q : Operands) (s : State) :
    (acceptRequest op q s).ctl.wbuf = q.wbuf := (acceptRequest_frame op q s).2.2.2.2.2.1
@[simp] theorem acceptRequest_rbuf (op : HostOp) (q : Operands) (s : State) :
    (acceptRequest op q s).ctl.rbuf = [] := (acceptRequest_frame op q s).2.2.2.2.2.2.2.2.1
@[simp] theorem acceptRequest_sr (op : HostOp) (q : Operands) (s : State) :
    (acceptRequest op q s).ctl.sr = s.ctl.sr := (acceptRequest_frame op q s).2.2.2.2.2.2.2.2.2.1
@[simp] theorem acceptRequest_polls (op : HostOp) (q : Operands) (s : State) :
    (acceptRequest op q s).ctl.polls = s.ctl.polls := (acceptRequest_frame op q s).2.2.2.2.2.2.2.2.2.2.1
@[simp] theorem acceptRequest_dev (op : HostOp) (q : Operands) (s : State) :
    (acceptRequest op q s).dev = (deviceTurn s).dev := (acceptRequest_frame op q s).2.2.2.2.2.2.2.2.2.2.2.2.1
@[simp] theorem acceptRequest_requests (op : HostOp) (q : Operands) (s : State) :
    (acceptRequest op q s).env.requests = s.env.requests := (acceptRequest_frame op q s).2.2.2.2.2.2.2.2.2.2.2.2.2.1
@[simp] theorem acceptRequest_answers (op : HostOp) (q : Operands) (s : State) :
    (acceptRequest op q s).env.answers = s.env.answers := (acceptRequest_frame op q s).2.2.2.2.2.2.2.2.2.2.2.2.2.2.1
@[simp] theorem acceptRequest_turns (op : HostOp) (q : Operands) (s : State) :
    (acceptRequest op q s).env.turns = s.env.turns.tail := (acceptRequest_frame op q s).2.2.2.2.2.2.2.2.2.2.2.2.2.2.2.1
@[simp] theorem acceptRequest_free (op : HostOp) (q : Operands) (s : State) :
    (acceptRequest op q s).free = s.free := (acceptRequest_frame op q s).2.2.2.2.2.2.2.2.2.2.2.2.2.2.2.2.1
@[simp] theorem acceptRequest_trace (op : HostOp) (q : Operands) (s : State) :
    (acceptRequest op q s).trace = s.trace ++ [.req op q.addr q.len q.wbuf] :=
  (acceptRequest_frame op q s).2.2.2.2.2.2.2.2.2.2.2.2.2.2.2.2.2

theorem acceptRequest_valid {op : HostOp} {q : Operands} {s : State}
    (h : validate s.cfg op q.addr (latchedLen op q) = .ok) :
    (acceptRequest op q s).ctl.phase = .xbegin ∧
      (acceptRequest op q s).ctl.stage = (if writeClass op then .gate else .cmd) := by
  rcases acceptRequest_successor op q s with h' | h'
  · exact ⟨h'.2.1, h'.2.2.1⟩
  · exact absurd h h'.1

theorem acceptRequest_invalid {op : HostOp} {q : Operands} {s : State}
    (h : validate s.cfg op q.addr (latchedLen op q) ≠ .ok) :
    (acceptRequest op q s).ctl.phase = .done ∧
      (acceptRequest op q s).ctl.result = validate s.cfg op q.addr (latchedLen op q) := by
  rcases acceptRequest_successor op q s with h' | h'
  · exact absurd h'.1 h
  · exact ⟨h'.2.1, h'.2.2.2⟩

/-! ### The parts of an operation -/

theorem inPhase_of {p : Phase} {f : State → Out} {s : State} (h : s.ctl.phase = p) : inPhase p f s = f s := by
  simp [inPhase, h]

theorem inPhase_of_ne {p : Phase} {f : State → Out} {s : State} (h : s.ctl.phase ≠ p) : inPhase p f s = .next s := by
  simp [inPhase, h]

theorem inPhase_cases {p : Phase} {f : State → Out} {s t : State} (h : inPhase p f s = .next t) :
    (s.ctl.phase = p ∧ f s = .next t) ∨ (s.ctl.phase ≠ p ∧ t = s) := by
  unfold inPhase at h
  split at h
  · exact .inl ⟨‹_›, h⟩
  · exact .inr ⟨‹_›, by simpa using h.symm⟩

theorem response_of_done {s : State} (h : s.ctl.phase = .done) : response s = .next (respond s) := inPhase_of h

theorem response_cases {s t : State} (h : response s = .next t) :
    (s.ctl.phase = .done ∧ t = respond s) ∨ (s.ctl.phase ≠ .done ∧ t = s) := by
  rcases inPhase_cases h with ⟨h1, h2⟩ | h
  · exact .inl ⟨h1, by simpa using h2.symm⟩
  · exact .inr h

/-- The phase after a transaction. -/
theorem transact_phase {c : WireCmd} {s t : State} (h : transact c s = .next t) :
    t.ctl.phase = .done ∨ (s.ctl.stage = .gate ∧ t.ctl.phase = .settle) ∨
      (s.ctl.stage = .cmd ∧ writeClass s.ctl.opr = true ∧ t.ctl.phase = .xbegin ∧ t.ctl.stage = .poll) ∨
      (s.ctl.stage = .poll ∧ t.ctl.stage = .poll ∧ t.ctl.phase = .pollwait) := by
  rcases transact_successor h with h | h | h | h | ⟨-, hs, ht, -, h⟩
  · simp [h]
  · simp [h]
  · simp [h]
  · simp [h]
  · split at h
    · simp [h]
    · simp [h, hs, ht]

/-- A reading operation that goes on: an invalid request, or one transaction; then the response (R196 to R201). -/
theorem readingOperation_cases {op : HostOp} {w : WireOp} {q : Operands} {s t : State} (hop : writeClass op = false)
    (h : readingOperation op w q s = .next t) :
    s.ctl.phase = .idle ∧
      ((validate s.cfg op q.addr (latchedLen op q) ≠ .ok ∧ t = respond (acceptRequest op q s)) ∨
        ∃ u, validate s.cfg op q.addr (latchedLen op q) = .ok ∧
          transact (wireCmd w q.addr) (acceptRequest op q s) = .next u ∧ u.ctl.phase = .done ∧ t = respond u) := by
  unfold readingOperation at h
  split at h
  · refine ⟨‹_›, ?_⟩
    obtain ⟨u, h1, h2⟩ := andThen_eq_next.1 h
    by_cases hv : validate s.cfg op q.addr (latchedLen op q) = .ok
    · have hacc := acceptRequest_valid hv
      right
      rw [inPhase_of hacc.1] at h1
      simp only [commandTransaction, acceptRequest_addr] at h1
      have hd : u.ctl.phase = .done := by
        have := transact_phase h1
        simp_all
      rw [response_of_done hd] at h2
      exact ⟨u, hv, h1, hd, by simpa using h2.symm⟩
    · have hacc := acceptRequest_invalid hv
      left
      rw [inPhase_of_ne (by simp [hacc.1])] at h1
      cases h1
      rw [response_of_done hacc.1] at h2
      exact ⟨hv, by simpa using h2.symm⟩
  all_goals cases h

/-- The poll loop keeps what a status read and a delay keep; it ends in `DONE`, or is left before its next read
(R172). -/
theorem pollLoop_induct {P : State → Prop}
    (hread : ∀ s t, P s → s.ctl.phase = .xbegin → s.ctl.stage = .poll → transact (wireCmd .rdsr 0#32) s = .next t → P t)
    (hdelay : ∀ s, P s → s.ctl.phase = .pollwait → s.ctl.stage = .poll → P (pollDelay s)) {n : Nat} {s t : State}
    (hs : P s) (hp : s.ctl.phase = .xbegin) (hg : s.ctl.stage = .poll) (h : pollLoop n s = .next t) :
    P t ∧ (t.ctl.phase = .done ∨ t.ctl.phase = .xbegin ∧ t.ctl.stage = .poll) := by
  induction n generalizing s with
  | zero => cases h; exact ⟨hs, .inr ⟨hp, hg⟩⟩
  | succ n ih =>
    obtain ⟨u, h1, h2⟩ := andThen_eq_next.1 h
    have hu := hread s u hs hp hg h1
    rcases transact_phase h1 with hd | hd | hd | ⟨-, hst, hd⟩
    · simp only [hd, Host.Outcome.next.injEq] at h2
      subst h2
      exact ⟨hu, .inl hd⟩
    · simp [hg] at hd
    · simp [hg] at hd
    · simp only [hd] at h2
      exact ih (hdelay u hu hd hst) (by simp) (by simp [hst]) h2

/-- A write-class operation that goes on (R202, R203, R212): an invalid request; a failed gate; a failed command; or
the gate, the settle delay, the command and the poll loop; then the response, unless the loop goes on. -/
theorem writingOperation_cases {op : HostOp} {w : WireOp} {q : Operands} {s t : State} (hop : writeClass op = true)
    (h : writingOperation op w q s = .next t) :
    s.ctl.phase = .idle ∧
      ((validate s.cfg op q.addr (latchedLen op q) ≠ .ok ∧ t = respond (acceptRequest op q s)) ∨
        ∃ u, validate s.cfg op q.addr (latchedLen op q) = .ok ∧
          transact (wireCmd .wren 0#32) (acceptRequest op q s) = .next u ∧
          ((u.ctl.xok = false ∧ u.ctl.phase = .done ∧ t = respond u) ∨
            ∃ v, u.ctl.xok = true ∧ u.ctl.phase = .settle ∧ transact (wireCmd w q.addr) (settleDelay u) = .next v ∧
              ((v.ctl.xok = false ∧ v.ctl.phase = .done ∧ t = respond v) ∨
                ∃ x, v.ctl.xok = true ∧ v.ctl.phase = .xbegin ∧ v.ctl.stage = .poll ∧ v.ctl.polls = 0 ∧
                  pollLoop (pollReads v) v = .next x ∧
                  (x.ctl.phase = .done ∧ t = respond x ∨
                    x.ctl.phase = .xbegin ∧ x.ctl.stage = .poll ∧ t = x)))) := by
  unfold writingOperation at h
  split at h
  · refine ⟨‹_›, ?_⟩
    obtain ⟨u, h1, h⟩ := andThen_eq_next.1 h
    obtain ⟨v, h2, h⟩ := andThen_eq_next.1 h
    obtain ⟨x, h3, h4⟩ := andThen_eq_next.1 h
    by_cases hv : validate s.cfg op q.addr (latchedLen op q) = .ok
    · have hacc := acceptRequest_valid (s := s) hv
      right
      rw [inPhase_of hacc.1] at h1
      refine ⟨u, hv, h1, ?_⟩
      have hfr := transact_frame h1
      rw [acceptRequest_opr, acceptRequest_addr] at hfr
      rcases transact_successor h1 with hs | hs | hs | hs | hs
      · left
        rw [inPhase_of_ne (by simp [hs])] at h2
        cases h2
        rw [inPhase_of_ne (by simp [hs])] at h3
        cases h3
        rw [response_of_done hs.2.1] at h4
        exact ⟨hs.1, hs.2.1, by simpa using h4.symm⟩
      · right
        rw [inPhase_of hs.2.2.1] at h2
        simp only [commandTransaction, settleDelay_addr, hfr] at h2
        refine ⟨v, hs.1, hs.2.2.1, h2, ?_⟩
        rcases transact_successor h2 with h' | h' | h' | h' | h'
        · left
          rw [inPhase_of_ne (by simp [h'])] at h3
          cases h3
          rw [response_of_done h'.2.1] at h4
          exact ⟨h'.1, h'.2.1, by simpa using h4.symm⟩
        · simp at h'
        · simp [hfr, hop] at h'
        · right
          obtain ⟨ho, -, -, hp, -, hst, hpo⟩ := h'
          rw [inPhase_of hp] at h3
          have hx := (pollLoop_induct (P := fun _ => True) (fun _ _ _ _ _ _ => trivial) (fun _ _ _ _ => trivial)
            trivial hp hst h3).2
          refine ⟨x, ho, hp, hst, hpo, h3, ?_⟩
          rcases hx with hx | ⟨hx, hx'⟩
          · rw [response_of_done hx] at h4
            exact .inl ⟨hx, by simpa using h4.symm⟩
          · rw [response, inPhase_of_ne (by simp [hx])] at h4
            exact .inr ⟨hx, hx', by simpa using h4.symm⟩
        · simp at h'
      · simp [hacc, hop] at hs
      · simp [hacc, hop] at hs
      · simp [hacc, hop] at hs
    · have hacc := acceptRequest_invalid hv
      left
      rw [inPhase_of_ne (by simp [hacc.1])] at h1
      cases h1
      rw [inPhase_of_ne (by simp [hacc.1])] at h2
      cases h2
      rw [inPhase_of_ne (by simp [hacc.1])] at h3
      cases h3
      rw [response_of_done hacc.1] at h4
      exact ⟨hv, by simpa using h4.symm⟩
  all_goals cases h

/-- Which of the two shapes a host operation has. -/
theorem exec_hostOp (op : HostOp) (q : Operands) (s : State) :
    exec (op.instr q) s =
      if writeClass op then writingOperation op (commandOf op) q s else readingOperation op (commandOf op) q s := by
  cases op <;> rfl

/-- What acceptance, a transaction, and the two delays keep, holds when the response is delivered, and in an operation
that goes on polling. -/
theorem exec_hostOp_induct {P : State → Prop} {op : HostOp} {q : Operands} {s t : State}
    (h : exec (op.instr q) s = .next t) (haccept : P (acceptRequest op q s))
    (htransact : ∀ c s t, P s → s.ctl.phase ≠ .idle → transact c s = .next t → P t)
    (hsettle : ∀ s, P s → s.ctl.phase = .settle → P (settleDelay s))
    (hdelay : ∀ s, P s → s.ctl.phase = .pollwait → P (pollDelay s)) :
    ∃ u, P u ∧ (u.ctl.phase = .done ∧ t = respond u ∨ u.ctl.phase = .xbegin ∧ u.ctl.stage = .poll ∧ t = u) := by
  rw [exec_hostOp] at h
  have hacc : (acceptRequest op q s).ctl.phase ≠ .idle := by
    rcases acceptRequest_successor op q s with h | h <;> simp [h]
  split at h
  · rename_i hop
    obtain ⟨-, ⟨hv, rfl⟩ | ⟨u, hv, h1, h⟩⟩ := writingOperation_cases hop h
    · exact ⟨_, haccept, .inl ⟨(acceptRequest_invalid hv).1, rfl⟩⟩
    · have hu := htransact _ _ _ haccept hacc h1
      rcases h with ⟨-, hd, rfl⟩ | ⟨v, -, hd, h2, h⟩
      · exact ⟨u, hu, .inl ⟨hd, rfl⟩⟩
      · have hv := htransact _ _ _ (hsettle u hu hd) (by simp) h2
        rcases h with ⟨-, hd', rfl⟩ | ⟨x, -, hp, hst, -, h3, hx⟩
        · exact ⟨v, hv, .inl ⟨hd', rfl⟩⟩
        · exact ⟨x, (pollLoop_induct (P := P) (fun s t hs hp _ => htransact _ s t hs (by simp [hp]))
            (fun s hs hp _ => hdelay s hs hp) hv hp hst h3).1, hx⟩
  · rename_i hop
    obtain ⟨-, ⟨hv, rfl⟩ | ⟨u, hv, h1, hd, rfl⟩⟩ := readingOperation_cases (by simpa using hop) h
    · exact ⟨_, haccept, .inl ⟨(acceptRequest_invalid hv).1, rfl⟩⟩
    · exact ⟨u, htransact _ _ _ haccept hacc h1, .inl ⟨hd, rfl⟩⟩

/-- A host operation that goes on was taken in `IDLE`. -/
theorem exec_hostOp_idle {op : HostOp} {q : Operands} {s t : State} (h : exec (op.instr q) s = .next t) :
    s.ctl.phase = .idle := by
  rw [exec_hostOp] at h
  split at h
  · exact (writingOperation_cases ‹_› h).1
  · rename_i hop
    exact (readingOperation_cases (by simpa using hop) h).1

/-! ### The inputs are used up, never added to -/

/-- `t` has no input that `s` does not have, and its device is as healthy. -/
def InputsLeft (s t : State) : Prop :=
  t.env.answers <:+ s.env.answers ∧ t.env.turns <:+ s.env.turns ∧ t.dev.failed = s.dev.failed

theorem InputsLeft.refl (s : State) : InputsLeft s s := ⟨List.suffix_rfl, List.suffix_rfl, rfl⟩

theorem InputsLeft.trans {s t u : State} (h : InputsLeft s t) (h' : InputsLeft t u) : InputsLeft s u :=
  ⟨h'.1.trans h.1, h'.2.1.trans h.2.1, h'.2.2.trans h.2.2⟩

/-- A device that completes no more stays one. -/
theorem InputsLeft.neverCompletes {s t : State} (h : InputsLeft s t) (hs : NeverCompletes s) : NeverCompletes t :=
  ⟨h.2.2.trans hs.1, fun b hb => hs.2 b (h.2.1.mem hb)⟩

theorem completesNow_of_never {s : State} (h : NeverCompletes s) : completesNow s = false := by
  obtain ⟨hf, ht⟩ := h
  cases hturns : s.env.turns with
  | nil => simp [completesNow, hturns, hf]
  | cons b rest => simp [completesNow, hturns, ht b (by simp [hturns])]

/-- Nothing happens to a device in a turn that it does not take. -/
theorem deviceTurn_of_never {s : State} (h : NeverCompletes s) : (deviceTurn s).dev = s.dev := by
  simp [deviceTurn_dev, completesNow_of_never h]

theorem InputsLeft.transportOk {s t : State} (h : InputsLeft s t) (hs : TransportOk s) : TransportOk t :=
  fun x hx => hs x (h.1.mem hx)

@[simp] theorem deviceTurn_failed (s : State) : (deviceTurn s).dev.failed = s.dev.failed := by
  rw [deviceTurn_dev]; split <;> rfl

@[simp] theorem released_failed (cfg : Cfg) (n : Nat) (b : Bool) (d : Device) :
    (d.released cfg n b).failed = d.failed := by
  unfold Device.released Device.act Device.startWrite
  grind [Device.havoc]

theorem deviceTurn_inputs (s : State) : InputsLeft s (deviceTurn s) :=
  ⟨List.suffix_rfl, List.tail_suffix _, by simp⟩

theorem runSlot_inputs {sl : Slot} {last : Bool} {s t : State} (h : runSlot sl last s = .next t) : InputsLeft s t := by
  rcases runSlot_cases h with ⟨-, rfl⟩ | ⟨-, -, rfl⟩ <;>
    simp [InputsLeft, List.tail_suffix]

theorem runSlots_inputs {slots : List Slot} {s t : State} (h : runSlots slots s = .next t) : InputsLeft s t :=
  runSlots_induct (P := InputsLeft s) (fun _ _ _ _ hu hv => hu.trans (runSlot_inputs hv)) (InputsLeft.refl s) h

theorem transact_inputs {c : WireCmd} {s t : State} (h : transact c s = .next t) : InputsLeft s t := by
  refine transact_induct (P := InputsLeft s) ?_ ?_ ?_ (InputsLeft.refl s) h
  · exact fun c u hu => hu.trans ⟨by simp, by simp [List.tail_suffix], by simp⟩
  · exact fun sl last u v hu hv => hu.trans (runSlot_inputs hv)
  · intro u hu
    refine hu.trans ?_
    simp [InputsLeft, endTransaction_frame, List.tail_suffix]

theorem exec_hostOp_inputs {op : HostOp} {q : Operands} {s t : State} (h : exec (op.instr q) s = .next t) :
    InputsLeft s t := by
  obtain ⟨u, h1, ⟨-, rfl⟩ | ⟨-, -, rfl⟩⟩ := exec_hostOp_induct (P := InputsLeft s) h (by simp [InputsLeft, List.tail_suffix])
    (fun c u v hu _ hv => hu.trans (transact_inputs hv))
    (fun u hu _ => hu.trans (by simp [InputsLeft, List.tail_suffix]))
    (fun u hu _ => hu.trans (by simp [InputsLeft, List.tail_suffix]))
  · exact h1.trans (by simp [InputsLeft, List.tail_suffix])
  · exact h1

/-! ### Steps -/

/-- What decodes from a request is a host operation, with the request's operands. -/
theorem decode_request_cases {q : Request} {i : Instr} (h : decode (.request q) = .ok i) :
    ∃ op, HostOp.ofSelector q.op = some op ∧ i = op.instr q.args := by
  simp only [decode, decodeRequest] at h
  split at h
  · cases h
  · exact ⟨_, ‹_›, by simpa using h.symm⟩

/-- What decodes from bytes is a wire command, with no byte left over. -/
theorem decode_wire_cases {bytes : List Byte} {i : Instr} (h : decode (.wire bytes) = .ok i) :
    ∃ c, decodeWire bytes = .ok (c, []) ∧ i = c.instr := by
  simp only [decode] at h
  split at h
  · cases h
  · exact ⟨_, ‹_›, by simpa using h.symm⟩
  · cases h

/-- A wire command runs where a transaction is due. -/
theorem exec_wireCmd (c : WireCmd) (s : State) (h : s.ctl.phase = .xbegin) :
    exec c.instr s = transact (wireCmd c.op c.a) s := by
  obtain ⟨op, a⟩ := c
  cases op <;> simp [WireCmd.instr, exec, execRead, execPp, execSe, execRdsr, execWren, execRdid, execRdmdid, execRdsr3,
    execRdlock, wireTransaction, h, wireCmd, WireOp.addressBearing]

theorem exec_wireCmd_refused (c : WireCmd) (s : State) (h : s.ctl.phase ≠ .xbegin) :
    exec c.instr s = .refused .noTransactionDue := by
  obtain ⟨op, a⟩ := c
  cases op <;> cases hp : s.ctl.phase <;>
    simp_all [WireCmd.instr, exec, execRead, execPp, execSe, execRdsr, execWren, execRdid, execRdmdid, execRdsr3,
      execRdlock, wireTransaction]

/-- The bytes of a stage's frame decode to its command, its address cut to 24 bits. -/
theorem decode_stageFrame (r : Regs) :
    ∃ a, decode (.wire (stageCommand r).frame.bytes) = .ok (wireCmd (stageCommand r).op a).instr ∧
      (stageCommand r = wireCmd (stageCommand r).op r.addr ∨ stageCommand r = wireCmd (stageCommand r).op 0#32) ∧
      (((stageCommand r).op.addressBearing = true → addressFits r.addr = true) →
        stageCommand r = wireCmd (stageCommand r).op a) := by
  have key : ∀ op a, decode (.wire (wireCmd op a).frame.bytes) =
      .ok (wireCmd op ((a.setWidth 24).setWidth 32)).instr := by
    intro op a
    have := decodeWire_frame op a []
    rw [List.append_nil] at this
    simp [decode, this]
  unfold stageCommand
  cases r.stage
  · exact ⟨_, key _ _, .inr rfl, fun _ => rfl⟩
  · refine ⟨_, key _ _, .inl rfl, fun h => ?_⟩
    by_cases hb : (commandOf r.opr).addressBearing = true
    · rw [low24_of_fits (h hb)]; rfl
    · simp [wireCmd, hb]
  · exact ⟨_, key _ _, .inr rfl, fun _ => rfl⟩

/-- Everything a step can do when it goes on: a host operation from `IDLE`, the transaction that is due, or one row. -/
theorem step_cases {s t : State} (h : step s = .next t) :
    (∃ (op : HostOp) (q : Operands) (rest : List Request), s.ctl.phase = .idle ∧
      s.env.requests = ⟨op.selector, q⟩ :: rest ∧
      exec (op.instr q) (popRequest s) = .next t) ∨
    (∃ a, s.ctl.phase = .xbegin ∧ transact (wireCmd (stageCommand s.ctl).op a) s = .next t ∧
      (((stageCommand s.ctl).op.addressBearing = true → addressFits s.ctl.addr = true) →
        stageCommand s.ctl = wireCmd (stageCommand s.ctl).op a)) ∨
    (s.ctl.phase = .idle ∧ s.env.requests = [] ∧ t = deviceTurn s) ∨
    (s.ctl.phase ≠ .idle ∧ s.ctl.phase ≠ .xbegin ∧ tick s = .next t) := by
  unfold step fetch at h
  cases hp : s.ctl.phase
  case idle =>
    simp only [hp] at h
    cases hr : s.env.requests with
    | nil =>
      simp only [hr, tick, hp, idleRow, Host.Outcome.next.injEq] at h
      exact .inr (.inr (.inl ⟨rfl, rfl, h.symm⟩))
    | cons q rest =>
      simp only [hr] at h
      cases hd : decode (.request q) with
      | error e => simp [hd] at h
      | ok i =>
        simp only [hd, fetched, hp] at h
        obtain ⟨op, hop, rfl⟩ := decode_request_cases hd
        obtain ⟨b, args⟩ := q
        obtain rfl := HostOp.selector_of_ofSelector hop
        exact .inl ⟨op, args, rest, rfl, rfl, h⟩
  case xbegin =>
    simp only [hp] at h
    obtain ⟨a, hd, -, hfit⟩ := decode_stageFrame s.ctl
    simp only [hd, fetched, hp] at h
    rw [exec_wireCmd _ _ hp] at h
    refine .inr (.inl ⟨a, rfl, ?_, hfit⟩)
    rwa [show wireCmd (wireCmd (stageCommand s.ctl).op a).op (wireCmd (stageCommand s.ctl).op a).a =
      wireCmd (stageCommand s.ctl).op a by unfold wireCmd; split <;> rfl] at h
  all_goals
    simp only [hp] at h
    exact .inr (.inr (.inr ⟨by simp, by simp, h⟩))

end Sys2Proof.Machine
end

