-- ==== Sys2Proof/Laws/Memory.lean ====
section
/-! SUPPORT. Memory: a read after a write, what a page program and a sector erase leave in each byte, and that every
memory operation keeps the canonical form. -/

namespace Sys2Proof.Machine

variable {dflt : Byte} {size : Nat}

/-! ### Canonical form -/

theorem Memory.canonicalFrom_cons {lo k : Nat} {v : Byte} {m : Memory} :
    Memory.canonicalFrom dflt size lo ((k, v) :: m) = true ↔
      lo ≤ k ∧ k < size ∧ v ≠ dflt ∧ Memory.canonicalFrom dflt size (k + 1) m = true := by
  simp [Memory.canonicalFrom, and_assoc]

theorem Memory.canonicalFrom_mono {lo lo' : Nat} {m : Memory} (h : Memory.canonicalFrom dflt size lo m = true)
    (hl : lo' ≤ lo) : Memory.canonicalFrom dflt size lo' m = true := by
  cases m with
  | nil => rfl
  | cons c m =>
    obtain ⟨k, v⟩ := c
    rw [Memory.canonicalFrom_cons] at h ⊢
    exact ⟨by omega, h.2⟩

/-- Below its first address a canonical memory lists nothing. -/
theorem Memory.get_below {lo a : Nat} {m : Memory} (h : Memory.canonicalFrom dflt size lo m = true) (ha : a < lo) :
    Memory.get dflt m a = dflt := by
  induction m generalizing lo with
  | nil => rfl
  | cons c m ih =>
    obtain ⟨k, v⟩ := c
    rw [Memory.canonicalFrom_cons] at h
    have hk : k ≠ a := by omega
    simp [Memory.get, hk, ih h.2.2.2 (by omega)]

theorem Memory.set_canonicalFrom {lo a : Nat} {b : Byte} {m : Memory}
    (h : Memory.canonicalFrom dflt size lo m = true) (hl : lo ≤ a) (ha : a < size) :
    Memory.canonicalFrom dflt size lo (Memory.set dflt a b m) = true := by
  induction m generalizing lo with
  | nil =>
    by_cases hb : b = dflt
    · simp [Memory.set, hb, Memory.canonicalFrom]
    · simp [Memory.set, hb, Memory.canonicalFrom, hl, ha]
  | cons c m ih =>
    obtain ⟨k, v⟩ := c
    rw [Memory.canonicalFrom_cons] at h
    obtain ⟨h1, h2, h3, h4⟩ := h
    unfold Memory.set
    split
    · split
      · exact Memory.canonicalFrom_cons.2 ⟨h1, h2, h3, h4⟩
      · exact Memory.canonicalFrom_cons.2 ⟨hl, ha, ‹_›, Memory.canonicalFrom_cons.2 ⟨by omega, h2, h3, h4⟩⟩
    · split
      · subst a
        split
        · exact Memory.canonicalFrom_mono h4 (by omega)
        · exact Memory.canonicalFrom_cons.2 ⟨h1, h2, ‹_›, h4⟩
      · exact Memory.canonicalFrom_cons.2 ⟨h1, h2, h3, ih h4 (by omega)⟩

/-- A write inside the memory keeps the canonical form. -/
theorem Memory.set_wf {a : Nat} {b : Byte} {m : Memory} (h : Memory.wf dflt size m = true) (ha : a < size) :
    Memory.wf dflt size (Memory.set dflt a b m) = true :=
  Memory.set_canonicalFrom h (Nat.zero_le a) ha

/-- A page program inside the array keeps the canonical form. -/
theorem Memory.program_wf {a : Nat} {d : List Byte} {m : Memory} (h : Memory.wf erasedByte size m = true)
    (ha : a + d.length ≤ size) : Memory.wf erasedByte size (Memory.program a d m) = true := by
  induction d generalizing a m with
  | nil => exact h
  | cons x d ih =>
    simp only [List.length_cons] at ha
    exact ih (Memory.set_wf h (by omega)) (by omega)

theorem Memory.erase_canonicalFrom {lo a n : Nat} {m : Memory} (h : Memory.canonicalFrom dflt size lo m = true) :
    Memory.canonicalFrom dflt size lo (Memory.erase a n m) = true := by
  induction m generalizing lo with
  | nil => rfl
  | cons c m ih =>
    obtain ⟨k, v⟩ := c
    rw [Memory.canonicalFrom_cons] at h
    unfold Memory.erase
    rw [List.filter_cons]
    split
    · exact Memory.canonicalFrom_cons.2 ⟨h.1, h.2.1, h.2.2.1, ih h.2.2.2⟩
    · exact Memory.canonicalFrom_mono (ih h.2.2.2) (by omega)

/-- A sector erase keeps the canonical form. -/
theorem Memory.erase_wf {a n : Nat} {m : Memory} (h : Memory.wf dflt size m = true) :
    Memory.wf dflt size (Memory.erase a n m) = true :=
  Memory.erase_canonicalFrom h

theorem Memory.ofCells_from {cells : List (Nat × Byte)} {m : Memory} (h : Memory.wf erasedByte size m = true) :
    Memory.wf erasedByte size
      (cells.foldl (fun m c => if c.1 < size then Memory.set erasedByte c.1 c.2 m else m) m) = true := by
  induction cells generalizing m with
  | nil => exact h
  | cons c cells ih =>
    refine ih ?_
    show Memory.wf erasedByte size (if c.1 < size then Memory.set erasedByte c.1 c.2 m else m) = true
    split
    · exact Memory.set_wf h ‹_›
    · exact h

/-- Any cells make a canonical memory. -/
theorem Memory.ofCells_wf (cells : List (Nat × Byte)) : Memory.wf erasedByte size (Memory.ofCells size cells) = true :=
  Memory.ofCells_from rfl

/-! ### Reads and writes -/

/-- A read after a write: the byte written at its own address, the old byte everywhere else. -/
theorem Memory.get_set {lo a : Nat} {b : Byte} {m : Memory} (h : Memory.canonicalFrom dflt size lo m = true)
    (a' : Nat) : Memory.get dflt (Memory.set dflt a b m) a' = if a' = a then b else Memory.get dflt m a' := by
  induction m generalizing lo with
  | nil =>
    by_cases ha : a' = a
    · subst ha
      by_cases hb : b = dflt
      · simp [Memory.set, hb, Memory.get]
      · simp [Memory.set, hb, Memory.get]
    · have hne : a ≠ a' := fun e => ha e.symm
      by_cases hb : b = dflt
      · simp [Memory.set, hb, Memory.get, ha]
      · simp [Memory.set, hb, Memory.get, ha, hne]
  | cons c m ih =>
    obtain ⟨k, v⟩ := c
    rw [Memory.canonicalFrom_cons] at h
    obtain ⟨h1, h2, h3, h4⟩ := h
    have hbelow : ∀ x, x ≤ k → Memory.get dflt m x = dflt := fun x hx => Memory.get_below h4 (by omega)
    unfold Memory.set
    by_cases hlt : a < k
    · have hka : k ≠ a := by omega
      by_cases hb : b = dflt
      · by_cases ha : a' = a
        · subst ha; simp [hlt, hb, Memory.get, hka, hbelow a' (by omega)]
        · simp [hlt, hb, ha]
      · by_cases ha : a' = a
        · simp [hlt, hb, ha, Memory.get]
        · have : a ≠ a' := fun e => ha e.symm
          simp [hlt, hb, ha, Memory.get, this]
    · by_cases he : a = k
      · subst he
        by_cases hb : b = dflt
        · by_cases ha : a' = a
          · subst ha; simp [hb, hbelow a' (by omega)]
          · have : a ≠ a' := fun e => ha e.symm
            simp [hb, ha, Memory.get, this]
        · by_cases ha : a' = a
          · simp [hb, ha, Memory.get]
          · have : a ≠ a' := fun e => ha e.symm
            simp [hb, ha, Memory.get, this]
      · simp only [hlt, he, if_false, Memory.get, ih h4]
        by_cases hk : k = a'
        · have : a' ≠ a := by omega
          simp [hk, this]
        · simp [hk]

/-- Page program, byte by byte (R73): inside the data's range the AND of old and new, elsewhere as before. -/
theorem Memory.get_program {a : Nat} {d : List Byte} {m : Memory} (h : Memory.wf erasedByte size m = true)
    (ha : a + d.length ≤ size) (a' : Nat) :
    Memory.get erasedByte (Memory.program a d m) a' =
      if a ≤ a' ∧ a' < a + d.length then Memory.get erasedByte m a' &&& d.getD (a' - a) 0#8
      else Memory.get erasedByte m a' := by
  induction d generalizing a m with
  | nil =>
    have : ¬ (a ≤ a' ∧ a' < a + ([] : List Byte).length) := by simp
    rw [if_neg this]; rfl
  | cons x d ih =>
    simp only [List.length_cons] at ha
    rw [Memory.program, ih (Memory.set_wf h (by omega)) (by omega), Memory.get_set h]
    by_cases h1 : a' = a
    · subst h1
      simp
    · by_cases h2 : a + 1 ≤ a' ∧ a' < a + 1 + d.length
      · have h3 : a ≤ a' ∧ a' < a + (d.length + 1) := by omega
        have h4 : a' - a = (a' - (a + 1)) + 1 := by omega
        simp [h1, h2, h3, h4]
      · have h3 : ¬ (a ≤ a' ∧ a' < a + (d.length + 1)) := by omega
        rw [if_neg h1, if_neg h2, List.length_cons, if_neg h3]

/-- Sector erase, byte by byte (R74): 0xFF inside the sector, elsewhere as before. -/
theorem Memory.get_erase {a n : Nat} (m : Memory) (a' : Nat) :
    Memory.get erasedByte (Memory.erase a n m) a' =
      if a ≤ a' ∧ a' < a + n then erasedByte else Memory.get erasedByte m a' := by
  induction m with
  | nil => simp [Memory.erase, Memory.get]
  | cons c m ih =>
    obtain ⟨k, v⟩ := c
    unfold Memory.erase at ih ⊢
    rw [List.filter_cons]
    by_cases hk : k = a'
    · subst hk
      by_cases hin : a ≤ k ∧ k < a + n
      · have : ¬ (k < a ∨ a + n ≤ k) := by omega
        simp [this, ih, hin]
      · have : k < a ∨ a + n ≤ k := by omega
        simp [this, Memory.get, hin]
    · by_cases hkeep : k < a ∨ a + n ≤ k
      · simp [hkeep, Memory.get, hk, ih]
      · simp [hkeep, Memory.get, hk, ih]

@[simp] theorem Memory.read_length (m : Memory) (a n : Nat) : (Memory.read dflt m a n).length = n := by
  simp [Memory.read]

theorem Memory.read_succ (m : Memory) (a n : Nat) :
    Memory.read dflt m a (n + 1) = Memory.read dflt m a n ++ [Memory.get dflt m (a + n)] := by
  simp [Memory.read, List.range_succ]

/-! ### What completion does to the array -/

/-- A page that lies inside the device is programmed whole (R73). -/
theorem Device.applyPending_prog {cfg : Cfg} {d : Device} {a : Nat} {w : List Byte} (h : d.pending = some (.prog a w))
    (hr : a + w.length ≤ cfg.deviceSize) : d.applyPending cfg = Memory.program a w d.mem := by
  rw [Device.applyPending, h]
  simp only
  rw [List.take_of_length_le (by omega)]

theorem Device.applyPending_erase {cfg : Cfg} {d : Device} {a : Nat} (h : d.pending = some (.erase a)) :
    d.applyPending cfg = Memory.erase a cfg.sectorSize d.mem := by
  rw [Device.applyPending, h]

/-- Whatever is pending, its application keeps the canonical form. -/
theorem Device.applyPending_wf {cfg : Cfg} {d : Device} (h : Memory.wf erasedByte cfg.deviceSize d.mem = true) :
    Memory.wf erasedByte cfg.deviceSize (d.applyPending cfg) = true := by
  unfold Device.applyPending
  split
  · exact h
  · rename_i a data _
    by_cases ha : a ≤ cfg.deviceSize
    · exact Memory.program_wf h (by rw [List.length_take]; omega)
    · rw [Nat.sub_eq_zero_of_le (by omega)]
      exact h
  · exact Memory.erase_wf h

end Sys2Proof.Machine
end

