-- ==== Sys2Proof/Laws/PerInstr.lean ====
section
/-! SUPPORT. A statement about every instruction, made constructor by constructor: what an instruction's words look like
from outside (R110, R111). -/

namespace Sys2Proof.Laws.FrameLength

/-- The frame of a wire command has 4 bytes if its first byte is 0x03, 0x02, 0x20 or 0x3D and 1 byte otherwise, whatever
its operands (R110); the selector of a host operation is none of the reserved ones (R112), and any operands
are well formed (R25, R111). -/
def Statement (i : Instr) : Prop :=
  match encode i with
  | .wire bytes =>
    ∃ b rest, bytes = b :: rest ∧
      rest.length = if b = 0x03#8 ∨ b = 0x02#8 ∨ b = 0x20#8 ∨ b = 0x3D#8 then 3 else 0
  | .request q => 1 ≤ q.op.toNat ∧ q.op.toNat ≤ 8 ∧ Instr.wf i = true

/-- No host operation has a reserved selector (R111, R112). -/
theorem selector_bounds (op : HostOp) : 1 ≤ op.selector.toNat ∧ op.selector.toNat ≤ 8 := by
  cases op <;> decide

theorem read (a : Word) : Statement (.read a) := by
  simp only [Statement, encode, WireCmd.frame_bytes]
  exact ⟨0x03#8, addressBytes a, rfl, rfl⟩
theorem pp (a : Word) : Statement (.pp a) := by
  simp only [Statement, encode, WireCmd.frame_bytes]
  exact ⟨0x02#8, addressBytes a, rfl, rfl⟩
theorem se (a : Word) : Statement (.se a) := by
  simp only [Statement, encode, WireCmd.frame_bytes]
  exact ⟨0x20#8, addressBytes a, rfl, rfl⟩
theorem rdsr : Statement .rdsr := ⟨_, _, rfl, rfl⟩
theorem wren : Statement .wren := ⟨_, _, rfl, rfl⟩
theorem rdid : Statement .rdid := ⟨_, _, rfl, rfl⟩
theorem rdmdid : Statement .rdmdid := ⟨_, _, rfl, rfl⟩
theorem rdsr3 : Statement .rdsr3 := ⟨_, _, rfl, rfl⟩
theorem rdlock (a : Word) : Statement (.rdlock a) := by
  simp only [Statement, encode, WireCmd.frame_bytes]
  exact ⟨0x3D#8, addressBytes a, rfl, rfl⟩
theorem readIdJedec (q : Operands) : Statement (.readIdJedec q) := ⟨(selector_bounds _).1, (selector_bounds _).2, rfl⟩
theorem readIdLegacy (q : Operands) : Statement (.readIdLegacy q) := ⟨(selector_bounds _).1, (selector_bounds _).2, rfl⟩
theorem readStatus (q : Operands) : Statement (.readStatus q) := ⟨(selector_bounds _).1, (selector_bounds _).2, rfl⟩
theorem readStatus3 (q : Operands) : Statement (.readStatus3 q) := ⟨(selector_bounds _).1, (selector_bounds _).2, rfl⟩
theorem readLock (q : Operands) : Statement (.readLock q) := ⟨(selector_bounds _).1, (selector_bounds _).2, rfl⟩
theorem readHost (q : Operands) : Statement (.readHost q) := ⟨(selector_bounds _).1, (selector_bounds _).2, rfl⟩
theorem program (q : Operands) : Statement (.program q) := ⟨(selector_bounds _).1, (selector_bounds _).2, rfl⟩
theorem eraseSector (q : Operands) : Statement (.eraseSector q) := ⟨(selector_bounds _).1, (selector_bounds _).2, rfl⟩

end Sys2Proof.Laws.FrameLength
end

