-- ==== Sys2Proof/Laws/Quiet.lean ====
section
/-! SUPPORT. The exact result of a transaction when every exchange succeeds and the device is not busy: the bytes it
returns, the registers, the device and the events afterwards. -/

namespace Sys2Proof.Machine

/-! ### The bytes a device that is not busy returns -/

/-- The bytes returned in the slots of a layout, by a device that has received `stream`; `n` numbers the free values. -/
def received (cfg : Cfg) (d : Device) : List Byte → Nat → List Slot → List Byte
  | _, _, [] => []
  | stream, n, sl :: rest =>
    Device.answer cfg { d with stream := stream } (Config.freeByte n) ::
      received cfg d (stream ++ [Slot.tx cfg sl]) (n + 1) rest

/-- Those of them that fall in response slots. -/
def captured (cfg : Cfg) (d : Device) : List Byte → Nat → List Slot → List Byte
  | _, _, [] => []
  | stream, n, sl :: rest =>
    (match sl with
      | .r => [Device.answer cfg { d with stream := stream } (Config.freeByte n)]
      | .c _ | .d | .w _ => []) ++
      captured cfg d (stream ++ [Slot.tx cfg sl]) (n + 1) rest

@[simp] theorem received_length (cfg : Cfg) (d : Device) (stream : List Byte) (n : Nat) (slots : List Slot) :
    (received cfg d stream n slots).length = slots.length := by
  induction slots generalizing stream n with
  | nil => rfl
  | cons sl rest ih => simp [received, ih]

/-- What the device has heard before is the argument, not the field. -/
theorem received_stream (cfg : Cfg) (d : Device) (x stream : List Byte) (n : Nat) (slots : List Slot) :
    received cfg { d with stream := x } stream n slots = received cfg d stream n slots := by
  induction slots generalizing stream n with
  | nil => rfl
  | cons sl rest ih => simp only [received, ih]

theorem captured_stream (cfg : Cfg) (d : Device) (x stream : List Byte) (n : Nat) (slots : List Slot) :
    captured cfg { d with stream := x } stream n slots = captured cfg d stream n slots := by
  induction slots generalizing stream n with
  | nil => rfl
  | cons sl rest ih => simp only [captured, ih]

theorem captured_append (cfg : Cfg) (d : Device) (stream : List Byte) (n : Nat) (a b : List Slot) :
    captured cfg d stream n (a ++ b) =
      captured cfg d stream n a ++ captured cfg d (stream ++ a.map (Slot.tx cfg)) (n + a.length) b := by
  induction a generalizing stream n with
  | nil => simp [captured]
  | cons sl rest ih => simp [captured, ih, Nat.add_assoc, Nat.add_comm 1]

/-- Command and write slots capture nothing. -/
theorem captured_frame (cfg : Cfg) (d : Device) (stream : List Byte) (n : Nat) (bytes : List Byte) :
    captured cfg d stream n (bytes.map .c) = [] := by
  induction bytes generalizing stream n with
  | nil => rfl
  | cons b rest ih => simp [captured, ih]

theorem captured_payload (cfg : Cfg) (d : Device) (stream : List Byte) (n : Nat) (bytes : List Byte) :
    captured cfg d stream n (bytes.map .w) = [] := by
  induction bytes generalizing stream n with
  | nil => rfl
  | cons b rest ih => simp [captured, ih]

theorem captured_dummy (cfg : Cfg) (d : Device) (stream : List Byte) (n k : Nat) :
    captured cfg d stream n (List.replicate k .d) = [] := by
  induction k generalizing stream n with
  | zero => rfl
  | succ k ih => simp [List.replicate_succ, captured, ih]

/-- A run of response slots captures the bytes the device returns one after another. -/
theorem captured_responses (cfg : Cfg) (d : Device) (stream : List Byte) (n k : Nat) :
    captured cfg d stream n (List.replicate k .r) =
      (List.range k).map fun i =>
        Device.answer cfg { d with stream := stream ++ List.replicate i cfg.fill } (Config.freeByte (n + i)) := by
  induction k generalizing stream n with
  | zero => rfl
  | succ k ih =>
    rw [List.replicate_succ, List.range_succ_eq_map]
    simp only [captured, ih, Slot.tx, List.map_cons, List.map_map, List.singleton_append]
    congr 1
    · simp
    · refine List.map_congr_left fun i _ => ?_
      simp [List.replicate_succ, Nat.add_assoc, Nat.add_comm 1]

/-! ### The body -/

theorem TransportOk.nextAnswer {s : State} (h : TransportOk s) : nextAnswer s = .ok := by
  unfold Machine.nextAnswer
  cases ha : s.env.answers with
  | nil => rfl
  | cons x rest => exact h x (by simp [ha])

/-- The body of a transaction when no exchange fails and the device is not busy. The device hears the bytes sent and is
otherwise as before. -/
theorem runSlots_quiet {slots : List Slot} {s : State} (hx : s.ctl.xok = true) (hb : s.dev.busy = false)
    (ht : TransportOk s)
    (hopen : s.dev.stream ≠ [] ∨ ∃ (op : WireOp) (rest : List Slot), slots = .c op.opcode :: rest) :
    ∃ t, runSlots slots s = .next t ∧ t.dev = { s.dev with stream := s.dev.stream ++ slots.map (Slot.tx s.cfg) } ∧
      t.trace = s.trace ++ List.zipWith Event.x (slots.map (Slot.tx s.cfg)) (received s.cfg s.dev s.dev.stream s.free slots) ∧
      t.free = s.free + slots.length ∧ t.ctl.xok = true ∧ TransportOk t ∧
      (s.ctl.stage = .cmd →
        t.ctl.rbuf = s.ctl.rbuf ++ captured s.cfg s.dev s.dev.stream s.free slots ∧ t.ctl.sr = s.ctl.sr) ∧
      (s.ctl.stage ≠ .cmd → t.ctl.rbuf = s.ctl.rbuf) ∧ (s.ctl.stage = .gate → t.ctl.sr = s.ctl.sr) := by
  induction slots generalizing s with
  | nil => exact ⟨s, rfl, by simp, by simp [received], by simp, hx, ht, by simp [captured], by simp, by simp⟩
  | cons sl rest ih =>
    have hd : (deviceTurn s).dev = s.dev := deviceTurn_of_idle hb
    have hr : (deviceTurn s).dev.refuses (Slot.tx s.cfg sl) = none := by
      rw [hd]
      rcases hopen with h | ⟨op, rest', h⟩
      · exact Device.refuses_later h _
      · obtain ⟨rfl, -⟩ := List.cons.inj h
        exact Device.refuses_opcode op (.inl hb)
    let u := doneSlot sl rest.isEmpty (Slot.tx s.cfg sl)
      ((deviceTurn s).dev.answer s.cfg (Config.freeByte s.free)) (deviceTurn s)
    have hrun : runSlots (sl :: rest) s = runSlots rest u := by
      simp only [runSlots]
      rw [runSlot_ok ht.nextAnswer hr]
      simp only [andThen_next, doneSlot_xok, deviceTurn_ctl, hx, if_true]
      rfl
    have hut : TransportOk u := by
      intro x hmem
      simp only [u, doneSlot_answers, deviceTurn_answers] at hmem
      exact ht x (List.mem_of_mem_tail hmem)
    obtain ⟨t, h1, h2, h3, h4, h5, h6, h7, h8, h9⟩ :=
      ih (s := u) (by simp [u, hx]) (by simp [u, hd, hb]) hut (.inl (by simp [u]))
    simp only [u, doneSlot_cfg, deviceTurn_cfg, doneSlot_dev, hd, doneSlot_trace, deviceTurn_trace, doneSlot_free,
      deviceTurn_free, doneSlot_stage, deviceTurn_ctl, doneSlot_rbuf, doneSlot_sr, received_stream,
      captured_stream] at h2 h3 h4 h7 h8 h9
    refine ⟨t, hrun.trans h1, by rw [h2]; simp, ?_, by rw [h4]; simp; omega, h5, h6, ?_, ?_, ?_⟩
    · rw [h3]
      simp [received]
    · intro hs
      obtain ⟨h7, h7'⟩ := h7 hs
      constructor
      · rw [h7]
        cases sl <;> simp [capture, hs, captured]
      · rw [h7']
        cases sl <;> simp [capture, hs]
    · intro hs
      rw [h8 hs]
      cases sl <;> cases hg : s.ctl.stage <;> simp_all [capture]
    · intro hs
      rw [h9 hs]
      cases sl <;> simp [capture, hs]

/-! ### The whole transaction -/

/-- The layout of a wire command (R106) as a function of its operands. -/
def slotsOf (cfg : Cfg) (c : WireCmd) (n : Nat) (w : List Byte) : List Slot :=
  c.frame.bytes.map .c ++ layoutTail cfg c.op n w

theorem layout_begin (c : WireCmd) (s : State) :
    layout c.op (beginTransaction c s) = slotsOf s.cfg c s.ctl.len.toNat s.ctl.wbuf := by
  simp [layout, slotsOf]

theorem slotsOf_head (cfg : Cfg) (c : WireCmd) (n : Nat) (w : List Byte) :
    ∃ rest, slotsOf cfg c n w = .c c.op.opcode :: rest := by
  simp [slotsOf, WireCmd.frame_bytes]

@[simp] theorem map_tx_c (cfg : Cfg) (bytes : List Byte) : (bytes.map Slot.c).map (Slot.tx cfg) = bytes := by
  simp [Function.comp_def, Slot.tx]

@[simp] theorem map_tx_w (cfg : Cfg) (bytes : List Byte) : (bytes.map Slot.w).map (Slot.tx cfg) = bytes := by
  simp [Function.comp_def, Slot.tx]

/-- The bytes a transaction sends: the frame, then those of the tail. -/
theorem slotsOf_tx (cfg : Cfg) (c : WireCmd) (n : Nat) (w : List Byte) :
    (slotsOf cfg c n w).map (Slot.tx cfg) = c.frame.bytes ++ (layoutTail cfg c.op n w).map (Slot.tx cfg) := by
  simp only [slotsOf, List.map_append, map_tx_c]

/-- What a transaction captures: the bytes of the response slots of its tail, after the frame. -/
theorem slotsOf_captured (cfg : Cfg) (d : Device) (k : Nat) (c : WireCmd) (n : Nat) (w : List Byte) :
    captured cfg d [] k (slotsOf cfg c n w) =
      captured cfg d c.frame.bytes (k + c.frame.bytes.length) (layoutTail cfg c.op n w) := by
  rw [slotsOf, captured_append, captured_frame, map_tx_c]
  simp

theorem Exchanged.zipWith {tx rx : List Byte} (h : rx.length = tx.length) :
    Exchanged tx (.csLow :: (List.zipWith Event.x tx rx ++ [.csHigh])) :=
  ⟨rx, h, rfl⟩

/-- A transaction when no exchange fails and the device is not busy. -/
theorem transact_quiet {c : WireCmd} {s : State} (hb : s.dev.busy = false) (ht : TransportOk s) :
    ∃ t, transact c s = .next t ∧
      t.dev = Device.released s.cfg (s.free + (slotsOf s.cfg c s.ctl.len.toNat s.ctl.wbuf).length) true
        { s.dev with stream := (slotsOf s.cfg c s.ctl.len.toNat s.ctl.wbuf).map (Slot.tx s.cfg) } ∧
      (∃ body, Exchanged ((slotsOf s.cfg c s.ctl.len.toNat s.ctl.wbuf).map (Slot.tx s.cfg)) body ∧
        t.trace = s.trace ++ body) ∧
      t.ctl.xok = true ∧ TransportOk t ∧
      (s.ctl.stage = .cmd → t.ctl.rbuf = s.ctl.rbuf ++
        captured s.cfg s.dev [] s.free (slotsOf s.cfg c s.ctl.len.toNat s.ctl.wbuf) ∧ t.ctl.sr = s.ctl.sr) ∧
      (s.ctl.stage ≠ .cmd → t.ctl.rbuf = s.ctl.rbuf) ∧ (s.ctl.stage = .gate → t.ctl.sr = s.ctl.sr) := by
  have hd : (deviceTurn s).dev = s.dev := deviceTurn_of_idle hb
  obtain ⟨rest, hhead⟩ := slotsOf_head s.cfg c s.ctl.len.toNat s.ctl.wbuf
  obtain ⟨u, h1, h2, h3, h4, h5, h6, h7, h8, h9⟩ :=
    runSlots_quiet (slots := slotsOf s.cfg c s.ctl.len.toNat s.ctl.wbuf) (s := beginTransaction c s) (by simp)
      (by simp [hd, hb]) (by simpa [TransportOk] using ht) (.inr ⟨c.op, rest, hhead⟩)
  simp only [beginTransaction_cfg, beginTransaction_dev, hd, beginTransaction_trace, beginTransaction_free,
    beginTransaction_stage, beginTransaction_rbuf, beginTransaction_sr, received_stream, captured_stream,
    List.nil_append] at h2 h3 h4 h7 h8 h9
  have he := endTransaction_frame u
  have hcfg : u.cfg = s.cfg := by simpa using (runSlots_frame h1).1
  have hud : (deviceTurn u).dev = u.dev := deviceTurn_of_idle (by rw [h2]; exact hb)
  refine ⟨endTransaction u, ?_, ?_, ?_, ?_, ?_, ?_, ?_, ?_⟩
  · unfold transact
    simp only [layout_begin, h1, andThen_next]
  · rw [he.2.2.2.2.2.2.2.2.2.2.2.2.2.2.2.1, hud, hcfg, h5, h2, h4]
  · refine ⟨_, Exchanged.zipWith (rx := received s.cfg s.dev [] s.free
      (slotsOf s.cfg c s.ctl.len.toNat s.ctl.wbuf)) (by simp), ?_⟩
    rw [endTransaction_trace, h3]
    simp
  · rw [he.2.2.2.2.2.2.2.2.2.2.1, h5]
  · unfold TransportOk
    rw [he.2.2.2.2.2.2.2.2.2.2.2.2.1]
    exact h6
  · intro hs
    rw [he.2.2.2.2.2.2.2.2.1, he.2.2.2.2.2.2.2.2.2.1]
    exact h7 hs
  · intro hs
    rw [he.2.2.2.2.2.2.2.2.1]
    exact h8 hs
  · intro hs
    rw [he.2.2.2.2.2.2.2.2.2.1]
    exact h9 hs

/-! ### What the device hears and says -/

theorem wireCmd_op (op : WireOp) (a : Word) : (wireCmd op a).op = op := rfl

/-- The device's answers in the response slots of a tail, for an address that fits. -/
theorem answer_after_frame (cfg : Cfg) (d : Device) (op : WireOp) {a : Word} (h : addressFits a = true)
    (more : List Byte) (free : Byte) :
    Device.answer cfg { d with stream := (wireCmd op a).frame.bytes ++ more } free =
      match op with
      | .read => if a.toNat + more.length < cfg.deviceSize
          then Memory.get erasedByte d.mem (a.toNat + more.length) else free
      | .rdsr => if more.length = cfg.dummyRdsr then statusByte d else free
      | .rdsr3 => if more.length = cfg.dummyRdsr3 then d.sr3 else free
      | .rdlock => if more.length = cfg.dummyRdlock ∧ a.toNat < cfg.deviceSize
          then Memory.get unlockedByte d.lock a.toNat else free
      | .rdid => d.jedec.getD more.length free
      | .rdmdid => d.legacy.getD more.length free
      | .wren | .pp | .se => free := by
  unfold Device.answer
  simp only [decodeWire_frame_of_fits op h]
  cases op <;> simp [wireCmd, WireOp.addressBearing, statusByte]

/-- What a device acts on at the release, for an address that fits. -/
theorem act_after_frame (cfg : Cfg) (n : Nat) (d : Device) (op : WireOp) {a : Word} (h : addressFits a = true)
    (more : List Byte) (hs : d.stream = (wireCmd op a).frame.bytes ++ more) :
    Device.act cfg n d =
      match op with
      | .wren => if more = [] then { d with wel := true } else d.havoc cfg n
      | .pp => d.startWrite cfg n (.prog a.toNat more) a.toNat cfg.pageSize
      | .se => if more = [] then d.startWrite cfg n (.erase a.toNat) a.toNat cfg.sectorSize else d.havoc cfg n
      | .read | .rdsr | .rdid | .rdmdid | .rdsr3 | .rdlock => d := by
  unfold Device.act
  simp only [hs, decodeWire_frame_of_fits op h]
  cases op <;> simp [wireCmd, WireOp.addressBearing]

/-- A reading command leaves the device as it was, but for what it has heard. -/
theorem released_of_read (cfg : Cfg) (n : Nat) (d : Device) (op : WireOp) (a : Word) (more : List Byte)
    (hop : op ≠ .wren ∧ op ≠ .pp ∧ op ≠ .se) :
    Device.released cfg n true { d with stream := (wireCmd op a).frame.bytes ++ more } = { d with stream := [] } := by
  unfold Device.released Device.act
  simp only [if_true, decodeWire_frame]
  cases op <;> simp_all [wireCmd]

end Sys2Proof.Machine
end

