-- ==== Sys2Proof/Laws/Reading.lean ====
section
/-! SUPPORT. The reading commands and the reading host operations when every exchange succeeds and the device is not busy:
one lemma for all of them, with the bytes captured as a function of the layout. -/

namespace Sys2Proof.Machine

/-- The bytes a wire command sends, with the length and the page of the operands. -/
def sentOf (cfg : Cfg) (c : WireCmd) (n : Nat) (w : List Byte) : List Byte :=
  (slotsOf cfg c n w).map (Slot.tx cfg)

theorem sentOf_eq (cfg : Cfg) (op : WireOp) (a : Word) (n : Nat) (w : List Byte) :
    sentOf cfg (wireCmd op a) n w =
      op.opcode :: ((if op.addressBearing then addressBytes a else []) ++
        match op with
        | .wren | .se => []
        | .pp => w
        | .rdid => List.replicate cfg.jedecIdLen cfg.fill
        | .rdmdid | .read => List.replicate n cfg.fill
        | .rdsr => List.replicate cfg.dummyRdsr cfg.fill ++ [cfg.fill]
        | .rdsr3 => List.replicate cfg.dummyRdsr3 cfg.fill ++ [cfg.fill]
        | .rdlock => List.replicate cfg.dummyRdlock cfg.fill ++ [cfg.fill]) := by
  rw [sentOf, slotsOf_tx, WireCmd.frame_bytes]
  cases op <;> simp [wireCmd, WireOp.addressBearing, layoutTail, Slot.tx, Function.comp_def]

/-- What a transaction captures from a device that is not busy, for an address that fits (R78, R79). -/
theorem captured_eq (cfg : Cfg) (d : Device) (k : Nat) (op : WireOp) {a : Word} (h : addressFits a = true) (n : Nat)
    (w : List Byte) :
    ∃ free : Nat → Byte, captured cfg d [] k (slotsOf cfg (wireCmd op a) n w) =
      match op with
      | .wren | .se | .pp => []
      | .rdid => (List.range cfg.jedecIdLen).map fun i => d.jedec.getD i (free i)
      | .rdmdid => (List.range n).map fun i => d.legacy.getD i (free i)
      | .rdsr => [statusByte d]
      | .rdsr3 => [d.sr3]
      | .rdlock => [if a.toNat < cfg.deviceSize then Memory.get unlockedByte d.lock a.toNat else free 0]
      | .read => (List.range n).map fun i =>
          if a.toNat + i < cfg.deviceSize then Memory.get erasedByte d.mem (a.toNat + i) else free i := by
  rw [slotsOf_captured]
  cases op <;>
    simp only [wireCmd_op, layoutTail, captured, captured_payload, captured_append, captured_dummy, captured_responses,
      List.map_replicate, Slot.tx, List.nil_append, List.append_nil, answer_after_frame cfg d _ h,
      List.length_replicate, if_true, true_and]
  case read => exact ⟨_, rfl⟩
  case rdid => exact ⟨_, rfl⟩
  case rdmdid => exact ⟨_, rfl⟩
  case rdlock => exact ⟨fun _ => _, rfl⟩
  all_goals exact ⟨fun _ => 0#8, trivial⟩

/-- A reading command that is due (R153, R156, R158 to R161). -/
theorem transact_reading {op : WireOp} {a : Word} {s : State} (h : CommandReady s)
    (hop : op ≠ .wren ∧ op ≠ .pp ∧ op ≠ .se) :
    ∃ t body, transact (wireCmd op a) s = .next t ∧ t.trace = s.trace ++ body ∧
      Exchanged (sentOf s.cfg (wireCmd op a) s.ctl.len.toNat s.ctl.wbuf) body ∧
      t.ctl.rbuf = s.ctl.rbuf ++
        captured s.cfg s.dev [] s.free (slotsOf s.cfg (wireCmd op a) s.ctl.len.toNat s.ctl.wbuf) ∧
      t.ctl.sr = s.ctl.sr ∧ t.ctl.cs = .high ∧ t.dev = { s.dev with stream := [] } ∧ t.ctl.xok = true ∧
      WireFrame s t := by
  obtain ⟨-, hst, -, -, hb, ht⟩ := h
  obtain ⟨t, h1, h2, ⟨body, h3, h4⟩, h5, -, h6, -, -⟩ := transact_quiet (c := wireCmd op a) hb ht
  have hf := transact_frame h1
  refine ⟨t, body, h1, h4, h3, (h6 hst).1, (h6 hst).2, hf.2.1, ?_, h5, ?_⟩
  · rw [h2, slotsOf_tx, released_of_read _ _ _ _ _ _ hop]
  · exact ⟨hf.1, hf.2.2.1, hf.2.2.2.1, hf.2.2.2.2.1, hf.2.2.2.2.2.1, hf.2.2.2.2.2.2.2, by simp [h4]⟩

theorem commandOf_reading {op : HostOp} (h : writeClass op = false) :
    commandOf op ≠ .wren ∧ commandOf op ≠ .pp ∧ commandOf op ≠ .se := by
  cases op <;> simp_all [writeClass, commandOf]

theorem latchedLen_reading {op : HostOp} (h : writeClass op = false) (q : Operands) : latchedLen op q = q.len.toNat := by
  cases op <;> first | rfl | cases h

/-- A valid reading operation (R196 to R201). -/
theorem exec_reading {op : HostOp} {q : Operands} {s : State} (h : HostReady s)
    (hop : writeClass op = false) (hv : validate s.cfg op q.addr q.len.toNat = .ok) :
    ∃ t, exec (op.instr q) s = .next t ∧
      ReadingTrace s t op q (sentOf s.cfg (wireCmd (commandOf op) q.addr) q.len.toNat q.wbuf)
        (captured s.cfg s.dev [] s.free (slotsOf s.cfg (wireCmd (commandOf op) q.addr) q.len.toNat q.wbuf)) ∧
      t.ctl.rbuf = captured s.cfg s.dev [] s.free (slotsOf s.cfg (wireCmd (commandOf op) q.addr) q.len.toNat q.wbuf) ∧
      t.ctl.result = .ok ∧ AtRest t ∧ ReadingFrame s t := by
  obtain ⟨hp, hL, hS, hb, ht⟩ := h
  have hlen := latchedLen_reading hop q
  have hv' : validate s.cfg op q.addr (latchedLen op q) = .ok := by rw [hlen]; exact hv
  have hacc := acceptRequest_valid hv'
  have hdev : (acceptRequest op q s).dev = s.dev := by simp [deviceTurn_of_idle hb]
  obtain ⟨u, body, h1, h2, h3, h4, h5, h6, h7, h8, h9⟩ :=
    transact_reading (op := commandOf op) (a := q.addr) (s := acceptRequest op q s)
      ⟨hacc.1, by simpa [hop] using hacc.2, by simpa using hL, by rw [hdev]; simpa using hS, by rw [hdev]; exact hb,
        by simpa [TransportOk] using ht⟩ (commandOf_reading hop)
  simp only [acceptRequest_cfg, acceptRequest_len, hlen, lenContainer_word, acceptRequest_wbuf, acceptRequest_trace, acceptRequest_rbuf,
    List.nil_append, hdev, acceptRequest_free, acceptRequest_sr] at h2 h3 h4 h5 h7
  have hd : u.ctl.phase = .done ∧ u.ctl.result = .ok ∧ u.ctl.polls = s.ctl.polls := by
    have := transact_successor h1
    simp_all
  refine ⟨respond u, ?_, ⟨body, h3, ?_⟩, by simpa using h4, by simpa using hd.2.1, ⟨by simp, by simpa using h6⟩, ?_⟩
  · rw [exec_hostOp]
    simp only [hop, Bool.false_eq_true, if_false, readingOperation, hp]
    rw [inPhase_of hacc.1]
    simp only [commandTransaction, acceptRequest_addr, h1, andThen_next]
    exact response_of_done hd.1
  · simp [h2, h4, hd]
  · have hub : u.dev.busy = false := by rw [h7]; exact hb
    refine ⟨by simpa using h9.1, by simpa using h9.2.2.2.2.2.1, by simpa using h5, by simpa using hd.2.2, ?_⟩
    rw [respond_dev, deviceTurn_of_idle hub, h7]

end Sys2Proof.Machine
end

