-- ==== Sys2Proof/Laws/Status.lean ====
section
/-! SUPPORT. The status read and the poll loop against a device that may complete at any moment: how the device can have
changed, what the status byte says of it, and how the loop ends. -/

namespace Sys2Proof.Machine

/-! ### What the device does on its own -/

/-- Two devices that differ at most in what they have heard. -/
theorem sameBut_stream {d d' : Device} (h : { d' with stream := [] } = { d with stream := [] }) :
    d'.mem = d.mem ∧ d'.busy = d.busy ∧ d'.wel = d.wel ∧ d'.pending = d.pending ∧ d'.statusHi = d.statusHi ∧
      d'.sr3 = d.sr3 ∧ d'.lock = d.lock ∧ d'.jedec = d.jedec ∧ d'.legacy = d.legacy ∧ d'.failed = d.failed := by
  simpa only [Device.mk.injEq, and_true] using h

/-- How a device changes while only status reads, delays and idle rows happen: not at all, or it completes, once. What
it has heard is left out. -/
def Evolved (cfg : Cfg) (d d' : Device) : Prop :=
  { d' with stream := [] } = { d with stream := [] } ∨
    d.busy = true ∧ { d' with stream := [] } = { d.complete cfg with stream := [] }

theorem Evolved.refl (cfg : Cfg) (d : Device) : Evolved cfg d d := .inl rfl

theorem Evolved.of_stream {cfg : Cfg} {d d' : Device} (h : { d' with stream := [] } = { d with stream := [] }) :
    Evolved cfg d d' := .inl h

theorem Evolved.stream_right {cfg : Cfg} {d d' : Device} (x : List Byte) :
    Evolved cfg d { d' with stream := x } ↔ Evolved cfg d d' := Iff.rfl

theorem Evolved.trans {cfg : Cfg} {d d' d'' : Device} (h : Evolved cfg d d') (h' : Evolved cfg d' d'') :
    Evolved cfg d d'' := by
  rcases h with h | ⟨hb, h⟩
  · rcases h' with h' | ⟨hb', h'⟩
    · exact .inl (h'.trans h)
    · have e := sameBut_stream h
      refine .inr ⟨e.2.1 ▸ hb', h'.trans ?_⟩
      simp only [Device.complete, Device.applyPending, e]
  · rcases h' with h' | ⟨hb', -⟩
    · exact .inr ⟨hb, h'.trans h⟩
    · simp [sameBut_stream h, Device.complete] at hb'

theorem Evolved.of_idle {cfg : Cfg} {d d' : Device} (h : Evolved cfg d d') (hb : d.busy = false) :
    { d' with stream := [] } = { d with stream := [] } := by
  rcases h with h | h
  · exact h
  · simp [hb] at h

/-- A device that is still busy has not changed. -/
theorem Evolved.of_busy {cfg : Cfg} {d d' : Device} (h : Evolved cfg d d') (hb : d'.busy = true) :
    { d' with stream := [] } = { d with stream := [] } := by
  rcases h with h | ⟨-, h⟩
  · exact h
  · simp [sameBut_stream h, Device.complete] at hb

/-- What completion does not touch. -/
theorem Evolved.rest {cfg : Cfg} {d d' : Device} (h : Evolved cfg d d') :
    d'.statusHi = d.statusHi ∧ d'.sr3 = d.sr3 ∧ d'.lock = d.lock ∧ d'.jedec = d.jedec ∧ d'.legacy = d.legacy ∧
      d'.failed = d.failed := by
  rcases h with h | ⟨-, h⟩ <;> simp [sameBut_stream h, Device.complete]

/-- A device that is not busy stays so. -/
theorem Evolved.idle_right {cfg : Cfg} {d d' : Device} (h : Evolved cfg d d') (hb : d.busy = false) :
    d'.busy = false := (sameBut_stream (h.of_idle hb)).2.1.trans hb

theorem deviceTurn_evolved (s : State) : Evolved s.cfg s.dev (deviceTurn s).dev := by
  rw [deviceTurn_dev]
  split
  · rename_i h
    simp only [completesNow, Bool.and_eq_true] at h
    exact .inr ⟨h.1, rfl⟩
  · exact .refl _ _

/-- A healthy device with no schedule left completes at once (R76). -/
theorem deviceTurn_prompt {s : State} (hf : s.dev.failed = false) (ht : s.env.turns = []) :
    (deviceTurn s).dev.busy = false := by
  rw [deviceTurn_dev]
  cases hb : s.dev.busy <;> simp [completesNow, hf, ht, hb, Device.complete]

/-! ### The status byte -/

theorem isBusy_statusByte {cfg : Cfg} (h : cfg.busyMask = 0x01#8) (d : Device) :
    isBusy cfg (statusByte d) = d.busy := by
  have key : ∀ (hi : BitVec 6) (w b : Bool), ((hi ++ BitVec.ofBool w ++ BitVec.ofBool b) &&& 0x01#8 != 0#8) = b := by
    decide
  rw [isBusy, h]
  exact key _ _ _

/-! ### One status read -/

/-- The rows of a status read after BEGIN, when no exchange fails: `d` is the device as it was when the status byte was
sampled. -/
theorem runSlots_status {pre : List Slot} {s : State} (hpre : ∀ sl ∈ pre, (∃ b, sl = .c b) ∨ sl = .d)
    (hx : s.ctl.xok = true) (ht : TransportOk s)
    (hopen : s.dev.stream ≠ [] ∨ ∃ rest, pre = .c WireOp.rdsr.opcode :: rest)
    (hdec : ∃ a further, decodeWire (s.dev.stream ++ pre.map (Slot.tx s.cfg)) = .ok (⟨.rdsr, a⟩, further) ∧
      further.length = s.cfg.dummyRdsr) :
    ∃ t d, runSlots (pre ++ [.r]) s = .next t ∧ Evolved s.cfg s.dev d ∧ Evolved s.cfg d t.dev ∧ t.ctl.xok = true ∧
      TransportOk t ∧ t.dev.stream = s.dev.stream ++ (pre ++ [Slot.r]).map (Slot.tx s.cfg) ∧
      (s.env.turns = [] → s.dev.failed = false → d.busy = false) ∧
      (NeverCompletes s → s.dev.busy = true → t.dev.busy = true) ∧
      (s.ctl.stage = .cmd → t.ctl.rbuf = s.ctl.rbuf ++ [statusByte d] ∧ t.ctl.sr = s.ctl.sr) ∧
      (s.ctl.stage = .poll → t.ctl.sr = statusByte d ∧ t.ctl.rbuf = s.ctl.rbuf) := by
  induction pre generalizing s with
  | nil =>
    obtain ⟨a, further, hdec, hlen⟩ := hdec
    simp only [List.map_nil, List.append_nil] at hdec
    have hne : s.dev.stream ≠ [] := by
      rcases hopen with h | ⟨_, h⟩
      · exact h
      · cases h
    have hr : (deviceTurn s).dev.refuses (Slot.tx s.cfg .r) = none := Device.refuses_later (by simpa using hne) _
    have hans : (deviceTurn s).dev.answer s.cfg (Config.freeByte s.free) = statusByte (deviceTurn s).dev := by
      simp [Device.answer, deviceTurn_stream, hdec, hlen]
    refine ⟨doneSlot .r true (Slot.tx s.cfg .r) (statusByte (deviceTurn s).dev) (deviceTurn s), (deviceTurn s).dev, ?_,
      deviceTurn_evolved s, ?_, ?_, ?_, ?_, ?_, ?_, ?_, ?_⟩
    · simp only [List.nil_append, runSlots, runSlot_ok ht.nextAnswer hr, andThen_next, doneSlot_xok, deviceTurn_ctl, hx,
        if_true, hans]
      rfl
    · exact .of_stream rfl
    · simp [hx]
    · exact fun x hx => ht x (List.mem_of_mem_tail (by simpa using hx))
    · simp
    · exact fun h1 h2 => deviceTurn_prompt h2 h1
    · intro hn hb; simpa [deviceTurn_of_never hn] using hb
    · intro h; simp [capture, h]
    · intro h; simp [capture, h]
  | cons sl rest ih =>
    have hd := deviceTurn_evolved s
    have hr : (deviceTurn s).dev.refuses (Slot.tx s.cfg sl) = none := by
      rcases hopen with h | ⟨rest', h⟩
      · exact Device.refuses_later (by simpa using h) _
      · obtain ⟨rfl, -⟩ := List.cons.inj h
        exact Device.refuses_opcode .rdsr (.inr rfl)
    let u := doneSlot sl false (Slot.tx s.cfg sl)
      ((deviceTurn s).dev.answer s.cfg (Config.freeByte s.free)) (deviceTurn s)
    have hrun : runSlots (sl :: rest ++ [.r]) s = runSlots (rest ++ [.r]) u := by
      simp only [List.cons_append, runSlots]
      rw [runSlot_ok ht.nextAnswer hr]
      simp only [andThen_next, doneSlot_xok, deviceTurn_ctl, hx, if_true]
      congr 2
      cases rest <;> rfl
    obtain ⟨t, d, h1, h2, h3, h4, h5, h6, h7, hnv, h8, h9⟩ := ih (s := u) (fun x hx => hpre x (.tail _ hx)) (by simp [u, hx])
      (fun x hmem => ht x (List.mem_of_mem_tail (by simpa [u] using hmem))) (.inl (by simp [u]))
      (by simpa [u] using hdec)
    have hud : Evolved s.cfg s.dev u.dev := hd
    have hcap : u.ctl.rbuf = s.ctl.rbuf ∧ u.ctl.sr = s.ctl.sr := by
      rcases hpre sl (.head _) with ⟨b, rfl⟩ | rfl <;> simp [u, capture]
    have hcfg : u.cfg = s.cfg := rfl
    have hst : u.ctl.stage = s.ctl.stage := by simp [u]
    rw [hcap.1, hcap.2, hst] at h8
    rw [hcap.1, hst] at h9
    refine ⟨t, d, hrun.trans h1, hud.trans h2, h3, h4, h5, ?_, ?_, ?_, h8, h9⟩
    · rw [h6]; simp [u]
    · intro h1 h2
      exact h7 (by simp [u, h1]) (by simp [u, h2])
    · intro hn hb
      refine hnv ((deviceTurn_inputs s).neverCompletes hn) ?_
      simpa [u, deviceTurn_of_never hn] using hb

/-- A status read when no exchange fails, whatever the device is doing (R79, R170): `d` is the device as it was when the
status byte was sampled. -/
theorem transact_status {s : State} (ht : TransportOk s) :
    ∃ t d, transact (wireCmd .rdsr 0#32) s = .next t ∧ Evolved s.cfg s.dev d ∧ Evolved s.cfg d t.dev ∧
      t.ctl.xok = true ∧ TransportOk t ∧ t.dev.stream = [] ∧
      (s.env.turns = [] → s.dev.failed = false → d.busy = false) ∧
      (NeverCompletes s → s.dev.busy = true → t.dev.busy = true) ∧
      (s.ctl.stage = .cmd → t.ctl.rbuf = s.ctl.rbuf ++ [statusByte d] ∧ t.ctl.sr = s.ctl.sr) ∧
      (s.ctl.stage = .poll → t.ctl.sr = statusByte d ∧ t.ctl.rbuf = s.ctl.rbuf) ∧
      ∃ body, Exchanged (0x05#8 :: (List.replicate s.cfg.dummyRdsr s.cfg.fill ++ [s.cfg.fill])) body ∧
        t.trace = s.trace ++ body := by
  have hslots : slotsOf s.cfg (wireCmd .rdsr 0#32) s.ctl.len.toNat s.ctl.wbuf =
      (.c 0x05#8 :: List.replicate s.cfg.dummyRdsr .d) ++ [.r] := rfl
  have htx : (slotsOf s.cfg (wireCmd .rdsr 0#32) s.ctl.len.toNat s.ctl.wbuf).map (Slot.tx s.cfg) =
      0x05#8 :: (List.replicate s.cfg.dummyRdsr s.cfg.fill ++ [s.cfg.fill]) := by
    rw [hslots]; simp [Slot.tx]
  obtain ⟨u, d, h1, h2, h3, h4, h5, h6, h7, hnv, h8, h9⟩ :=
    runSlots_status (pre := .c 0x05#8 :: List.replicate s.cfg.dummyRdsr .d)
      (s := beginTransaction (wireCmd .rdsr 0#32) s)
      (by
        intro sl hsl
        rcases List.mem_cons.1 hsl with rfl | hsl
        · exact .inl ⟨_, rfl⟩
        · exact .inr (List.eq_of_mem_replicate hsl))
      (by simp) (by simpa [TransportOk] using ht) (.inr ⟨_, rfl⟩)
      ⟨0#32, List.replicate s.cfg.dummyRdsr s.cfg.fill, by
        simp [decodeWire, WireOp.ofOpcode, WireOp.addressBearing, Slot.tx], by simp⟩
  simp only [beginTransaction_cfg] at h2 h3
  rw [← hslots] at h1 h6
  have hrun : transact (wireCmd .rdsr 0#32) s = .next (endTransaction u) := by
    unfold transact
    simp only [layout_begin, h1, andThen_next]
  have he := endTransaction_frame u
  have hucfg : u.cfg = s.cfg := by simpa using (runSlots_frame h1).1
  have hbegin : Evolved s.cfg s.dev (beginTransaction (wireCmd .rdsr 0#32) s).dev := deviceTurn_evolved s
  have hend : (endTransaction u).dev = { (deviceTurn u).dev with stream := [] } := by
    rw [he.2.2.2.2.2.2.2.2.2.2.2.2.2.2.2.1, h4]
    have hstream : (deviceTurn u).dev.stream = (wireCmd .rdsr 0#32).frame.bytes ++
        (List.replicate s.cfg.dummyRdsr s.cfg.fill ++ [s.cfg.fill]) := by
      rw [deviceTurn_stream, h6, beginTransaction_cfg, htx]
      rfl
    have := released_of_read u.cfg u.free (deviceTurn u).dev .rdsr 0#32
      (List.replicate s.cfg.dummyRdsr s.cfg.fill ++ [s.cfg.fill]) (by simp)
    rw [← hstream] at this
    exact this
  refine ⟨endTransaction u, d, hrun, hbegin.trans h2, ?_, ?_, ?_, by rw [hend], ?_, ?_, ?_, ?_, ?_⟩
  · rw [hend, Evolved.stream_right]
    exact h3.trans (hucfg ▸ deviceTurn_evolved u)
  · rw [he.2.2.2.2.2.2.2.2.2.2.1]; exact h4
  · unfold TransportOk
    rw [he.2.2.2.2.2.2.2.2.2.2.2.2.1]
    exact h5
  · intro ha hb
    exact h7 (by simp [ha]) (by simp [hb])
  · intro hn hb
    have hturn := (deviceTurn_inputs s).neverCompletes hn
    have hu : u.dev.busy = true := hnv hturn (by simpa [beginTransaction_dev, deviceTurn_of_never hn] using hb)
    have hnu : NeverCompletes u := (runSlots_inputs h1).neverCompletes hturn
    rw [hend, deviceTurn_of_never hnu]
    exact hu
  · intro hs
    rw [he.2.2.2.2.2.2.2.2.1, he.2.2.2.2.2.2.2.2.2.1]
    exact h8 (by simpa using hs)
  · intro hs
    rw [he.2.2.2.2.2.2.2.2.1, he.2.2.2.2.2.2.2.2.2.1]
    exact h9 (by simpa using hs)
  · obtain ⟨events, h10, h11⟩ := transact_trace hrun
    rw [he.2.2.2.2.2.2.2.2.2.2.1, h4, layout_begin, htx] at h11
    simp only [Body, if_true] at h11
    obtain ⟨rx, h12, rfl⟩ := h11
    exact ⟨_, Exchanged.zipWith h12, h10⟩

/-! ### The poll loop -/

/-- What the loop leaves, when no exchange fails: the device has at most completed; after `OK` it is not busy; after
`FlashTimeout` the budget is used up; a device that never completes is still busy. -/
def Polled (s t : State) : Prop :=
  t.cfg = s.cfg ∧ t.ctl.cs = .high ∧ t.ctl.phase = .done ∧ t.env.requests = s.env.requests ∧ TransportOk t ∧
  t.ctl.rbuf = s.ctl.rbuf ∧ Evolved s.cfg s.dev t.dev ∧ s.trace <+: t.trace ∧
  (NeverCompletes s → s.dev.busy = true → t.dev.busy = true) ∧
  (t.ctl.result = .ok ∧ t.dev.busy = false ∨
    t.ctl.result = .flashTimeout ∧ s.cfg.pollMax = some t.ctl.polls ∧
      (s.dev.failed = false → s.env.turns ≠ []))

/-- One status read of the loop, when no exchange fails. -/
theorem pollRead_cases {s : State} (ht : TransportOk s) (hg : s.ctl.stage = .poll) (hm : s.cfg.busyMask = 0x01#8) :
    ∃ t, transact (wireCmd .rdsr 0#32) s = .next t ∧ t.cfg = s.cfg ∧ t.ctl.cs = .high ∧
      t.env.requests = s.env.requests ∧ TransportOk t ∧ t.ctl.rbuf = s.ctl.rbuf ∧ Evolved s.cfg s.dev t.dev ∧
      s.trace <+: t.trace ∧ t.ctl.stage = .poll ∧ t.ctl.polls = s.ctl.polls + 1 ∧
      (s.env.turns = [] → s.dev.failed = false → t.ctl.phase = .done ∧ t.ctl.result = .ok) ∧
      (NeverCompletes s → s.dev.busy = true → t.dev.busy = true) ∧
      (t.ctl.phase = .done ∧ t.ctl.result = .ok ∧ t.dev.busy = false ∨
        s.dev.busy = true ∧ t.ctl.phase = .done ∧ t.ctl.result = .flashTimeout ∧
          (∃ n, s.cfg.pollMax = some n ∧ n ≤ s.ctl.polls + 1) ∨
        s.dev.busy = true ∧ t.ctl.phase = .pollwait ∧ ∀ n, s.cfg.pollMax = some n → s.ctl.polls + 1 < n) := by
  obtain ⟨t, d, h1, h2, h3, h4, h5, h6, h7, hnv, h8, h9, ⟨body, -, h10⟩⟩ := transact_status ht
  have hf := transact_frame h1
  obtain ⟨h9, h9'⟩ := h9 hg
  rcases transact_successor h1 with hs | hs | hs | hs | ⟨-, -, hst, hpo, hverdict⟩
  · simp [h4] at hs
  · simp [hg] at hs
  · simp [hg] at hs
  · simp [hg] at hs
  refine ⟨t, h1, hf.1, hf.2.1, hf.2.2.2.2.2.2.2, h5, h9', h2.trans h3, by simp [h10], hst, hpo, ?_, hnv, ?_⟩
  · intro ha hb
    have hd := h7 ha hb
    rw [h9, pollVerdict, isBusy_statusByte hm, hd] at hverdict
    simpa using hverdict
  · rw [h9, pollVerdict, isBusy_statusByte hm] at hverdict
    cases hd : d.busy
    · left
      rw [hd] at hverdict
      exact ⟨by simpa using hverdict.1, by simpa using hverdict.2, h3.idle_right hd⟩
    · right
      have hsb : s.dev.busy = true := by
        cases hsb : s.dev.busy
        · simp [h2.idle_right hsb] at hd
        · rfl
      rw [hd] at hverdict
      simp only [Bool.not_true, Bool.false_eq_true, if_false] at hverdict
      cases hp : s.cfg.pollMax with
      | none =>
        rw [hp] at hverdict
        exact .inr ⟨hsb, hverdict.1, by simp⟩
      | some n =>
        simp only [hp] at hverdict
        split at hverdict
        · rename_i r hr
          split at hr
          · cases hr
            exact .inl ⟨hsb, hverdict.1, hverdict.2, n, rfl, ‹_›⟩
          · cases hr
        · rename_i hr
          split at hr
          · cases hr
          · exact .inr ⟨hsb, hverdict.1, by simp; omega⟩

/-- With enough reads allowed the poll loop ends (R172, R179). -/
theorem pollLoop_ends {n : Nat} {s : State} (ht : TransportOk s) (hg : s.ctl.stage = .poll) (hp : s.ctl.phase = .xbegin)
    (hm : s.cfg.busyMask = 0x01#8)
    (hn : (∃ m, s.cfg.pollMax = some m ∧ s.ctl.polls < m ∧ m ≤ s.ctl.polls + n) ∨
      s.cfg.pollMax = none ∧ s.dev.failed = false ∧ s.env.turns.length < n) :
    ∃ t, pollLoop n s = .next t ∧ Polled s t := by
  induction n generalizing s with
  | zero => omega
  | succ n ih =>
    obtain ⟨u, h1, hcfg, hcs, hreq, hok, hrb, hev, htr, hst, hpo, hprompt, hnv, hcase⟩ := pollRead_cases ht hg hm
    have hin := transact_inputs h1
    simp only [pollLoop, h1, andThen_next]
    rcases hcase with ⟨hd, hr, hb⟩ | ⟨-, hd, hr, m, hm1, hm2⟩ | ⟨-, hd, hlt⟩
    · rw [hd]
      exact ⟨u, rfl, hcfg, hcs, hd, hreq, hok, hrb, hev, htr, hnv, .inl ⟨hr, hb⟩⟩
    · rw [hd]
      refine ⟨u, rfl, hcfg, hcs, hd, hreq, hok, hrb, hev, htr, hnv, .inr ⟨hr, ?_, ?_⟩⟩
      · rcases hn with ⟨m', h2, h3, h4⟩ | ⟨h2, -⟩
        · simp only [hm1, Option.some.injEq] at h2
          subst h2
          rw [hm1, hpo]
          congr 1
          omega
        · simp [h2] at hm1
      · intro hf htn
        have := hprompt htn hf
        simp [hr] at this
    · rw [hd]
      have hturn : s.env.turns ≠ [] ∨ s.dev.failed = true := by
        cases hf : s.dev.failed
        · left
          intro htn
          have := hprompt htn hf
          simp [hd] at this
        · exact .inr rfl
      have hlen : u.env.turns.tail.length ≤ s.env.turns.length - 1 := by
        have := hin.2.1.length_le
        simp only [List.length_tail]
        omega
      have hev' : Evolved s.cfg s.dev (pollDelay u).dev := by
        rw [pollDelay_dev]
        exact hev.trans (hcfg ▸ deviceTurn_evolved u)
      obtain ⟨t, h2, a1, a2, a3, a4, a5, a6, a7, a8, anv, a9⟩ := ih (s := pollDelay u) (by simpa [TransportOk] using hok)
        (by simpa using hst) (by simp) (by simpa [hcfg] using hm) (by
          rcases hn with ⟨m, h2, h3, h4⟩ | ⟨h2, h3, h4⟩
          · exact .inl ⟨m, by simpa [hcfg] using h2, by simpa [hpo] using hlt m h2, by simp [hpo]; omega⟩
          · refine .inr ⟨by simpa [hcfg] using h2, by rw [hev'.rest.2.2.2.2.2]; exact h3, ?_⟩
            have : s.env.turns ≠ [] := by simpa [h3] using hturn
            have := List.length_pos_of_ne_nil this
            simp only [pollDelay_turns]
            omega)
      refine ⟨t, h2, by simpa [hcfg] using a1, a2, a3, by simpa [hreq] using a4, a5, by simpa [hrb] using a6, ?_, ?_, ?_, ?_⟩
      · rw [pollDelay_cfg, hcfg] at a7
        exact hev'.trans a7
      · exact htr.trans (.trans (by simp) a8)
      · intro hn hb
        have hnu := hin.neverCompletes hn
        refine anv ((deviceTurn_inputs u).neverCompletes hnu) ?_
        rw [pollDelay_dev, deviceTurn_of_never hnu]
        exact hnv hn hb
      · rcases a9 with a9 | ⟨a9, a10, a11⟩
        · exact .inl a9
        · refine .inr ⟨a9, by simpa [hcfg] using a10, fun hf => ?_⟩
          simpa [hf] using hturn

/-- Without a budget, against a busy device that never completes, the loop goes on: after any number of reads the next
one is due and nothing has happened to the device (R174, vector B3.8). -/
theorem pollLoop_goes_on {n : Nat} {s : State} (ht : TransportOk s) (hg : s.ctl.stage = .poll) (hp : s.ctl.phase = .xbegin)
    (hm : s.cfg.busyMask = 0x01#8) (hnone : s.cfg.pollMax = none) (hf : NeverCompletes s) (hb : s.dev.busy = true) :
    ∃ t, pollLoop n s = .next t ∧ t.ctl.phase = .xbegin ∧ t.ctl.stage = .poll ∧ t.cfg = s.cfg ∧
      t.env.requests = s.env.requests ∧ TransportOk t ∧ NeverCompletes t ∧ Evolved s.cfg s.dev t.dev ∧
      t.dev.busy = true ∧ t.ctl.polls = s.ctl.polls + n := by
  induction n generalizing s with
  | zero => exact ⟨s, rfl, hp, hg, rfl, rfl, ht, hf, .refl _ _, hb, rfl⟩
  | succ n ih =>
    obtain ⟨u, h1, hcfg, -, hreq, hok, -, hev, -, hst, hpo, -, hnv, hcase⟩ := pollRead_cases ht hg hm
    have hub := hnv hf hb
    have huf := (transact_inputs h1).neverCompletes hf
    rcases hcase with ⟨-, -, h⟩ | ⟨-, -, -, m, hm1, -⟩ | ⟨-, hd, -⟩
    · simp [hub] at h
    · simp [hnone] at hm1
    · have hdev : (pollDelay u).dev = u.dev := by rw [pollDelay_dev, deviceTurn_of_never huf]
      obtain ⟨t, a1, a2, a3, a4, a5, a6, a7, a8, a9, a10⟩ := ih (s := pollDelay u) (by simpa [TransportOk] using hok)
        (by simpa using hst) (by simp) (by simpa [hcfg] using hm) (by simpa [hcfg] using hnone)
        ((deviceTurn_inputs u).neverCompletes huf) (by rw [hdev]; exact hub)
      refine ⟨t, ?_, a2, a3, by simpa [hcfg] using a4, by simpa [hreq] using a5, a6, a7, ?_, a9, ?_⟩
      · simp only [pollLoop, h1, andThen_next, hd, a1]
      · rw [pollDelay_cfg, hcfg, hdev] at a8
        exact hev.trans a8
      · rw [a10, pollDelay_polls, hpo]; omega

end Sys2Proof.Machine
end

