-- ==== Sys2Proof/Laws/Writing.lean ====
section
/-! SUPPORT. The write-class operations when no exchange fails: the gate, the settle delay and the command bring the
machine to its poll loop with the device as the command leaves it. -/

namespace Sys2Proof.Machine

/-- The gate's transaction on a device that is not busy (R72, R157). -/
theorem transact_gate {s : State} (hg : s.ctl.stage = .gate) (hb : s.dev.busy = false) (ht : TransportOk s) :
    ∃ t rx, transact (wireCmd .wren 0#32) s = .next t ∧ t.trace = s.trace ++ [.csLow, .x 0x06#8 rx, .csHigh] ∧
      t.dev = { s.dev with wel := true, stream := [] } ∧ t.ctl.phase = .settle ∧ t.ctl.xok = true ∧ TransportOk t ∧
      t.ctl.rbuf = s.ctl.rbuf := by
  obtain ⟨t, h1, h2, ⟨body, h3, h4⟩, h5, h6, -, h7, -⟩ := transact_quiet (c := wireCmd .wren 0#32) hb ht
  have hsent := sentOf_eq s.cfg .wren 0#32 s.ctl.len.toNat s.ctl.wbuf
  unfold sentOf at hsent
  rw [hsent] at h2 h3
  obtain ⟨rx, h8, rfl⟩ := h3
  obtain ⟨b, rfl⟩ := List.length_eq_one_iff.1 h8
  refine ⟨t, b, h1, h4, h2, ?_, h5, h6, h7 (by simp [hg])⟩
  have := transact_successor h1
  simp_all

/-- A command transaction on a device that is not busy: what it does to the device is `Device.released`. -/
theorem transact_command {w : WireOp} {a : Word} {s : State} (hst : s.ctl.stage = .cmd)
    (hw : writeClass s.ctl.opr = true) (hb : s.dev.busy = false) (ht : TransportOk s) :
    ∃ t body n, transact (wireCmd w a) s = .next t ∧ t.trace = s.trace ++ body ∧
      Exchanged (sentOf s.cfg (wireCmd w a) s.ctl.len.toNat s.ctl.wbuf) body ∧
      t.dev = Device.released s.cfg n true
        { s.dev with stream := sentOf s.cfg (wireCmd w a) s.ctl.len.toNat s.ctl.wbuf } ∧
      t.ctl.phase = .xbegin ∧ t.ctl.stage = .poll ∧ t.ctl.polls = 0 ∧ t.ctl.xok = true ∧ TransportOk t ∧
      t.ctl.result = s.ctl.result ∧ t.ctl.sr = s.ctl.sr ∧
      (w = .wren ∨ w = .pp ∨ w = .se → t.ctl.rbuf = s.ctl.rbuf) := by
  obtain ⟨t, h1, h2, ⟨body, h3, h4⟩, h5, h6, h7, -, -⟩ := transact_quiet (c := wireCmd w a) hb ht
  have hs := transact_successor h1
  simp only [h5, hst, hw] at hs
  refine ⟨t, body, _, h1, h4, h3, h2, by simp_all, by simp_all, by simp_all, h5, h6, by simp_all, (h7 hst).2, ?_⟩
  intro hop
  rw [(h7 hst).1, slotsOf_captured]
  rcases hop with rfl | rfl | rfl <;> simp [wireCmd_op, layoutTail, captured, captured_payload]

/-- A valid write-class operation on a device that is not busy, up to its poll loop (R202, R203, R187). -/
theorem exec_writing {op : HostOp} {q : Operands} {s : State} (h : HostReady s) (hop : writeClass op = true)
    (hv : validate s.cfg op q.addr (latchedLen op q) = .ok) :
    ∃ v rx body n, exec (op.instr q) s = andThen (pollLoop (pollReads v) v) response ∧
      v.trace = s.trace ++ .req op q.addr q.len q.wbuf :: (GateEvents rx ++ body) ∧
      Exchanged (sentOf s.cfg (wireCmd (commandOf op) q.addr) (latchedLen op q) q.wbuf) body ∧
      v.dev = Device.released s.cfg n true { s.dev with
        wel := true, stream := sentOf s.cfg (wireCmd (commandOf op) q.addr) (latchedLen op q) q.wbuf } ∧
      v.cfg = s.cfg ∧ v.ctl.phase = .xbegin ∧ v.ctl.stage = .poll ∧ v.ctl.polls = 0 ∧ v.ctl.rbuf = [] ∧
      v.env.requests = s.env.requests ∧ TransportOk v ∧ InputsLeft s v := by
  obtain ⟨hp, hL, hS, hb, ht⟩ := h
  have hacc := acceptRequest_valid hv
  rw [if_pos hop] at hacc
  have hdev : (acceptRequest op q s).dev = s.dev := by simp [deviceTurn_of_idle hb]
  obtain ⟨u, rx, h1, h2, h3, h4, -, h6, h7⟩ := transact_gate (s := acceptRequest op q s) hacc.2 (by rw [hdev]; exact hb)
    (by simpa [TransportOk] using ht)
  have hf := transact_frame h1
  have hi1 := transact_inputs h1
  simp only [acceptRequest_trace, acceptRequest_rbuf, hdev, acceptRequest_cfg, acceptRequest_opr, acceptRequest_len,
    acceptRequest_wbuf, acceptRequest_requests, acceptRequest_addr] at h2 h3 h7 hf
  have hub : u.dev.busy = false := by rw [h3]; exact hb
  obtain ⟨v, body, n, h8, h9, h10, h11, h12, h13, h14, -, h16, -, -, h17⟩ :=
    transact_command (w := commandOf op) (a := q.addr) (s := settleDelay u) (by simp) (by simp [hf, hop])
      (by simp [deviceTurn_of_idle hub, hub]) (by simpa [TransportOk] using h6)
  have hf2 := transact_frame h8
  have hi2 := transact_inputs h8
  simp only [settleDelay_trace, settleDelay_cfg, settleDelay_len, settleDelay_wbuf, settleDelay_dev,
    deviceTurn_of_idle hub, settleDelay_requests, settleDelay_rbuf, hf, h2, h3, h7] at h9 h10 h11 h17 hf2
  rw [lenContainer_of_valid hL hv] at h10 h11
  refine ⟨v, rx, body, n, ?_, ?_, h10, ?_, hf2.1, h12, h13, h14, h17 ?_, hf2.2.2.2.2.2.2.2, h16, ?_⟩
  · rw [exec_hostOp]
    simp only [hop, if_true, writingOperation, hp]
    rw [inPhase_of hacc.1, h1]
    simp only [andThen_next]
    rw [inPhase_of h4]
    simp only [commandTransaction, settleDelay_addr, hf, h8, andThen_next]
    rw [inPhase_of h12]
  · rw [h9]; simp [GateEvents]
  · rw [h11]
  · cases op <;> simp_all [writeClass, commandOf]
  · refine .trans ?_ (.trans hi1 (.trans ?_ hi2)) <;> simp [InputsLeft, List.tail_suffix]

/-- The device after a page program or a sector erase that the contract describes (R73, R74). -/
theorem released_pp {cfg : Cfg} {n : Nat} {d : Device} {a : Word} {w : List Byte} (hf : addressFits a = true)
    (hw : d.wel = true) (hb : d.busy = false) (hl : Pending.legal cfg (.prog a.toNat w) = true)
    (hu : d.locked a.toNat cfg.pageSize = false) :
    Device.released cfg n true { d with stream := WireOp.pp.opcode :: (addressBytes a ++ w) } =
      { d with busy := true, pending := some (.prog a.toNat w), stream := [] } := by
  have hstream : WireOp.pp.opcode :: (addressBytes a ++ w) = (wireCmd .pp a).frame.bytes ++ w := by
    rw [WireCmd.frame_bytes]; rfl
  simp only [Device.released, if_true]
  rw [act_after_frame cfg n _ .pp hf w hstream]
  simp only [Device.locked] at hu
  simp [Device.startWrite, hw, hb, hl, Device.locked, hu]

theorem released_se {cfg : Cfg} {n : Nat} {d : Device} {a : Word} (hf : addressFits a = true)
    (hw : d.wel = true) (hb : d.busy = false) (hl : Pending.legal cfg (.erase a.toNat) = true)
    (hu : d.locked a.toNat cfg.sectorSize = false) :
    Device.released cfg n true { d with stream := WireOp.se.opcode :: addressBytes a } =
      { d with busy := true, pending := some (.erase a.toNat), stream := [] } := by
  have hstream : WireOp.se.opcode :: addressBytes a = (wireCmd .se a).frame.bytes ++ [] := by
    rw [WireCmd.frame_bytes]; rfl
  simp only [Device.released, if_true]
  rw [act_after_frame cfg n _ .se hf [] hstream]
  simp only [Device.locked] at hu
  simp [Device.startWrite, hw, hb, hl, Device.locked, hu]

/-- The fields no command and no release touches. -/
def SameRest (d d' : Device) : Prop :=
  d'.statusHi = d.statusHi ∧ d'.sr3 = d.sr3 ∧ d'.lock = d.lock ∧ d'.jedec = d.jedec ∧ d'.legacy = d.legacy ∧
    d'.failed = d.failed

theorem startWrite_rest (cfg : Cfg) (n : Nat) (d : Device) (p : Pending) (a k : Nat) :
    SameRest d (d.startWrite cfg n p a k) := by
  unfold Device.startWrite
  split
  · simp [SameRest]
  · split
    · simp [SameRest, Device.havoc]
    · split <;> simp [SameRest]

theorem act_rest (cfg : Cfg) (n : Nat) (d : Device) : SameRest d (d.act cfg n) := by
  unfold Device.act
  split
  · simp [SameRest, Device.havoc]
  · split
    · split <;> simp [SameRest, Device.havoc]
    · exact startWrite_rest _ _ _ _ _ _
    · split
      · exact startWrite_rest _ _ _ _ _ _
      · simp [SameRest, Device.havoc]
    all_goals simp [SameRest]

theorem released_rest (cfg : Cfg) (n : Nat) (b : Bool) (d : Device) : SameRest d (d.released cfg n b) := by
  unfold Device.released
  split
  · exact act_rest cfg n d
  · simp [SameRest, Device.havoc]

end Sys2Proof.Machine
end

