-- ==== Sys2Proof/Tests/Slice0.lean ====
section
/-! SUPPORT. Tests. Ill-formed terms that the check refuses; words written out from the spec's encodings; single steps
with the results that 95_test_vectors.md gives; and for every statement with hypotheses a state and operands that meet
them together. -/

namespace Sys2Proof.Tests

open Sys2Proof.Machine

/-! ### Helpers -/

/-- Whether an outcome is a next state with a property. -/
def answers (o : Out) (p : State → Bool) : Bool :=
  match o with
  | .next t => p t
  | .fault _ => false
  | .refused _ => false

theorem of_answers {o : Out} {p : State → Bool} (h : answers o p = true) : ∃ t, o = .next t ∧ p t = true := by
  cases o with
  | next t => exact ⟨t, rfl, h⟩
  | fault r => cases h
  | refused r => cases h

/-- The request record of a line of 95_test_vectors.md. -/
def args (addr len : Word) : Operands := ⟨addr, len, []⟩

/-- A PROGRAM request of `n` copies of a byte. -/
def page (addr : Word) (n : Nat) (b : Byte) : Operands := ⟨addr, BitVec.ofNat 32 n, List.replicate n b⟩

/-- Reset, with a device. -/
def withDevice (d : Device) : State := { State.reset with dev := d }

/-- Reset, with a request presented. -/
def presented (sel : BitVec 4) (q : Operands) : State :=
  { State.reset with env := { Env.none with requests := [⟨sel, q⟩] } }

/-- Reset, with the transport's answers to come. -/
def answered (a : List Answer) : State := { State.reset with env := { Env.none with answers := a } }

/-- Reset, with a schedule of the device's completion. -/
def scheduled (t : List Bool) : State := { State.reset with env := { Env.none with turns := t } }

/-- Another configuration. -/
def configured (cfg : Cfg) : State := { State.reset with cfg := cfg }

/-- A wire command due in its CMD stage, its latch set. -/
def latched (nbits w : Nat) : State :=
  let s := State.reset.withFetchWord nbits w
  { s with dev := { s.dev with wel := true } }

/-- A device that is at an erase of sector 1. -/
def erasing (failed : Bool) : Device :=
  { Device.reset with busy := true, wel := true, pending := some (.erase 0x1000), failed := failed }

/-- A status read due in the POLL stage of an operation. -/
def polling (d : Device) : State :=
  { withDevice d with ctl := { Regs.reset with phase := .xbegin, stage := .poll, opr := .eraseSector, addr := 0x1000#32 } }

/-- The bytes sent in the events an operation adds. -/
def sent (t : State) : List Byte := sentBytes t.trace

/-! ### Well-formedness: a term that each check refuses -/

theorem smoke_read_address : (Instr.read 0x01000000#32).wf = false := by decide
theorem smoke_pp_address : (Instr.pp 0xFF000000#32).wf = false := by decide
theorem smoke_se_address : (Instr.se 0x80000000#32).wf = false := by decide
theorem smoke_rdlock_address : (Instr.rdlock 0x01000000#32).wf = false := by decide

/-! ### Decoding: words written out from R102, R105, R111 and vectors B1 -/

/-- B1.2. -/
theorem test_decode_read : decode (.wire [0x03#8, 0x01#8, 0x23#8, 0x45#8]) = .ok (.read 0x012345#32) := by rfl
/-- B1.3: the byte-reversed address is another. -/
theorem test_decode_read_reversed :
    decode (.wire [0x03#8, 0x45#8, 0x23#8, 0x01#8]) = .ok (.read 0x452301#32) := by rfl
/-- B1.5. -/
theorem test_decode_pp : decode (.wire [0x02#8, 0x0F#8, 0xFF#8, 0x00#8]) = .ok (.pp 0x0FFF00#32) := by rfl
/-- B1.6. -/
theorem test_decode_se : decode (.wire [0x20#8, 0x00#8, 0x10#8, 0x00#8]) = .ok (.se 0x001000#32) := by rfl
/-- B1.8. -/
theorem test_decode_rdlock : decode (.wire [0x3D#8, 0x00#8, 0xFF#8, 0xFF#8]) = .ok (.rdlock 0x00FFFF#32) := by rfl
theorem test_decode_rdsr : decode (.wire [0x05#8]) = .ok .rdsr := by rfl
theorem test_decode_wren : decode (.wire [0x06#8]) = .ok .wren := by rfl
theorem test_decode_rdid : decode (.wire [0x9F#8]) = .ok .rdid := by rfl
theorem test_decode_rdmdid : decode (.wire [0x90#8]) = .ok .rdmdid := by rfl
theorem test_decode_rdsr3 : decode (.wire [0x15#8]) = .ok .rdsr3 := by rfl
/-- R111, one selector each. -/
theorem test_decode_hosts (q : Operands) :
    decode (.request ⟨0x1#4, q⟩) = .ok (.readIdJedec q) ∧ decode (.request ⟨0x2#4, q⟩) = .ok (.readIdLegacy q) ∧
    decode (.request ⟨0x3#4, q⟩) = .ok (.readStatus q) ∧ decode (.request ⟨0x4#4, q⟩) = .ok (.readStatus3 q) ∧
    decode (.request ⟨0x5#4, q⟩) = .ok (.readLock q) ∧ decode (.request ⟨0x6#4, q⟩) = .ok (.readHost q) ∧
    decode (.request ⟨0x7#4, q⟩) = .ok (.program q) ∧ decode (.request ⟨0x8#4, q⟩) = .ok (.eraseSector q) := by
  simp [decode, decodeRequest, HostOp.ofSelector, HostOp.instr]
/-- R109 and R116: an opcode outside the map, an incomplete frame, nothing at all, and bytes after a frame. -/
theorem test_decode_rejects :
    decode (.wire [0x0B#8, 0x00#8, 0x00#8, 0x00#8]) = .error (.unknownOpcode 0x0B#8) ∧
    decode (.wire [0x20#8, 0x00#8]) = .error .incompleteFrame ∧ decode (.wire []) = .error .emptyTransaction ∧
    decode (.wire [0x06#8, 0x00#8]) = .error .trailingBytes := ⟨rfl, rfl, rfl, rfl⟩
/-- The table's words: an F4 row of 32 bits, an F1 row of 8, a selector of 4. -/
theorem test_table_words : decodeTableWord 32 0x03012345 = some (.read 0x012345#32) ∧
    decodeTableWord 8 0x9F = some .rdid ∧ decodeTableWord 4 0x8 = some (.eraseSector (args 0#32 0#32)) := by decide

/-! ### Reading operations -/

/-- B5.40, the ID that R196 illustrates with. -/
theorem test_readIdJedec :
    answers (exec (.readIdJedec (args 0#32 0#32)) (withDevice { Device.reset with jedec := [0xEF#8, 0x40#8, 0x18#8] }))
      (fun t => t.ctl.rbuf == [0xEF#8, 0x40#8, 0x18#8] && sent t == [0x9F#8, 0#8, 0#8, 0#8] &&
        t.ctl.result == .ok) = true := by decide

/-- B5.41. -/
theorem test_readIdLegacy :
    answers (exec (.readIdLegacy (args 0#32 2#32)) (withDevice { Device.reset with legacy := [0xEF#8, 0x17#8] }))
      (fun t => t.ctl.rbuf == [0xEF#8, 0x17#8] && sent t == [0x90#8, 0#8, 0#8]) = true := by decide

/-- B5.44: a busy device answers 03, with one read and no loop. -/
theorem test_readStatus_busy :
    answers (exec (.readStatus (args 0#32 0#32)) (withDevice (erasing true)))
      (fun t => t.ctl.rbuf == [0x03#8] && t.ctl.result == .ok && sent t == [0x05#8, 0#8, 0#8]) = true := by decide

/-- B5.43: with `DUMMY_RDSR` = 0 there are two slots. -/
theorem test_readStatus_noDummy :
    answers (exec (.readStatus (args 0#32 0#32)) (configured { Cfg.illustration with dummyRdsr := 0 }))
      (fun t => t.ctl.rbuf == [0x00#8] && sent t == [0x05#8, 0#8]) = true := by decide

/-- B5.45. -/
theorem test_readStatus3 :
    answers (exec (.readStatus3 (args 0#32 0#32)) (withDevice { Device.reset with sr3 := 0x04#8 }))
      (fun t => t.ctl.rbuf == [0x04#8] && sent t == [0x15#8, 0#8, 0#8]) = true := by decide

/-- B5.46. -/
theorem test_readLock :
    answers (exec (.readLock (args 0x010000#32 0#32)) (withDevice { Device.reset with lock := [(0x010000, 0x01#8)] }))
      (fun t => t.ctl.rbuf == [0x01#8] && sent t == [0x3D#8, 0x01#8, 0#8, 0#8, 0#8]) = true := by decide

/-- B5.47. -/
theorem test_read :
    answers (exec (.readHost (args 0x012345#32 2#32))
        (withDevice { Device.reset with mem := [(0x012345, 0xAA#8), (0x012346, 0xBB#8)] }))
      (fun t => t.ctl.rbuf == [0xAA#8, 0xBB#8] && sent t == [0x03#8, 0x01#8, 0x23#8, 0x45#8, 0#8, 0#8]) = true := by
  decide

/-- B5.8: an empty read at the end of the device sends its frame. -/
theorem test_read_empty :
    answers (exec (.readHost (args 0x100000#32 0#32)) State.reset)
      (fun t => t.ctl.rbuf == [] && t.ctl.result == .ok && sent t == [0x03#8, 0x10#8, 0#8, 0#8]) = true := by decide

/-- B2.4: a failure in slot 5 leaves one byte captured, which is no result. -/
theorem test_read_fails :
    answers (exec (.readHost (args 0x000010#32 4#32)) (answered [.ok, .ok, .ok, .ok, .ok, .fail]))
      (fun t => t.ctl.result == .busFault && t.ctl.rbuf == [0xFF#8] &&
        t.trace.drop 7 == [.xfail 0x00#8, .csHigh, .resp .busFault [0xFF#8]]) = true := by decide

/-! ### Operations that write -/

/-- B5.48: the device is busy for one status read. -/
theorem test_eraseSector :
    answers (exec (.eraseSector (args 0x001000#32 0#32)) (scheduled (List.replicate 16 false)))
      (fun t => outline t.trace ==
          [.inl 0x06#8, .inr .settle, .inl 0x20#8, .inl 0x05#8, .inr .poll, .inl 0x05#8] &&
        t.ctl.result == .ok && t.ctl.polls == 2 && !t.dev.busy && !t.dev.wel) = true := by decide

/-- B3.8: without a budget the operation goes on polling, the delay after every read. -/
theorem test_eraseSector_unbounded :
    answers (exec (.eraseSector (args 0x001000#32 0#32))
        { withDevice { Device.reset with failed := true } with cfg := { Cfg.illustration with pollMax := none } })
      (fun t => t.ctl.phase == .xbegin && t.ctl.stage == .poll && pollDelays t.trace == t.ctl.polls && t.dev.busy) = true := by
  decide

/-- R178 without a budget: the second status read fails, after a first that shows BUSY. -/
theorem test_eraseSector_pollFails :
    answers (exec (.eraseSector (args 0x001000#32 0#32))
        { withDevice { Device.reset with failed := true } with
          cfg := { Cfg.illustration with pollMax := none }
          env := { Env.none with answers := List.replicate 9 .ok ++ [.fail] } })
      (fun t => t.ctl.phase == .idle && t.ctl.result == .busFault && t.ctl.polls == 1 &&
        t.trace.drop (t.trace.length - 3) == [.xfail 0x00#8, .csHigh, .resp .busFault []]) = true := by decide

/-- R76: a device that completes one erase and fails in the middle of the next. -/
theorem test_completesNow_failing :
    completesNow { withDevice (erasing true) with env := { Env.none with turns := [true] } } = true ∧
    completesNow (withDevice (erasing true)) = false := by decide

/-- P4: a device that never completes, `POLL_MAX` = 3. -/
theorem test_eraseSector_stuck :
    answers (exec (.eraseSector (args 0x001000#32 0#32))
        { withDevice { Device.reset with failed := true } with cfg := { Cfg.illustration with pollMax := some 3 } })
      (fun t => t.ctl.result == .flashTimeout && pollDelays t.trace == 2 && t.dev.busy && t.dev.wel &&
        t.dev.pending == some (.erase 0x1000)) = true := by decide

/-- P2: F0 AND 3C is 30, at the ends of the page; one past it nothing changes. -/
theorem test_program :
    answers (exec (.program (page 0x002000#32 256 0x3C#8))
        (withDevice { Device.reset with mem := [(0x1FFF, 0xF0#8), (0x2000, 0xF0#8), (0x20FF, 0xF0#8), (0x2100, 0xF0#8)] }))
      (fun t => t.ctl.result == .ok &&
        ([0x1FFF, 0x2000, 0x2001, 0x20FF, 0x2100].map (arrayByte t)) == [0xF0#8, 0x30#8, 0x3C#8, 0x30#8, 0xF0#8] &&
        (sent t).length == 264) = true := by decide +kernel

/-- P3: the seventh exchange of the page program fails. -/
theorem test_program_fails :
    answers (exec (.program (page 0x001000#32 256 0x77#8)) (answered (List.replicate 7 .ok ++ [.fail])))
      (fun t => t.ctl.result == .busFault && t.ctl.rbuf == [] && sent t ==
          [0x06#8, 0x02#8, 0x00#8, 0x10#8, 0x00#8, 0x77#8, 0x77#8, 0x77#8] &&
        t.trace.drop (t.trace.length - 3) == [.xfail 0x77#8, .csHigh, .resp .busFault []]) = true := by decide +kernel

/-! ### Validation, vectors B5 and program P5 -/

theorem test_validate_addresses :
    validate Cfg.illustration .readLock 0x0FFFFF#32 0 = .ok ∧
    validate Cfg.illustration .readLock 0x100000#32 0 = .invalidAddress ∧
    validate Cfg.illustration .read 0x0FFFFF#32 2 = .invalidAddress ∧
    validate Cfg.illustration .read 0#32 0x100000 = .ok ∧
    validate Cfg.illustration .read 0x00FFFFFF#32 0xFF000002 = .invalidAddress ∧
    validate Cfg.illustration .eraseSector 0x0FF000#32 0 = .ok ∧
    validate Cfg.illustration .eraseSector 0x000800#32 0 = .invalidAddress := by decide

theorem test_validate_lengths :
    validate Cfg.illustration .program 0x0FFF00#32 256 = .ok ∧
    validate Cfg.illustration .program 0x000000#32 257 = .invalidLength ∧
    validate Cfg.illustration .program 0x100000#32 255 = .invalidAddress ∧
    validate Cfg.illustration .program 0x000080#32 256 = .ok ∧
    validate Cfg.illustration .readIdLegacy 0#32 1 = .invalidLength ∧
    validate Cfg.illustration .readIdLegacy 0#32 2 = .ok := by decide

/-- A buffer that the 32-bit `LEN` cannot say: an operation that does not use it is valid, PROGRAM has the wrong length
(R111, R211). -/
def oversized : Operands := ⟨0#32, 0#32, List.replicate (2 ^ 32) 0x00#8⟩

theorem test_oversized_buffer :
    validate Cfg.illustration .eraseSector oversized.addr (latchedLen .eraseSector oversized) = .ok ∧
    validate Cfg.illustration .program oversized.addr (latchedLen .program oversized) = .invalidLength := by
  refine ⟨by decide, ?_⟩
  rw [latchedLen, oversized, List.length_replicate]
  decide

/-- P5, line 1. -/
theorem test_invalid_request :
    answers (step (presented 0x8#4 (args 0x000800#32 0#32)))
      (fun t => t.trace == [.req .eraseSector 0x000800#32 0#32 [], .resp .invalidAddress []] && t.ctl.phase == .idle)
      = true := by decide

/-! ### The device, vectors B6, and the poll, vectors B3 -/

/-- B6, the rows F0 3C, 80 7F, 00 FF and FF A5. -/
theorem test_program_ands :
    Memory.program 0 [0x3C#8, 0x7F#8, 0xFF#8, 0xA5#8] [(0, 0xF0#8), (1, 0x80#8), (2, 0x00#8)] =
      [(0, 0x30#8), (1, 0x00#8), (2, 0x00#8), (3, 0xA5#8)] := by decide

/-- B6.1. -/
theorem test_wren_sets_the_latch :
    answers (step (State.reset.withFetchWord 8 0x06)) (fun t => t.dev.wel && t.ctl.phase == .settle) = true := by decide

/-- B6.2. -/
theorem test_se_pending :
    answers (step (latched 32 0x20001000)) (fun t => t.dev.busy && t.dev.pending == some (.erase 0x1000)) = true := by
  decide

/-- B6.3. -/
theorem test_se_without_latch :
    answers (step (State.reset.withFetchWord 32 0x20001000)) (fun t => t.dev == Device.reset) = true := by decide

/-- B6.4, before completion. -/
theorem test_pp_pending :
    answers (step (latched 32 0x02000100))
      (fun t => t.dev.busy && t.dev.pending == some (.prog 0x100 (List.replicate 256 0#8))) = true := by decide +kernel

/-- B3.7, B3.6, B3.9, B3.10 (FD). -/
theorem test_poll_verdicts :
    pollVerdict { Cfg.illustration with pollMax := some 3 } 0x00#8 3 = some .ok ∧
    pollVerdict { Cfg.illustration with pollMax := some 3 } 0x03#8 3 = some .flashTimeout ∧
    pollVerdict Cfg.illustration 0xFC#8 1 = some .ok ∧ pollVerdict Cfg.illustration 0xFD#8 1 = none := by decide

/-- B3.11: busy does not need WEL. -/
theorem test_rdsr_poll :
    answers (step (polling { Device.reset with busy := true, failed := true }))
      (fun t => t.ctl.sr == 0x01#8 && t.ctl.phase == .pollwait) = true := by decide

/-! ### Witnesses: for every statement with hypotheses, a state and operands that meet them -/

/-- The illustrative configuration with the largest device, and with the smallest. -/
def largest : Cfg := { Cfg.illustration with deviceSize := 2 ^ 24 }
def smallest : Cfg := { Cfg.illustration with deviceSize := 4096, dummyRdsr := 0, pollMax := some 1 }

/-- The configuration without a poll budget. -/
def unbounded : Cfg := { Cfg.illustration with pollMax := none }

/-- A wire command due in the largest device. -/
def dueIn (cfg : Cfg) (nbits w : Nat) : State := (configured cfg).withFetchWord nbits w

/-- The operands of a request of each operation that passes validation, at the end of the device. -/
def lastOperands : HostOp → Operands
  | .readIdJedec | .readStatus | .readStatus3 => args 0xFFFFFFFF#32 0#32
  | .readIdLegacy => args 0#32 2#32
  | .readLock => args 0x0FFFFF#32 0#32
  | .read => args 0x100000#32 0#32
  | .program => page 0x0FFF00#32 256 0x5A#8
  | .eraseSector => args 0x0FF000#32 0#32

theorem witness_DecodeOfEncode : (Instr.read 0x00FFFFFF#32).wf = true ∧ (Instr.se 0#32).wf = true ∧
    (Instr.program (page 0#32 256 0xFF#8)).wf = true := by decide +kernel

theorem witness_EncodeOfDecode :
    decode (.wire [0x3D#8, 0xFF#8, 0xFF#8, 0xFF#8]) = .ok (.rdlock 0xFFFFFF#32) ∧
    decode (.request ⟨0x8#4, args 0#32 0#32⟩) = .ok (.eraseSector (args 0#32 0#32)) := ⟨rfl, rfl⟩

theorem witness_ReservedSelector : ∀ sel ∈ [0x0#4, 0x9#4, 0xF#4], (sel = 0x0#4 ∨ 9 ≤ sel.toNat) ∧
    (presented sel (args 0#32 0#32)).ctl.phase = .idle ∧
    (presented sel (args 0#32 0#32)).env.requests = [⟨sel, args 0#32 0#32⟩] := by decide

theorem witness_Frames : WireOp.read.addressBearing = true ∧ WireOp.rdsr.addressBearing = false := by decide

theorem witness_LayoutTable (op : WireOp) : ∃ s : State, ∃ a : Word, s.cfg.Legal ∧ s.ctl.frame = (wireCmd op a).frame :=
  ⟨{ State.reset with ctl := { Regs.reset with frame := (wireCmd op 0x00FFFFFF#32).frame } }, 0x00FFFFFF#32,
    (by decide : Cfg.illustration.Legal), rfl⟩

theorem witness_StepRuns_idle :
    (presented 0x6#4 (args 0#32 1#32)).ctl.phase = .idle ∧
    (presented 0x6#4 (args 0#32 1#32)).env.requests = [⟨0x6#4, args 0#32 1#32⟩] ∧
    decode (.request ⟨0x6#4, args 0#32 1#32⟩) = .ok (.readHost (args 0#32 1#32)) := ⟨rfl, rfl, rfl⟩

theorem witness_StepRuns_xbegin :
    (dueIn largest 32 0x03FFFFFF).ctl.phase = .xbegin ∧ addressFits (dueIn largest 32 0x03FFFFFF).ctl.addr = true ∧
    decode (.wire (stageCommand (dueIn largest 32 0x03FFFFFF).ctl).frame.bytes) = .ok (.read 0xFFFFFF#32) := by
  refine ⟨by decide, by decide, rfl⟩

theorem witness_StepRuns_row : State.reset.ctl.phase = .idle ∧ State.reset.env.requests = [] ∧
    (raise .ok State.reset).ctl.phase ≠ .idle ∧ (raise .ok State.reset).ctl.phase ≠ .xbegin := by decide

/-- The state of the invariant's witnesses: a READ of the last byte presented. -/
def reading : State := presented 0x6#4 (args 0x0FFFFF#32 1#32)

theorem invariant_reading : SystemInvariant reading := ⟨by decide, by decide, by decide, by decide⟩

/-- A status read in the poll of an erase, the device still busy. -/
theorem invariant_polling : SystemInvariant (polling (erasing false)) := ⟨by decide, by decide, by decide, by decide⟩

theorem witness_StepKeeps : SystemInvariant reading ∧ (∃ t, step reading = .next t) ∧
    SystemInvariant (polling (erasing false)) ∧ (∃ t, step (polling (erasing false)) = .next t) :=
  ⟨invariant_reading, ⟨_, rfl⟩, invariant_polling, ⟨_, rfl⟩⟩

theorem witness_RowKeeps : SystemInvariant reading ∧ (∃ t, tick reading = .next t) ∧
    SystemInvariant (polling (erasing false)) ∧ (∃ t, tick (polling (erasing false)) = .next t) :=
  ⟨invariant_reading, ⟨_, rfl⟩, invariant_polling, ⟨_, rfl⟩⟩

theorem witness_EncoderDrops : (commandOf .program).addressBearing = true ∧ addressFits 0x01000000#32 = false ∧
    SystemInvariant (polling (erasing false)) ∧ (polling (erasing false)).ctl.phase = .xbegin ∧
    SystemInvariant (dueIn largest 32 0x3DFFFFFF) ∧ (dueIn largest 32 0x3DFFFFFF).ctl.phase = .xbegin ∧
    (stageCommand (dueIn largest 32 0x3DFFFFFF).ctl).op.addressBearing = true :=
  ⟨by decide, by decide, invariant_polling, rfl, ⟨by decide, by decide, by decide, by decide⟩, by decide, by decide⟩

theorem witness_ConfigurationNeverChanges : (∃ t, step reading = .next t) ∧ ∃ t, tick reading = .next t :=
  ⟨⟨_, rfl⟩, ⟨_, rfl⟩⟩

/-- An operation about to deliver its response. -/
def done : State := raise .flashTimeout State.reset

theorem witness_NoTransactionIsOpen : SelectDiscipline done ∧ done.ctl.phase = .done ∧
    (∃ t, tick done = .next t ∧ newEvents done t = [.resp .flashTimeout []]) ∧
    AtStepEnd reading ∧ AtRest reading ∧ reading.cfg.Legal ∧ PollEnds reading ∧ (∃ t, step reading = .next t) ∧
    AtStepEnd (polling (erasing true)) ∧ (polling (erasing true)).ctl.cs = .high ∧
    ∃ t, step (polling (erasing true)) = .next t :=
  ⟨by decide, rfl, ⟨_, rfl, rfl⟩, .inl rfl, ⟨rfl, rfl⟩, by decide, .inr rfl, ⟨_, rfl⟩, .inr ⟨rfl, .inl rfl⟩, rfl, ⟨_, rfl⟩⟩

/-- In the middle of a transaction, the trace with it. -/
def listening (a : List Answer) : State :=
  let s : State := { State.reset.withFetchWord 8 0x9F with env := { Env.none with answers := a } }
  beginTransaction (stageCommand s.ctl) s

theorem witness_SelectEvents : SelectDiscipline (listening []) ∧ busLevel (listening []).trace = some (listening []).ctl.cs ∧
    (∃ t, step (listening []) = .next t) ∧ SelectDiscipline reading ∧ busLevel reading.trace = some reading.ctl.cs ∧
    ∃ t, step reading = .next t :=
  ⟨by decide, by decide, ⟨_, rfl⟩, by decide, by decide, ⟨_, rfl⟩⟩

/-- The trace of an erase whose command fails in its second slot (B4.1 with a failure). -/
def failedErase : List Event :=
  [.req .eraseSector 0#32 0#32 [], .csLow, .x 0x06#8 0#8, .csHigh, .delay .settle, .csLow, .x 0x20#8 0#8, .xfail 0#8,
    .csHigh, .resp .busFault []]

/-- That trace behind it, and a new request presented. -/
def afterFailure : State := { reading with trace := failedErase }

/-- That operation where its slot has failed, and where the line is released again. -/
def failing (n : Nat) (p : Phase) : State :=
  { State.reset with
    ctl := { Regs.reset with cs := if p = .xend then .low else .high, phase := p, result := .busFault }
    trace := failedErase.take n }

theorem witness_FailuresReported_inside : FailuresReported (failing 8 .xend) ∧ FailuresReported (failing 9 .done) := by
  constructor <;> intro before tx after h <;>
  rcases before with _ | ⟨_, _ | ⟨_, _ | ⟨_, _ | ⟨_, _ | ⟨_, _ | ⟨_, _ | ⟨_, _ | ⟨_, _ | ⟨_, before⟩⟩⟩⟩⟩⟩⟩⟩⟩ <;>
    simp [failing, failedErase] at h
  · exact .inr (.inl ⟨h.2.2.2.2.2.2.2.2, rfl, rfl⟩)
  · exact .inr (.inr ⟨h.2.2.2.2.2.2.2.2.symm, rfl, rfl⟩)

theorem witness_FailuresReported : FailuresReported afterFailure ∧ (∃ t, step afterFailure = .next t) ∧
    ∃ t, tick afterFailure = .next t := by
  refine ⟨?_, ⟨_, rfl⟩, ⟨_, rfl⟩⟩
  intro before tx after h
  rcases before with _ | ⟨_, _ | ⟨_, _ | ⟨_, _ | ⟨_, _ | ⟨_, _ | ⟨_, _ | ⟨_, _ | ⟨_, _ | ⟨_, _ | ⟨_, before⟩⟩⟩⟩⟩⟩⟩⟩⟩⟩ <;>
    simp [afterFailure, failedErase] at h
  exact .inl ⟨[], [], h.2.2.2.2.2.2.2.2.symm⟩

theorem witness_GatePrecedes : AtStepEnd afterFailure ∧ GatePrecedesWrites afterFailure.trace ∧
    ∃ t, step afterFailure = .next t := by
  refine ⟨.inl rfl, ?_, ⟨_, rfl⟩⟩
  intro before e after tx h hs htx
  rcases before with _ | ⟨b0, _ | ⟨b1, _ | ⟨b2, _ | ⟨b3, _ | ⟨b4, _ | ⟨b5, _ | ⟨b6, _ | ⟨b7, _ | ⟨b8, _ | ⟨b9, before⟩⟩⟩⟩⟩⟩⟩⟩⟩⟩ <;>
    simp [afterFailure, failedErase] at h
  · obtain ⟨-, he, -⟩ := h
    subst he
    rcases hs with hs | ⟨rx, hs⟩
    · cases hs
    · cases hs
      rcases htx with h | h <;> exact absurd h (by decide)
  · obtain ⟨h0, h1, h2, h3, h4, -⟩ := h
    exact ⟨[b0], 0#8, by simp [GateEvents, h1, h2, h3, h4]⟩

theorem witness_OpcodesOpen : AtStepEnd afterFailure ∧ OpcodesOpen afterFailure.trace ∧
    ∃ t, step afterFailure = .next t := by
  refine ⟨.inl rfl, ?_, ⟨_, rfl⟩⟩
  intro before after h
  rcases before with _ | ⟨b0, _ | ⟨b1, _ | ⟨b2, _ | ⟨b3, _ | ⟨b4, _ | ⟨b5, _ | ⟨b6, _ | ⟨b7, _ | ⟨b8, _ | ⟨b9, before⟩⟩⟩⟩⟩⟩⟩⟩⟩⟩ <;>
    simp [afterFailure, failedErase] at h
  · exact ⟨_, _, .wren, h.2.symm, .inr ⟨0#8, rfl⟩⟩
  · exact ⟨_, _, .se, h.2.2.2.2.2.symm, .inr ⟨0#8, rfl⟩⟩

theorem witness_EachRequest :
    openRequest afterFailure.trace = some (decide (afterFailure.ctl.phase ≠ .idle)) ∧
    openRequest (failing 8 .xend).trace = some (decide ((failing 8 .xend).ctl.phase ≠ .idle)) ∧
    (∃ t, step afterFailure = .next t) ∧ ∃ t, tick (failing 8 .xend) = .next t :=
  ⟨by decide, by decide, ⟨_, rfl⟩, ⟨_, rfl⟩⟩

theorem witness_TraceIsNeverRead : (∃ t, step reading = .next t) ∧ ∃ t, tick (listening []) = .next t :=
  ⟨⟨_, rfl⟩, ⟨_, rfl⟩⟩

/-- A valid page, one byte too few, and an address past the end. -/
theorem witness_Acceptance :
    (∀ q ∈ [page 0x0FFF00#32 256 0#8, page 0x0FFF00#32 255 0#8, page 0x0FFF01#32 256 0#8],
      (presented 0x7#4 q).ctl.phase = .idle ∧ (presented 0x7#4 q).env.requests = [⟨HostOp.program.selector, q⟩] ∧
      q.wbuf.length < 2 ^ 32) ∧
    validate Cfg.illustration .program 0x0FFF00#32 256 = .ok ∧
    validate Cfg.illustration .program 0x0FFF00#32 255 = .invalidLength ∧
    validate Cfg.illustration .program 0x0FFF01#32 256 = .invalidAddress := by decide +kernel

theorem witness_FailedSlot : (listening [.fail]).ctl.phase = .xslot ∧
    (layout (stageCommand (listening [.fail]).ctl).op (listening [.fail]))[(listening [.fail]).ctl.slot.toNat]? =
      some (.c 0x9F#8) ∧ nextAnswer (listening [.fail]) = .fail ∧
    (failSlot 0x9F#8 (listening [.fail])).ctl.phase = .xend ∧ (failSlot 0x9F#8 (listening [.fail])).ctl.xok = false ∧
    done.ctl.phase = .done := by decide

/-- READ of the last byte, and of nothing past it. -/
theorem witness_ReadCommand :
    CommandReady { dueIn largest 32 0x03FFFFFF with ctl := { (dueIn largest 32 0x03FFFFFF).ctl with len := 1#32 } } ∧
    CommandReady (dueIn largest 32 0x03FFFFFF) ∧ addressFits 0x00FFFFFF#32 = true ∧
    (0x00FFFFFF#32 : Word).toNat + (1#32 : Word).toNat ≤ largest.deviceSize := by decide

theorem witness_IdCommands : CommandReady (dueIn largest 8 0x90) ∧ CommandReady (dueIn smallest 8 0x9F) := by decide

/-- In the CMD stage; in the POLL stage of a device that is done; of one that is busy, with the budget used up and with
some of it left. -/
theorem witness_StatusCommand :
    (dueIn smallest 8 0x05).ctl.phase = .xbegin ∧ (dueIn smallest 8 0x05).ctl.stage = .cmd ∧
    (dueIn smallest 8 0x05).cfg.Legal ∧ TransportOk (dueIn smallest 8 0x05) ∧
    (∀ s ∈ [polling Device.reset, polling (erasing true), { polling (erasing true) with cfg := smallest }],
      s.ctl.phase = .xbegin ∧ s.ctl.stage = .poll ∧ s.cfg.Legal ∧ TransportOk s) := by decide

theorem witness_StatusCommand_polls :
    answers (exec .rdsr (polling Device.reset)) (fun t => !t.ctl.sr.getLsbD 0) = true ∧
    answers (exec .rdsr (polling (erasing true))) (fun t => t.ctl.sr.getLsbD 0 && t.ctl.phase == .pollwait) = true ∧
    answers (exec .rdsr { polling (erasing true) with cfg := smallest })
      (fun t => t.ctl.sr.getLsbD 0 && t.ctl.result == .flashTimeout) = true := by decide

theorem witness_RegisterCommands : CommandReady (dueIn largest 32 0x3DFFFFFF) ∧ addressFits 0x00FFFFFF#32 = true ∧
    (0x00FFFFFF#32 : Word).toNat < (dueIn largest 32 0x3DFFFFFF).cfg.deviceSize ∧
    CommandReady (dueIn largest 8 0x15) := by decide

theorem witness_WriteEnable : (dueIn largest 8 0x06).ctl.phase = .xbegin ∧ (dueIn largest 8 0x06).ctl.stage = .gate ∧
    (dueIn largest 8 0x06).dev.busy = false ∧ TransportOk (dueIn largest 8 0x06) := by decide

/-- The last page. -/
theorem witness_PageProgram : CommandReady (latched 32 0x020FFF00) ∧
    writeClass (latched 32 0x020FFF00).ctl.opr = true ∧ (latched 32 0x020FFF00).dev.wel = true ∧
    addressFits 0x000FFF00#32 = true ∧ (0x000FFF00#32 : Word).toNat % Cfg.illustration.pageSize = 0 ∧
    (0x000FFF00#32 : Word).toNat + Cfg.illustration.pageSize ≤ Cfg.illustration.deviceSize ∧
    (latched 32 0x020FFF00).ctl.wbuf.length = Cfg.illustration.pageSize ∧
    Unlocked (latched 32 0x020FFF00) 0x000FFF00 256 := by decide +kernel

/-- The last sector. -/
theorem witness_SectorErase : CommandReady (latched 32 0x200FF000) ∧
    writeClass (latched 32 0x200FF000).ctl.opr = true ∧ (latched 32 0x200FF000).dev.wel = true ∧
    addressFits 0x000FF000#32 = true ∧ (0x000FF000#32 : Word).toNat % Cfg.illustration.sectorSize = 0 ∧
    (0x000FF000#32 : Word).toNat + Cfg.illustration.sectorSize ≤ Cfg.illustration.deviceSize ∧
    Unlocked (latched 32 0x200FF000) 0x000FF000 4096 := by decide

theorem witness_WithoutLatch : CommandReady (dueIn largest 32 0x02000080) ∧
    (dueIn largest 32 0x02000080).dev.wel = false := by decide

/-- Misaligned, with the latch set. -/
theorem witness_AnyForm : CommandReady (latched 32 0x02000080) ∧ CommandReady (latched 32 0x20000001) := by decide

/-- A wire command due at a device that is at an erase: failed, and with a schedule. -/
def dueAtBusy (failed : Bool) (turns : List Bool) : State :=
  { State.reset.withFetchWord 32 0x03000000 with dev := erasing failed, env := { Env.none with turns := turns } }

theorem witness_BusyDevice : (dueAtBusy true [false]).ctl.phase = .xbegin ∧
    (Instr.read 0#32).wireCmd? = some ⟨.read, 0#32⟩ ∧ (WireCmd.mk .read 0#32).op ≠ .rdsr ∧
    (dueAtBusy true [false]).dev.busy = true ∧ NeverCompletes (dueAtBusy true [false]) ∧ nextAnswer (dueAtBusy true [false]) = .ok ∧
    [false, false] <+: (dueAtBusy false [false, false]).env.turns ∧ (dueAtBusy false [false, false]).dev.busy = true := by
  refine ⟨by decide, rfl, by decide, rfl, ⟨rfl, by decide⟩, rfl, ⟨[], rfl⟩, rfl⟩

theorem witness_SecondMaster : (Instr.rdsr).wireCmd? ≠ none ∧ State.reset.ctl.phase ≠ .xbegin ∧
    (Instr.readStatus (args 0#32 0#32)).wireCmd? = none ∧ (dueIn largest 8 0x05).ctl.phase ≠ .idle := by decide

/-- A host is ready after reset, whatever the size of the device. -/
theorem witness_HostReady : HostReady State.reset ∧ HostReady (configured largest) ∧ HostReady (configured smallest) :=
  ⟨by decide, by decide, by decide⟩

theorem witness_ReadIdLegacy : 2 ≤ (args 0#32 2#32).len.toNat := by decide

theorem witness_ReadStatus : (withDevice (erasing true)).ctl.phase = .idle ∧ (withDevice (erasing true)).ctl.cs = .high ∧
    (withDevice (erasing true)).cfg.Legal ∧ TransportOk (withDevice (erasing true)) ∧
    State.reset.dev.busy = false := by decide

theorem witness_ReadLock : (0x00FFFFFF#32 : Word).toNat < (configured largest).cfg.deviceSize := by decide

/-- The last byte, and an empty read at the end (D32). -/
theorem witness_Read : (0x00FFFFFF#32 : Word).toNat < 2 ^ 24 ∧
    (0x00FFFFFF#32 : Word).toNat + (1#32 : Word).toNat ≤ (configured largest).cfg.deviceSize ∧
    (0x00100000#32 : Word).toNat < 2 ^ 24 ∧
    (0x00100000#32 : Word).toNat + (0#32 : Word).toNat ≤ State.reset.cfg.deviceSize ∧
    validate State.reset.cfg .read 0x00100000#32 0 = .ok := by decide

/-- The last page of a prompt device, and the last sector. -/
theorem witness_Program : HostReady State.reset ∧ State.reset.dev.failed = false ∧ State.reset.env.turns = [] ∧
    PollEnds State.reset ∧ PollEnds (configured unbounded) ∧
    (page 0x0FFF00#32 256 0#8).wbuf.length = State.reset.cfg.pageSize ∧
    (0x0FFF00#32 : Word).toNat % State.reset.cfg.pageSize = 0 ∧
    (0x0FFF00#32 : Word).toNat + State.reset.cfg.pageSize ≤ State.reset.cfg.deviceSize ∧
    Unlocked State.reset 0x0FFF00 256 := by
  refine ⟨?_, ?_, ?_, .inl ?_, .inr ?_, ?_, ?_, ?_, ?_⟩ <;> decide +kernel

theorem witness_EraseSector : (0x0FF000#32 : Word).toNat % State.reset.cfg.sectorSize = 0 ∧
    (0x0FF000#32 : Word).toNat + State.reset.cfg.sectorSize ≤ State.reset.cfg.deviceSize ∧
    Unlocked State.reset 0x0FF000 4096 := by decide

/-- A misaligned page, and a locked sector. -/
theorem witness_AcceptedWrites : HostReady (withDevice { Device.reset with lock := [(0x0FF000, 0x01#8)] }) ∧
    (page 0x000080#32 256 0#8).wbuf.length = 256 ∧
    validate Cfg.illustration .program 0x000080#32 256 = .ok ∧
    validate Cfg.illustration .eraseSector 0x0FF000#32 0 = .ok := by decide +kernel

theorem witness_EraseProgramRead : (0x0FF000#32 : Word).toNat ≤ (0x0FFF00#32 : Word).toNat ∧
    (0x0FFF00#32 : Word).toNat + State.reset.cfg.pageSize ≤ (0x0FF000#32 : Word).toNat + State.reset.cfg.sectorSize ∧
    (args 0x0FFF00#32 256#32).addr = (page 0x0FFF00#32 256 0#8).addr ∧
    (args 0x0FFF00#32 256#32).len = BitVec.ofNat 32 State.reset.cfg.pageSize := by decide

theorem witness_InvalidRequest : State.reset.ctl.phase = .idle ∧
    validate State.reset.cfg .eraseSector 0x000800#32 (latchedLen .eraseSector (args 0x000800#32 0#32)) = .invalidAddress ∧
    validate State.reset.cfg .program 0#32 (latchedLen .program (page 0#32 255 0#8)) = .invalidLength ∧
    State.reset.dev.busy = false := by decide +kernel

theorem witness_ValidationTable : largest.Legal ∧ smallest.Legal ∧ unbounded.Legal := by decide

theorem witness_FirstExchange (op : HostOp) : (answered [.fail]).ctl.phase = .idle ∧
    validate (answered [.fail]).cfg op (lastOperands op).addr (latchedLen op (lastOperands op)) = .ok ∧
    nextAnswer (answered [.fail]) = .fail := by
  cases op <;> decide +kernel

theorem witness_BusFault : ∃ t, exec (HostOp.eraseSector.instr (args 0#32 0#32)) (answered [.ok, .fail]) = .next t ∧
    (t.ctl.phase == .idle && t.ctl.result == .busFault) = true := of_answers (by decide +kernel)

theorem witness_OkMeans : writeClass .eraseSector = true ∧ State.reset.ctl.phase = .idle ∧ State.reset.cfg.Legal ∧
    ∃ t, exec (HostOp.eraseSector.instr (args 0#32 0#32)) State.reset = .next t ∧
      (t.ctl.phase == .idle && t.ctl.result == .ok) = true :=
  ⟨by decide, by decide, by decide, of_answers (by decide)⟩

theorem witness_FlashTimeout : ({ withDevice { Device.reset with failed := true } with cfg := smallest } : State).cfg.Legal ∧
    ∃ t, exec (HostOp.eraseSector.instr (args 0#32 0#32))
      { withDevice { Device.reset with failed := true } with cfg := smallest } = .next t ∧
      (t.ctl.phase == .idle && t.ctl.result == .flashTimeout && t.ctl.polls == 1) = true :=
  ⟨by decide, of_answers (by decide)⟩

theorem witness_OperationsExpand (op : HostOp) :
    ∃ t, exec (op.instr (lastOperands op)) State.reset = .next t ∧ (t.ctl.phase == .idle && t.ctl.result == .ok) = true := by
  cases op <;> exact of_answers (by decide +kernel)

/-- A device that never completes, with a configuration. -/
def stuck (cfg : Cfg) : State := { withDevice { Device.reset with failed := true } with cfg := cfg }

theorem never_stuck (cfg : Cfg) : NeverCompletes (stuck cfg) := ⟨rfl, fun _ h => nomatch h⟩

theorem witness_StuckDevice : HostReady (stuck smallest) ∧
    smallest.pollMax = some 1 ∧ (page 0x000F00#32 256 0#8).wbuf.length = smallest.pageSize ∧
    (0x000F00#32 : Word).toNat % smallest.pageSize = 0 ∧
    (0x000F00#32 : Word).toNat + smallest.pageSize ≤ smallest.deviceSize ∧
    (0#32 : Word).toNat % smallest.sectorSize = 0 ∧ (0#32 : Word).toNat + smallest.sectorSize ≤ smallest.deviceSize := by
  decide +kernel

theorem witness_StuckWithoutBudget :
    HostReady (stuck unbounded) ∧ NeverCompletes (stuck unbounded) ∧ unbounded.pollMax = none :=
  ⟨by decide, never_stuck _, rfl⟩

theorem witness_EveryRequest : State.reset.ctl.phase = .idle ∧ State.reset.cfg.Legal ∧ PollEnds State.reset ∧
    (configured unbounded).cfg.Legal ∧ PollEnds (configured unbounded) ∧
    Answer.fail ∈ ({ stuck unbounded with env := { Env.none with answers := [.ok, .fail] } } : State).env.answers :=
  ⟨rfl, by decide, .inl (by decide), by decide, .inr rfl, by decide⟩

theorem witness_StatusByte : Cfg.illustration.Legal := by decide

/-- Completion of a program of the last page and of an erase; and a device that does not complete. -/
theorem witness_Completion :
    State.reset.cfg.Legal ∧ (erasing false).Sound State.reset.cfg ∧ 0x0FFF00 + 256 ≤ State.reset.cfg.deviceSize ∧
    completesNow (withDevice { Device.reset with busy := true }) = true ∧ (erasing false).pending = some (.erase 0x1000) ∧
    completesNow (withDevice (erasing false)) = true ∧ completesNow (withDevice (erasing true)) = false ∧
    Device.Sound State.reset.cfg { erasing false with pending := some (.prog 0x0FFF00 (List.replicate 256 0#8)) } ∧
    completesNow (withDevice { erasing false with pending := some (.prog 0x0FFF00 (List.replicate 256 0#8)) }) = true := by
  decide +kernel

end Sys2Proof.Tests
end

section
/-! PROOFS. The statements of 10_state.md: the encoder drops no address bit (R27), and no rule reads the trace (R44). -/

namespace Sys2Proof.Machine

/-! ### The address in a command frame (R27) -/

/-- For an address-bearing command the top byte alone decides: no other column of R211 is looked at. -/
theorem validate_of_not_fits (cfg : Cfg) {op : HostOp} {addr : Word} (len : Nat)
    (hb : (commandOf op).addressBearing = true) (hf : addressFits addr = false) :
    validate cfg op addr len = .invalidAddress := by
  have hinv : addressInvalid cfg op addr len = true := by
    cases op with
    | readIdJedec | readIdLegacy | readStatus | readStatus3 => cases hb
    | readLock | read | program | eraseSector => simp only [addressInvalid, hf, Bool.not_false, Bool.true_or]
  rw [validate, if_pos hinv]

/-- The bytes of a stage's frame decode to its very command, if the latched address fits wherever the frame bears
it. -/
theorem decodeWire_stageFrame {r : Regs}
    (hfit : (stageCommand r).op.addressBearing = true → addressFits r.addr = true) (rest : List Byte) :
    decodeWire ((stageCommand r).frame.bytes ++ rest) = .ok (stageCommand r, rest) := by
  cases hst : r.stage with
  | gate | poll => simp only [stageCommand, hst, decodeWire_frame_of_fits _ addressFits_zero]
  | cmd =>
    simp only [stageCommand, hst] at hfit ⊢
    by_cases hb : (commandOf r.opr).addressBearing = true
    · exact decodeWire_frame_of_fits _ (hfit hb) rest
    · rw [show wireCmd (commandOf r.opr) r.addr = wireCmd (commandOf r.opr) 0#32 by simp [wireCmd, hb]]
      exact decodeWire_frame_of_fits _ addressFits_zero rest

/-- Where the latched request has passed validation, the address of an address-bearing stage fits: WREN and RDSR bear
none, and the operation's own command bears one only if validation has tested it. -/
theorem stage_addressFits {s : State} (hvalid : validate s.cfg s.ctl.opr s.ctl.addr s.ctl.len.toNat = .ok)
    (hb : (stageCommand s.ctl).op.addressBearing = true) : addressFits s.ctl.addr = true := by
  cases hst : s.ctl.stage with
  | gate | poll => simp [stageCommand, hst, wireCmd, WireOp.addressBearing] at hb
  | cmd =>
    simp only [stageCommand, hst] at hb
    exact addressFits_of_valid hvalid hb

/-- Settles O13: validation tests the top byte, and the invariant says that a request in `XBEGIN` has passed it. -/
theorem encoderDropsNoAddressBits : Obligations.EncoderDropsNoAddressBits := by
  refine ⟨fun cfg op addr len hb hf => validate_of_not_fits cfg len hb hf, fun s hinv hp => ?_⟩
  obtain ⟨-, -, hop, -⟩ := hinv
  obtain ⟨hvalid, -⟩ := hop (by simp [hp]) (by simp [hp])
  exact ⟨stage_addressFits hvalid, decodeWire_stageFrame (stage_addressFits hvalid)⟩

/-! ### The trace is never read (R44)

The idea: every function of the model commutes with putting older events before the trace. A function that looked at the
trace, or changed an old event, would not. -/

/-- `s` with the events `old` before its trace. -/
def State.after (old : List Event) (s : State) : State := { s with trace := old ++ s.trace }

@[simp] theorem State.after_cfg (old : List Event) (s : State) : (s.after old).cfg = s.cfg := rfl
@[simp] theorem State.after_ctl (old : List Event) (s : State) : (s.after old).ctl = s.ctl := rfl
@[simp] theorem State.after_dev (old : List Event) (s : State) : (s.after old).dev = s.dev := rfl
@[simp] theorem State.after_env (old : List Event) (s : State) : (s.after old).env = s.env := rfl
@[simp] theorem State.after_free (old : List Event) (s : State) : (s.after old).free = s.free := rfl
@[simp] theorem State.after_trace (old : List Event) (s : State) : (s.after old).trace = old ++ s.trace := rfl

/-- The same of the next state of an outcome, if it has one. -/
def outAfter (old : List Event) (o : Out) : Out := andThen o fun s => .next (s.after old)

/-- `f` gives the same outcome whatever older events stand before the trace, and leaves them there. -/
def TraceBlind (f : State → Out) : Prop := ∀ old s, f (s.after old) = outAfter old (f s)

/-- A trace-blind function appends to the trace, and after any other trace it appends the same. -/
theorem TraceBlind.appends {f : State → Out} (hf : TraceBlind f) {s t : State} (h : f s = .next t) (tr : List Event) :
    s.trace <+: t.trace ∧ f { s with trace := tr } = .next { t with trace := tr ++ newEvents s t } := by
  have hsplit : ∀ tr, f { s with trace := tr } = outAfter tr (f { s with trace := [] }) := fun tr => by
    rw [← hf]; simp [State.after]
  obtain ⟨u, hu, hut⟩ := andThen_eq_next.1 ((hsplit s.trace).symm.trans h)
  obtain rfl : u.after s.trace = t := by simpa using hut
  refine ⟨⟨u.trace, rfl⟩, ?_⟩
  rw [hsplit, hu]
  simp [outAfter, newEvents, State.after]

section Combinators
variable {f g : State → Out}

theorem TraceBlind.next {u : State → State} (hu : ∀ old s, u (s.after old) = (u s).after old) :
    TraceBlind fun s => .next (u s) :=
  fun old s => congrArg Host.Outcome.next (hu old s)

theorem TraceBlind.andThen (hf : TraceBlind f) (hg : TraceBlind g) : TraceBlind fun s => andThen (f s) g := by
  intro old s
  simp only [hf old s]
  cases f s with
  | next t => exact hg old t
  | fault r => rfl
  | refused r => rfl

theorem TraceBlind.ite {p : State → Prop} [DecidablePred p] (hp : ∀ old s, p (s.after old) ↔ p s)
    (hf : TraceBlind f) (hg : TraceBlind g) : TraceBlind fun s => if p s then f s else g s := by
  intro old s
  by_cases h : p s
  · simpa only [hp, h, if_true] using hf old s
  · simpa only [hp, h, if_false] using hg old s

theorem TraceBlind.inPhase (hf : TraceBlind f) (p : Phase) : TraceBlind (inPhase p f) :=
  .ite (fun _ _ => Iff.rfl) hf (.next fun _ _ => rfl)

end Combinators

/-! The named updates of a state. -/

/-- An event goes after the older ones. An update that ends in `emit` meets the hypothesis by `rfl`. -/
theorem emit_after (e : Event) {old : List Event} {s t : State} (h : t = s.after old) :
    emit e t = (emit e s).after old := by
  simp [h, emit, State.after]

theorem respond_after (old : List Event) (s : State) : respond (s.after old) = (respond s).after old :=
  emit_after _ rfl

theorem beginTransaction_after (c : WireCmd) (old : List Event) (s : State) :
    beginTransaction c (s.after old) = (beginTransaction c s).after old :=
  emit_after _ rfl

theorem failSlot_after (tx : Byte) (old : List Event) (s : State) :
    failSlot tx (s.after old) = (failSlot tx s).after old :=
  emit_after _ rfl

theorem doneSlot_after (sl : Slot) (last : Bool) (tx rx : Byte) (old : List Event) (s : State) :
    doneSlot sl last tx rx (s.after old) = (doneSlot sl last tx rx s).after old :=
  emit_after _ rfl

theorem releaseSelect_after (old : List Event) (s : State) :
    releaseSelect (s.after old) = (releaseSelect s).after old :=
  emit_after _ rfl

theorem settleDelay_after (old : List Event) (s : State) : settleDelay (s.after old) = (settleDelay s).after old :=
  emit_after _ rfl

theorem pollDelay_after (old : List Event) (s : State) : pollDelay (s.after old) = (pollDelay s).after old :=
  emit_after _ rfl

theorem afterEnd_after (old : List Event) (s : State) : afterEnd (s.after old) = (afterEnd s).after old := by
  unfold afterEnd
  cases hx : s.ctl.xok with
  | false => simp [State.after, hx, raise]
  | true =>
    cases hst : s.ctl.stage with
    | gate => simp [State.after, hx, hst]
    | cmd => cases hw : writeClass s.ctl.opr <;> simp [State.after, hx, hst, hw, raise]
    | poll => cases hv : pollVerdict s.cfg s.ctl.sr (s.ctl.polls + 1) <;> simp [State.after, hx, hst, hv, raise]

theorem endTransaction_after (old : List Event) (s : State) :
    endTransaction (s.after old) = (endTransaction s).after old := by
  rw [endTransaction, endTransaction, ← afterEnd_after, ← releaseSelect_after]; rfl

theorem acceptRequest_after (op : HostOp) (q : Operands) (old : List Event) (s : State) :
    acceptRequest op q (s.after old) = (acceptRequest op q s).after old := by
  unfold acceptRequest
  cases hv : validate s.cfg op q.addr (latchedLen op q) <;>
    simp [State.after, deviceTurn, completesNow, emit, raise, hv]

/-! Slots, transactions, operations, rows, steps. -/

theorem layout_after (op : WireOp) (old : List Event) (s : State) : layout op (s.after old) = layout op s := rfl

theorem runSlot_traceBlind (sl : Slot) (last : Bool) : TraceBlind (runSlot sl last) := by
  intro old s
  have hturn : deviceTurn (s.after old) = (deviceTurn s).after old := rfl
  have hanswer : nextAnswer ((deviceTurn s).after old) = nextAnswer (deviceTurn s) := rfl
  simp only [runSlot, hturn, hanswer, State.after_dev, State.after_cfg, State.after_free, failSlot_after,
    doneSlot_after]
  cases nextAnswer (deviceTurn s) with
  | fail => rfl
  | ok => cases h : (deviceTurn s).dev.refuses (Slot.tx s.cfg sl) <;> simp [h, outAfter, State.after]

theorem runSlots_traceBlind (slots : List Slot) : TraceBlind (runSlots slots) := by
  induction slots with
  | nil => exact .next fun _ _ => rfl
  | cons sl rest ih =>
    exact (runSlot_traceBlind sl rest.isEmpty).andThen (.ite (fun _ _ => Iff.rfl) ih (.next fun _ _ => rfl))

theorem transact_traceBlind (c : WireCmd) : TraceBlind (transact c) := by
  intro old s
  have hbody := (runSlots_traceBlind (layout c.op (beginTransaction c s))).andThen (.next endTransaction_after)
  simp only [transact, beginTransaction_after]
  exact hbody old (beginTransaction c s)

theorem wireTransaction_traceBlind (op : WireOp) (a : Word) : TraceBlind (wireTransaction op a) := by
  intro old s
  unfold wireTransaction
  rw [State.after_ctl]
  cases s.ctl.phase with
  | xbegin => exact transact_traceBlind _ old s
  | idle | xslot | xend | settle | pollwait | done => rfl

theorem commandTransaction_traceBlind (w : WireOp) : TraceBlind (commandTransaction w) :=
  fun old s => transact_traceBlind (wireCmd w s.ctl.addr) old s

theorem response_traceBlind : TraceBlind response := (TraceBlind.next respond_after).inPhase .done

theorem readingOperation_traceBlind (op : HostOp) (w : WireOp) (q : Operands) :
    TraceBlind (readingOperation op w q) := by
  intro old s
  have hrun := ((commandTransaction_traceBlind w).inPhase .xbegin).andThen response_traceBlind
  unfold readingOperation
  rw [State.after_ctl]
  cases s.ctl.phase with
  | idle =>
    simp only [acceptRequest_after]
    exact hrun old (acceptRequest op q s)
  | xbegin | xslot | xend | settle | pollwait | done => rfl

theorem pollLoop_traceBlind (n : Nat) : TraceBlind (pollLoop n) := by
  induction n with
  | zero => exact .next fun _ _ => rfl
  | succ n ih =>
    refine (transact_traceBlind _).andThen fun old s => ?_
    rw [State.after_ctl]
    cases s.ctl.phase with
    | pollwait =>
      simp only [pollDelay_after]
      exact ih old (pollDelay s)
    | idle | xbegin | xslot | xend | settle | done => rfl

theorem writingOperation_traceBlind (op : HostOp) (w : WireOp) (q : Operands) :
    TraceBlind (writingOperation op w q) := by
  intro old s
  have hgate := (transact_traceBlind (wireCmd .wren 0#32)).inPhase .xbegin
  have hcommand : TraceBlind fun s => commandTransaction w (settleDelay s) :=
    (TraceBlind.next settleDelay_after).andThen (commandTransaction_traceBlind w)
  have hpoll : TraceBlind fun s => pollLoop (pollReads s) s := fun old s => pollLoop_traceBlind (pollReads s) old s
  have hrun := hgate.andThen ((hcommand.inPhase .settle).andThen ((hpoll.inPhase .xbegin).andThen response_traceBlind))
  unfold writingOperation
  rw [State.after_ctl]
  cases s.ctl.phase with
  | idle =>
    simp only [acceptRequest_after]
    exact hrun old (acceptRequest op q s)
  | xbegin | xslot | xend | settle | pollwait | done => rfl

theorem exec_traceBlind (i : Instr) : TraceBlind (exec i) := by
  cases i with
  | read | pp | se | rdsr | wren | rdid | rdmdid | rdsr3 | rdlock => exact wireTransaction_traceBlind _ _
  | readIdJedec | readIdLegacy | readStatus | readStatus3 | readLock | readHost =>
    exact readingOperation_traceBlind _ _ _
  | program | eraseSector => exact writingOperation_traceBlind _ _ _

theorem idleRow_traceBlind : TraceBlind idleRow := by
  intro old s
  unfold idleRow
  rw [State.after_env]
  cases s.env.requests with
  | nil => rfl
  | cons q rest =>
    cases h : HostOp.ofSelector q.op with
    | none => simp [h, outAfter]
    | some op =>
      simp only [h]
      exact congrArg _ (acceptRequest_after op q.args old (popRequest s))

theorem slotRow_traceBlind : TraceBlind slotRow := by
  intro old s
  simp only [slotRow, layout_after, State.after_ctl]
  cases (layout (stageCommand s.ctl).op s)[s.ctl.slot.toNat]? with
  | none => rfl
  | some sl => exact runSlot_traceBlind sl _ old s

/-- No row of the transition table reads the trace (R208, R44). -/
theorem tick_traceBlind : TraceBlind tick := by
  intro old s
  unfold tick
  rw [State.after_ctl]
  cases s.ctl.phase with
  | idle => exact idleRow_traceBlind old s
  | xbegin => exact congrArg _ (beginTransaction_after _ old s)
  | xslot => exact slotRow_traceBlind old s
  | xend => exact congrArg _ (endTransaction_after old s)
  | settle => exact congrArg _ (settleDelay_after old s)
  | pollwait => exact congrArg _ (pollDelay_after old s)
  | done => exact congrArg _ (respond_after old s)

theorem fetched_after (old : List Event) (s : State) : fetched (s.after old) = (fetched s).after old := by
  unfold fetched
  rw [State.after_ctl]
  cases s.ctl.phase <;> rfl

/-- No step reads the trace: what starts depends on the phase, the requests and the registers only. -/
theorem step_traceBlind : TraceBlind step := by
  intro old s
  have hf : fetch (s.after old) = fetch s := rfl
  unfold step
  rw [hf]
  cases fetch s with
  | wait => exact tick_traceBlind old s
  | reject why => rfl
  | run i =>
    simp only [fetched_after]
    exact exec_traceBlind i old (fetched s)

/-- Settles O21: steps and rows commute with older events before the trace, so the events they append are the same. -/
theorem traceIsNeverRead : Obligations.TraceIsNeverRead :=
  fun _ _ tr => ⟨fun h => step_traceBlind.appends h tr, fun h => tick_traceBlind.appends h tr⟩

end Sys2Proof.Machine
end

section
/-! PROOFS. The statements of 30_encoding.md: the bytes of a command frame as numbers, and the address the device
rebuilds from them (R104, R151, R152). -/

namespace Sys2Proof

/-- R151: an address-bearing command has one of the four F4 opcodes. -/
theorem WireOp.opcode_mem_f4 {op : WireOp} (h : op.addressBearing = true) :
    op.opcode ∈ [0x03#8, 0x02#8, 0x20#8, 0x3D#8] := by
  cases op with
  | read | pp | se | rdlock => decide
  | rdsr | wren | rdid | rdmdid | rdsr3 => cases h

/-- R152: every other command has one of the five F1 opcodes. -/
theorem WireOp.opcode_mem_f1 {op : WireOp} (h : op.addressBearing = false) :
    op.opcode ∈ [0x05#8, 0x06#8, 0x9F#8, 0x90#8, 0x15#8] := by
  cases op with
  | rdsr | wren | rdid | rdmdid | rdsr3 => decide
  | read | pp | se | rdlock => cases h

/-- The three address bytes as numbers (R104). -/
theorem addressBytes_map_toNat (a : Word) :
    (addressBytes a).map BitVec.toNat = [a.toNat / 2 ^ 16 % 256, a.toNat / 2 ^ 8 % 256, a.toNat % 256] := by
  simp [addressBytes, Nat.shiftRight_eq_div_pow]

/-- R104's sum: no shift overflows the 32-bit container and the shifted bytes do not overlap, so or-ing them adds
them. -/
theorem assembleAddress_toNat (b1 b2 b3 : Byte) :
    (assembleAddress b1 b2 b3).toNat = b1.toNat * 65536 + b2.toNat * 256 + b3.toNat := by
  have h1 := b1.isLt
  have h2 := b2.isLt
  have h3 := b3.isLt
  have hi : (b1.setWidth 32 <<< 16).toNat = b1.toNat <<< 16 := by
    simp only [BitVec.toNat_shiftLeft, BitVec.toNat_setWidth, Nat.shiftLeft_eq]
    omega
  have mid : (b2.setWidth 32 <<< 8).toNat = b2.toNat <<< 8 := by
    simp only [BitVec.toNat_shiftLeft, BitVec.toNat_setWidth, Nat.shiftLeft_eq]
    omega
  have lo : (b3.setWidth 32).toNat = b3.toNat := by
    rw [BitVec.toNat_setWidth]
    omega
  have low16 : b2.toNat <<< 8 + b3.toNat < 2 ^ 16 := by
    rw [Nat.shiftLeft_eq]
    omega
  calc (assembleAddress b1 b2 b3).toNat
      = b1.toNat <<< 16 ||| (b2.toNat <<< 8 ||| b3.toNat) := by
        simp only [assembleAddress, BitVec.toNat_or, hi, mid, lo, Nat.or_assoc]
    _ = b1.toNat <<< 16 + (b2.toNat <<< 8 + b3.toNat) := by
        rw [← Nat.shiftLeft_add_eq_or_of_lt h3, ← Nat.shiftLeft_add_eq_or_of_lt low16]
    _ = b1.toNat * 65536 + b2.toNat * 256 + b3.toNat := by
        simp only [Nat.shiftLeft_eq]
        omega

end Sys2Proof

namespace Sys2Proof.Machine

/-- Settles O5: the opcode table for the two formats, the address bytes as numbers, and the sum the device forms of
them. -/
theorem framesAreBigEndian : Obligations.FramesAreBigEndian := by
  refine ⟨fun op a hb => ⟨WireOp.opcode_mem_f4 hb, ?_⟩, fun op a hb => ⟨WireOp.opcode_mem_f1 hb, ?_⟩,
    assembleAddress_toNat⟩
  · rw [WireCmd.frame_bytes]
    simp [wireCmd, hb, addressBytes_map_toNat]
  · rw [WireCmd.frame_bytes]
    simp [wireCmd, hb]

end Sys2Proof.Machine
end

section
/-! PROOFS. The statements of 60_exceptions.md: when an operation ends with `FlashTimeout` (R232). -/

namespace Sys2Proof.Machine

/-! ### Configuration, request and verdict -/

theorem busyMask_of_legal {cfg : Cfg} (h : cfg.Legal) : cfg.busyMask = 0x01#8 := by
  obtain ⟨-, -, hmask, -⟩ := h
  exact hmask

theorem pollMax_pos_of_legal {cfg : Cfg} (h : cfg.Legal) {n : Nat} (hn : cfg.pollMax = some n) : 0 < n := by
  obtain ⟨-, -, -, -, -, -, -, -, -, -, -, -, -, hbudget⟩ := h
  exact Nat.pos_of_ne_zero fun h0 => hbudget (h0 ▸ hn)

/-- With the mask of R6 the busy test reads bit 0 alone (R171). -/
theorem isBusy_eq_bit0 {cfg : Cfg} (h : cfg.Legal) (sr : Byte) : isBusy cfg sr = sr.getLsbD 0 := by
  rw [isBusy, busyMask_of_legal h, BitVec.and_one_eq_setWidth_ofBool_getLsbD]
  cases sr.getLsbD 0 <;> rfl

/-- PROGRAM and ERASE_SECTOR are the write-class operations (R191). -/
theorem writeClass_iff (op : HostOp) : writeClass op = true ↔ op = .program ∨ op = .eraseSector := by
  cases op <;> decide

theorem validate_ne_flashTimeout (cfg : Cfg) (op : HostOp) (addr : Word) (len : Nat) :
    validate cfg op addr len ≠ .flashTimeout := by
  rcases validate_cases cfg op addr len with h | h | h <;> simp [h]

/-- A status read ends the loop with `FlashTimeout` where BUSY shows and the budget is used up (R172). -/
theorem pollVerdict_eq_flashTimeout {cfg : Cfg} {sr : Byte} {k : Nat} :
    pollVerdict cfg sr k = some .flashTimeout ↔ isBusy cfg sr = true ∧ ∃ n, cfg.pollMax = some n ∧ n ≤ k := by
  unfold pollVerdict
  cases isBusy cfg sr with
  | false => simp
  | true => cases cfg.pollMax <;> simp

/-- A status read after which the loop goes on has not used up the budget (R172). -/
theorem lt_of_pollVerdict_eq_none {cfg : Cfg} {sr : Byte} {k n : Nat} (h : pollVerdict cfg sr k = none)
    (hn : cfg.pollMax = some n) : k < n := by
  unfold pollVerdict at h
  cases hb : isBusy cfg sr <;> simp_all

/-! ### Failed exchanges in a run of events -/

/-- No exchange of these events failed. -/
def FailureFree (events : List Event) : Prop := ∀ tx, Event.xfail tx ∉ events

@[simp] theorem failureFree_append (a b : List Event) :
    FailureFree (a ++ b) ↔ FailureFree a ∧ FailureFree b := by
  simp [FailureFree, forall_and]

@[simp] theorem failureFree_cons (e : Event) (a : List Event) :
    FailureFree (e :: a) ↔ (∀ tx, Event.xfail tx ≠ e) ∧ FailureFree a := by
  simp [FailureFree, forall_and]

@[simp] theorem failureFree_nil : FailureFree [] := by simp [FailureFree]

theorem failureFree_exchanges (tx rx : List Byte) : FailureFree (List.zipWith Event.x tx rx) := by
  simp [FailureFree, ← List.map_uncurry_zip_eq_zipWith]

/-- The body of a transaction has a failed exchange exactly if it ended early (R134). -/
theorem Body.failureFree_iff {tx : List Byte} {ok : Bool} {events : List Event} (h : Body tx ok events) :
    FailureFree events ↔ ok = true := by
  cases ok with
  | true =>
    obtain ⟨rx, -, rfl⟩ := h
    simp [failureFree_exchanges]
  | false =>
    obtain ⟨k, b, rx, -, -, rfl⟩ := h
    exact iff_of_false (fun hfree => hfree b (by simp)) (by simp)

theorem newEvents_of_trace_eq {s x y : State} {events : List Event} (hpre : s.trace <+: x.trace)
    (h : y.trace = x.trace ++ events) : newEvents s y = newEvents s x ++ events := by
  rw [newEvents, h, List.drop_append_of_le_length hpre.length_le, newEvents]

/-- What a transaction adds to the events since `s`: they end with `CS_HIGH` (R133), and a failure among them is one
from before or leaves `XOK` clear (R134). -/
theorem transact_newEvents {c : WireCmd} {s x y : State} (hpre : s.trace <+: x.trace) (h : transact c x = .next y) :
    s.trace <+: y.trace ∧ (∃ before, newEvents s y = before ++ [.csHigh]) ∧
      (FailureFree (newEvents s y) ↔ FailureFree (newEvents s x) ∧ y.ctl.xok = true) := by
  obtain ⟨events, htr, hbody⟩ := transact_trace h
  have hnew := newEvents_of_trace_eq hpre htr
  refine ⟨hpre.trans ⟨_, htr.symm⟩, ⟨newEvents s x ++ .csLow :: events, by simp [hnew]⟩, ?_⟩
  rw [hnew, failureFree_append, ← hbody.failureFree_iff]
  simp

/-! ### What a transaction captures in `RBUF` -/

/-- Only a response slot of the CMD stage writes `RBUF` (R103, R132). -/
theorem runSlot_rbuf {sl : Slot} {last : Bool} {s t : State} (h : runSlot sl last s = .next t)
    (hno : sl = .r → s.ctl.stage ≠ .cmd) : t.ctl.rbuf = s.ctl.rbuf := by
  rcases runSlot_cases h with ⟨-, rfl⟩ | ⟨-, -, rfl⟩
  · simp
  · cases sl with
    | c b | d | w b => rfl
    | r => cases hst : s.ctl.stage <;> simp_all [capture]

theorem runSlots_rbuf {slots : List Slot} {s t : State} (h : runSlots slots s = .next t)
    (hno : .r ∈ slots → s.ctl.stage ≠ .cmd) : t.ctl.rbuf = s.ctl.rbuf := by
  induction slots generalizing s with
  | nil => cases h; rfl
  | cons sl rest ih =>
    obtain ⟨u, h1, h2⟩ := andThen_eq_next.1 h
    have hu := runSlot_rbuf h1 fun hr => hno (by simp [hr])
    obtain ⟨-, -, hstage, -⟩ := runSlot_frame h1
    split at h2
    · exact (ih h2 fun hr => hstage ▸ hno (List.mem_cons_of_mem _ hr)).trans hu
    · cases h2; exact hu

/-- A transaction without response slots, or of another stage than CMD, leaves `RBUF` as it was. -/
theorem transact_rbuf {c : WireCmd} {s t : State} (h : transact c s = .next t)
    (hno : .r ∈ layout c.op (beginTransaction c s) → s.ctl.stage ≠ .cmd) : t.ctl.rbuf = s.ctl.rbuf := by
  obtain ⟨u, h1, rfl⟩ := transact_cases h
  obtain ⟨-, -, -, -, -, -, -, -, hrbuf, -⟩ := endTransaction_frame u
  exact hrbuf.trans ((runSlots_rbuf h1 hno).trans (beginTransaction_rbuf c s))

/-- PP and SE have no response slot (R106). -/
theorem layout_of_writeClass {op : HostOp} (hop : writeClass op = true) (s : State) :
    .r ∉ layout (commandOf op) s := by
  rcases (writeClass_iff op).1 hop with rfl | rfl <;> simp [layout, layoutTail, commandOf]

/-! ### The result of a write-class operation -/

/-- `RESULT` in `x` is `FlashTimeout` exactly for the cause R232 gives, in the terms of an operation accepted in `s`;
and after it the line is HIGH, the last event is its release, and there is no byte to return. -/
structure TimeoutExact (s x : State) : Prop where
  traced : s.trace <+: x.trace
  cause : x.ctl.result = .flashTimeout ↔
    FailureFree (newEvents s x) ∧ s.cfg.pollMax = some x.ctl.polls ∧ isBusy s.cfg x.ctl.sr = true
  released : x.ctl.result = .flashTimeout →
    x.ctl.cs = .high ∧ x.ctl.rbuf = [] ∧ ∃ before, newEvents s x = before ++ [.csHigh]

/-- A failed transaction ends the operation with `BusFault` (R134). -/
theorem transact_failed {c : WireCmd} {s t : State} (h : transact c s = .next t) (hx : t.ctl.xok = false) :
    t.ctl.result = .busFault := by
  rcases transact_successor h with h' | h' | h' | h' | h'
  · exact h'.2.2.1
  all_goals simp [hx] at h'

/-- After a failed transaction neither side of R232 holds. -/
theorem timeoutExact_of_failed {c : WireCmd} {s x y : State} (hpre : s.trace <+: x.trace)
    (h : transact c x = .next y) (hx : y.ctl.xok = false) : TimeoutExact s y := by
  obtain ⟨hpre', -, hfree⟩ := transact_newEvents hpre h
  have hresult := transact_failed h hx
  exact ⟨hpre', by simp [hresult, hfree, hx], by simp [hresult]⟩

/-! ### The poll loop -/

/-- A poll loop in progress, of an operation accepted in `s`: no exchange has failed, and the budget is not used up
(R172). -/
structure Polling (s x : State) : Prop where
  cfg_eq : x.cfg = s.cfg
  rbuf_eq : x.ctl.rbuf = []
  traced : s.trace <+: x.trace
  clean : FailureFree (newEvents s x)
  budget : ∀ n, s.cfg.pollMax = some n → x.ctl.polls < n

/-- The invariant of the loop: in progress, or ended as R232 says. -/
def PollInv (s x : State) : Prop := (x.ctl.phase = .done → TimeoutExact s x) ∧ (x.ctl.phase ≠ .done → Polling s x)

/-- The budget is used up at the `POLL_MAX`-th read and not before: of a read within the budget, the verdict is
`FlashTimeout` exactly if the read shows BUSY and is the `POLL_MAX`-th. -/
theorem pollVerdict_within_budget {cfg : Cfg} {sr : Byte} {k : Nat} (hbudget : ∀ n, cfg.pollMax = some n → k < n) :
    pollVerdict cfg sr (k + 1) = some .flashTimeout ↔ cfg.pollMax = some (k + 1) ∧ isBusy cfg sr = true := by
  rw [pollVerdict_eq_flashTimeout]
  constructor
  · rintro ⟨hb, n, hn, hle⟩
    have hlt := hbudget n hn
    exact ⟨by rw [hn]; congr 1; omega, hb⟩
  · rintro ⟨hn, hb⟩
    exact ⟨hb, _, hn, le_rfl⟩

theorem pollInv_transact {s x y : State} (hx : Polling s x) (hg : x.ctl.stage = .poll)
    (h : transact (wireCmd .rdsr 0#32) x = .next y) : PollInv s y := by
  obtain ⟨hpre, hends, hfree⟩ := transact_newEvents hx.traced h
  obtain ⟨hcfg, hcs, -⟩ := transact_frame h
  have hrbuf : y.ctl.rbuf = [] := (transact_rbuf h (by simp [hg])).trans hx.rbuf_eq
  rw [hx.cfg_eq] at hcfg
  have hsucc := transact_successor h
  simp only [hg, hx.cfg_eq, reduceCtorEq, false_and, and_false, false_or, true_and] at hsucc
  rcases hsucc with ⟨hok, hp, -⟩ | ⟨hok, -, hpolls, hv⟩
  · exact ⟨fun _ => timeoutExact_of_failed hx.traced h hok, fun hne => absurd hp hne⟩
  · split at hv
    next r hr =>
      obtain ⟨hp, rfl⟩ := hv
      refine ⟨fun _ => ⟨hpre, ?_, fun _ => ⟨hcs, hrbuf, hends⟩⟩, fun hne => absurd hp hne⟩
      have hverdict := pollVerdict_within_budget (sr := y.ctl.sr) hx.budget
      rw [hr, Option.some_inj] at hverdict
      rw [hverdict, hpolls]
      simp [hfree, hx.clean, hok]
    next hr =>
      refine ⟨by simp [hv.1], fun _ => ⟨hcfg, hrbuf, hpre, hfree.2 ⟨hx.clean, hok⟩, fun n hn => ?_⟩⟩
      rw [hpolls]
      exact lt_of_pollVerdict_eq_none hr hn

theorem polling_pollDelay {s x : State} (hx : Polling s x) : Polling s (pollDelay x) where
  cfg_eq := hx.cfg_eq
  rbuf_eq := hx.rbuf_eq
  traced := hx.traced.trans ⟨_, rfl⟩
  clean := by
    rw [newEvents_of_trace_eq hx.traced (pollDelay_trace x)]
    simp [hx.clean]
  budget := hx.budget

/-- A poll loop that starts within its budget and ends in `DONE` ends as R232 says. -/
theorem pollLoop_timeoutExact {n : Nat} {s x y : State} (hx : Polling s x) (hp : x.ctl.phase = .xbegin)
    (hg : x.ctl.stage = .poll) (h : pollLoop n x = .next y) (hd : y.ctl.phase = .done) : TimeoutExact s y := by
  have hinv : PollInv s x := ⟨by simp [hp], fun _ => hx⟩
  obtain ⟨⟨hdone, -⟩, -⟩ := pollLoop_induct (P := PollInv s)
    (fun u v hu hup hug huv => pollInv_transact (hu.2 (by simp [hup])) hug huv)
    (fun u hu hup _ => ⟨by simp, fun _ => polling_pollDelay (hu.2 (by simp [hup]))⟩) hinv hp hg h
  exact hdone hd

/-! ### The whole operation -/

/-- A valid write-class operation that has returned delivered its response from a state in which `RESULT` is as R232
says: the gate failed, the command failed, or the poll loop ended. -/
theorem writingOperation_timeoutExact {op : HostOp} {q : Operands} {s t : State} (hL : s.cfg.Legal)
    (hop : writeClass op = true) (hvalid : validate s.cfg op q.addr (latchedLen op q) = .ok)
    (h : writingOperation op (commandOf op) q s = .next t) (hidle : t.ctl.phase = .idle) :
    ∃ x, TimeoutExact s x ∧ t = respond x := by
  obtain ⟨-, ⟨hinvalid, -⟩ | ⟨u, -, hgate, h⟩⟩ := writingOperation_cases hop h
  · exact absurd hvalid hinvalid
  have hreq : newEvents s (acceptRequest op q s) = [.req op q.addr q.len q.wbuf] := by simp [newEvents]
  have hpre : s.trace <+: (acceptRequest op q s).trace := by simp
  obtain ⟨hpreu, -, hfreeu⟩ := transact_newEvents hpre hgate
  rcases h with ⟨hfail, -, rfl⟩ | ⟨v, hoku, -, hcmd, h⟩
  · exact ⟨u, timeoutExact_of_failed hpre hgate hfail, rfl⟩
  have hpre' : s.trace <+: (settleDelay u).trace := hpreu.trans ⟨_, rfl⟩
  obtain ⟨hprev, -, hfreev⟩ := transact_newEvents hpre' hcmd
  rcases h with ⟨hfail, -, rfl⟩ | ⟨x, hokv, hp, hg, hpolls, hloop, ⟨hd, rfl⟩ | ⟨hp', -, rfl⟩⟩
  · exact ⟨v, timeoutExact_of_failed hpre' hcmd hfail, rfl⟩
  · have hcfgu : u.cfg = s.cfg := (transact_frame hgate).1.trans (acceptRequest_cfg op q s)
    have hrbufu : u.ctl.rbuf = [] := by
      refine (transact_rbuf hgate ?_).trans (acceptRequest_rbuf op q s)
      simp [(acceptRequest_valid hvalid).2, hop]
    have hpolling : Polling s v := {
      cfg_eq := (transact_frame hcmd).1.trans hcfgu
      rbuf_eq := (transact_rbuf hcmd fun hr => absurd hr (layout_of_writeClass hop _)).trans hrbufu
      traced := hprev
      clean := by
        rw [hfreev, newEvents_of_trace_eq hpreu (settleDelay_trace u), failureFree_append, hfreeu, hreq]
        simp [hoku, hokv]
      budget := fun n hn => hpolls ▸ pollMax_pos_of_legal hL hn }
    exact ⟨x, pollLoop_timeoutExact hpolling hp hg hloop hd, rfl⟩
  · simp [hp'] at hidle

/-- An operation that is refused by validation, or that only reads, does not time out (R232). -/
theorem exec_not_flashTimeout {op : HostOp} {q : Operands} {s t : State} (h : exec (op.instr q) s = .next t)
    (hno : ¬(writeClass op = true ∧ validate s.cfg op q.addr (latchedLen op q) = .ok)) :
    t.ctl.result ≠ .flashTimeout := by
  have hinvalid (hv : validate s.cfg op q.addr (latchedLen op q) ≠ .ok) :
      (respond (acceptRequest op q s)).ctl.result ≠ .flashTimeout := by
    rw [respond_result, (acceptRequest_invalid hv).2]
    exact validate_ne_flashTimeout _ _ _ _
  rw [exec_hostOp] at h
  split at h
  next hop =>
    obtain ⟨-, ⟨hv, rfl⟩ | ⟨u, hv, -⟩⟩ := writingOperation_cases hop h
    · exact hinvalid hv
    · exact absurd ⟨hop, hv⟩ hno
  next hop =>
    obtain ⟨-, ⟨hv, rfl⟩ | ⟨u, hv, hread, -, rfl⟩⟩ := readingOperation_cases (by simpa using hop) h
    · exact hinvalid hv
    · have hstage : (acceptRequest op q s).ctl.stage = .cmd := by simp [(acceptRequest_valid hv).2, hop]
      rcases transact_successor hread with h' | h' | h' | h' | h'
      · simp [h']
      · simp [hstage] at h'
      · simp [h']
      · simp [hop] at h'
      · simp [hstage] at h'

/-- Settles O53: an invariant of the poll loop ties the verdict of its last status read to the budget, and the failed
exchanges of every transaction to `XOK`; no other operation has a poll loop. -/
theorem flashTimeoutExactlyAtTheEndOfTheBudget : Obligations.FlashTimeoutExactlyAtTheEndOfTheBudget := by
  intro s t op q _ hL h hidle
  by_cases hwv : writeClass op = true ∧ validate s.cfg op q.addr (latchedLen op q) = .ok
  · obtain ⟨hop, hvalid⟩ := hwv
    rw [exec_hostOp, if_pos hop] at h
    obtain ⟨x, hx, rfl⟩ := writingOperation_timeoutExact hL hop hvalid h hidle
    have hnew := newEvents_of_trace_eq hx.traced (respond_trace x)
    have hfree : FailureFree (newEvents s (respond x)) ↔ FailureFree (newEvents s x) := by
      simp [hnew]
    have hcause := hx.cause
    rw [← hfree, isBusy_eq_bit0 hL] at hcause
    refine ⟨⟨fun hr => ⟨(writeClass_iff op).1 hop, hvalid, hcause.1 hr⟩, fun hr => hcause.2 hr.2.2⟩, fun hr => ?_⟩
    obtain ⟨hcs, hrbuf, before, hbefore⟩ := hx.released hr
    obtain ⟨-, hbudget, -⟩ := hcause.1 hr
    rw [respond_result] at hr
    exact ⟨hcs, by simp [hbudget], before, by simp [hnew, hbefore, hr, hrbuf]⟩
  · have hr := exec_not_flashTimeout h hwv
    rw [writeClass_iff] at hwv
    exact ⟨⟨fun hr' => absurd hr' hr, fun ⟨hop, hvalid, _⟩ => absurd ⟨hop, hvalid⟩ hwv⟩, fun hr' => absurd hr' hr⟩

end Sys2Proof.Machine
end

section
/-! PROOFS. The statements of 30_encoding.md: decoder and encoder are inverse to each other (R102, R105, R111), the
reserved selectors (R112) and the layouts (R106). -/

namespace Sys2Proof

/-! ### From an instruction to its words and back -/

/-- The words of a wire command are the bytes of its frame (R102). -/
theorem encode_wireCmd (c : WireCmd) : encode c.instr = .wire (Machine.wireCmd c.op c.a).frame.bytes := by
  obtain ⟨op, a⟩ := c
  cases op <;> rfl

/-- The words of a host operation are its selector and its operands (R113). -/
theorem encode_hostOp (op : HostOp) (q : Operands) : encode (op.instr q) = .request ⟨op.selector, q⟩ := by
  cases op <;> rfl

/-- The frame of a command whose address fits decodes to that command: no byte is left over and none is missing. -/
theorem decode_frame_of_fits (op : WireOp) {a : Word} (h : addressFits a = true) :
    decode (.wire (Machine.wireCmd op a).frame.bytes) = .ok (Machine.wireCmd op a).instr := by
  have hd := decodeWire_frame_of_fits op h []
  rw [List.append_nil] at hd
  simp [decode, hd]

@[simp] theorem decode_selector (op : HostOp) (q : Operands) :
    decode (.request ⟨op.selector, q⟩) = .ok (op.instr q) := by
  simp [decode, decodeRequest]

/-- Settles O1: an address-bearing command is well formed exactly if its address fits, and then its frame decodes to
it; the other commands have a constant frame, and a request carries its operands as they are. -/
theorem decodeOfEncodeIsTheInstruction : Obligations.DecodeOfEncodeIsTheInstruction := by
  intro i hwf
  cases i with
  | read a => exact decode_frame_of_fits .read hwf
  | pp a => exact decode_frame_of_fits .pp hwf
  | se a => exact decode_frame_of_fits .se hwf
  | rdlock a => exact decode_frame_of_fits .rdlock hwf
  | rdsr => exact decode_frame_of_fits .rdsr addressFits_zero
  | wren => exact decode_frame_of_fits .wren addressFits_zero
  | rdid => exact decode_frame_of_fits .rdid addressFits_zero
  | rdmdid => exact decode_frame_of_fits .rdmdid addressFits_zero
  | rdsr3 => exact decode_frame_of_fits .rdsr3 addressFits_zero
  | readIdJedec q => exact decode_selector .readIdJedec q
  | readIdLegacy q => exact decode_selector .readIdLegacy q
  | readStatus q => exact decode_selector .readStatus q
  | readStatus3 q => exact decode_selector .readStatus3 q
  | readLock q => exact decode_selector .readLock q
  | readHost q => exact decode_selector .read q
  | program q => exact decode_selector .program q
  | eraseSector q => exact decode_selector .eraseSector q

/-! ### From words to the instruction and back -/

/-- The address the device rebuilds fits 24 bits (R104). -/
theorem addressFits_assembleAddress (b1 b2 b3 : Byte) : addressFits (assembleAddress b1 b2 b3) = true := by
  rw [addressFits_iff, assembleAddress_toNat]
  omega

/-- The address bytes of the address the device rebuilds are the bytes it was rebuilt from (R104). -/
theorem addressBytes_assembleAddress (b1 b2 b3 : Byte) : addressBytes (assembleAddress b1 b2 b3) = [b1, b2, b3] := by
  have hinj : Function.Injective (List.map (BitVec.toNat (w := 8))) :=
    List.map_injective_iff.2 fun _ _ => BitVec.eq_of_toNat_eq
  apply hinj
  rw [addressBytes_map_toNat, assembleAddress_toNat]
  simp only [List.map_cons, List.map_nil, List.cons.injEq, and_true]
  refine ⟨?_, ?_, ?_⟩ <;> omega

/-- What the device decodes has an address that fits, and the bytes it was decoded from are its frame followed by the
bytes that are left. -/
theorem decodeWire_inv {bytes : List Byte} {c : WireCmd} {further : List Byte}
    (h : decodeWire bytes = .ok (c, further)) :
    addressFits c.a = true ∧ bytes = (Machine.wireCmd c.op c.a).frame.bytes ++ further := by
  cases bytes with
  | nil => cases h
  | cons b rest =>
    simp only [decodeWire] at h
    split at h
    · cases h
    next op hop =>
      obtain rfl := WireOp.opcode_of_ofOpcode hop
      split at h
      next hb =>
        split at h
        · cases h
          refine ⟨addressFits_assembleAddress _ _ _, ?_⟩
          simp [WireCmd.frame_bytes, Machine.wireCmd, hb, addressBytes_assembleAddress]
        · cases h
      next hb =>
        cases h
        refine ⟨addressFits_zero, ?_⟩
        simp [WireCmd.frame_bytes, Machine.wireCmd, hb]

/-- A wire command is well formed if its address fits. -/
theorem wf_instr_of_fits {c : WireCmd} (h : addressFits c.a = true) : c.instr.wf = true := by
  obtain ⟨op, a⟩ := c
  cases op with
  | read | pp | se | rdlock => exact h
  | rdsr | wren | rdid | rdmdid | rdsr3 => rfl

@[simp] theorem wf_hostOp (op : HostOp) (q : Operands) : (op.instr q).wf = true := by
  cases op <;> rfl

/-- Settles O2: the frame of the decoded command is rebuilt byte by byte; a selector that decodes is its operation's. -/
theorem encodeOfDecodeIsTheCode : Obligations.EncodeOfDecodeIsTheCode := by
  intro code i h
  cases code with
  | wire bytes =>
    obtain ⟨c, hc, rfl⟩ := Machine.decode_wire_cases h
    obtain ⟨hfit, hbytes⟩ := decodeWire_inv hc
    exact ⟨wf_instr_of_fits hfit, by rw [encode_wireCmd, hbytes, List.append_nil]⟩
  | request q =>
    obtain ⟨op, hop, rfl⟩ := Machine.decode_request_cases h
    exact ⟨wf_hostOp _ _, by rw [encode_hostOp, ← HostOp.selector_of_ofSelector hop]⟩

/-- Settles O3: the decoder evaluated on each of the words. -/
theorem specWordsDecode : Obligations.SpecWordsDecode :=
  ⟨rfl, rfl, rfl, rfl, rfl, rfl, rfl, rfl, rfl, rfl, rfl⟩

/-! ### Reserved selectors and layouts -/

/-- A reserved selector is no operation's (R112): the selectors of R111 are 1 to 8. -/
theorem HostOp.ofSelector_reserved {b : BitVec 4} (h : b = 0x0#4 ∨ 9 ≤ b.toNat) : HostOp.ofSelector b = none := by
  cases hop : HostOp.ofSelector b with
  | none => rfl
  | some op =>
    obtain rfl := HostOp.selector_of_ofSelector hop
    obtain ⟨hlo, hhi⟩ := Laws.FrameLength.selector_bounds op
    rcases h with h | h
    · simp [h] at hlo
    · omega

theorem decode_reserved {q : Request} (h : q.op = 0x0#4 ∨ 9 ≤ q.op.toNat) :
    decode (.request q) = .error (.reservedSelector q.op) := by
  simp [decode, decodeRequest, HostOp.ofSelector_reserved h]

end Sys2Proof

namespace Sys2Proof.Machine

/-- Settles O4: the decoder answers the rejection, and a step and a row both look at the selector before anything
else. -/
theorem reservedSelectorIsRefused : Obligations.ReservedSelectorIsRefused := by
  intro s q rest hres hp hreq
  refine ⟨decode_reserved hres, ?_, ?_⟩
  · simp [step, fetch, hp, hreq, decode_reserved hres]
  · simp [tick, idleRow, hp, hreq, HostOp.ofSelector_reserved hres]

/-- Settles O6: the frame gives the command slots, and the constants of R6 the lengths of the tails. -/
theorem layoutTable : Obligations.LayoutTable := by
  intro s op a hL hframe
  obtain ⟨-, -, -, -, hjedec, -, hdummy3, hdummyLock, -⟩ := hL
  simp only [layout, hframe, WireCmd.frame_bytes]
  cases op with
  | read | pp | se | wren | rdsr | rdmdid => simp [wireCmd, WireOp.addressBearing, WireOp.opcode, layoutTail]
  | rdid => simp [wireCmd, WireOp.addressBearing, WireOp.opcode, layoutTail, hjedec, List.replicate]
  | rdsr3 => simp [wireCmd, WireOp.addressBearing, WireOp.opcode, layoutTail, hdummy3]
  | rdlock => simp [wireCmd, WireOp.addressBearing, WireOp.opcode, layoutTail, hdummyLock]

end Sys2Proof.Machine
end

section
/-! PROOFS. What every row keeps, every step keeps; and the invariants of the state: the configuration (R21), the select
line (I1), the latched request (R27, R195) and the form of the device (R71, R213). -/

namespace Sys2Proof.Machine

/-! ### From rows to steps -/

@[simp] theorem stageCommand_gate {r : Regs} (h : r.stage = .gate) : stageCommand r = wireCmd .wren 0#32 := by
  simp [stageCommand, h]

@[simp] theorem stageCommand_poll {r : Regs} (h : r.stage = .poll) : stageCommand r = wireCmd .rdsr 0#32 := by
  simp [stageCommand, h]

@[simp] theorem stageCommand_cmd {r : Regs} (h : r.stage = .cmd) :
    stageCommand r = wireCmd (commandOf r.opr) r.addr := by
  simp [stageCommand, h]

/-- What acceptance, the transaction of every stage, and the two delays keep, holds when the response is delivered, and
in an operation that goes on polling. -/
theorem exec_hostOp_stages {P : State → Prop} {op : HostOp} {q : Operands} {s t : State}
    (h : exec (op.instr q) s = .next t) (haccept : P (acceptRequest op q s))
    (htransact : ∀ x y, P x → x.ctl.phase = .xbegin → transact (stageCommand x.ctl) x = .next y → P y)
    (hsettle : ∀ x, P x → x.ctl.phase = .settle → P (settleDelay x))
    (hdelay : ∀ x, P x → x.ctl.phase = .pollwait → P (pollDelay x)) :
    ∃ u, P u ∧ (u.ctl.phase = .done ∧ t = respond u ∨ u.ctl.phase = .xbegin ∧ u.ctl.stage = .poll ∧ t = u) := by
  rw [exec_hostOp] at h
  split at h
  next hop =>
    obtain ⟨-, ⟨hv, rfl⟩ | ⟨u, hv, hgate, h⟩⟩ := writingOperation_cases hop h
    · exact ⟨_, haccept, .inl ⟨(acceptRequest_invalid hv).1, rfl⟩⟩
    obtain ⟨hp, hst⟩ := acceptRequest_valid hv (s := s)
    rw [if_pos hop] at hst
    have hu := htransact _ u haccept hp (by rwa [stageCommand_gate hst])
    rcases h with ⟨-, hd, rfl⟩ | ⟨v, -, hd, hcmd, h⟩
    · exact ⟨u, hu, .inl ⟨hd, rfl⟩⟩
    obtain ⟨-, -, hopr, haddr, -⟩ := transact_frame hgate
    have hv := htransact _ v (hsettle u hu hd) rfl
      (by rwa [stageCommand_cmd rfl, settleDelay_opr, settleDelay_addr, hopr, haddr, acceptRequest_opr,
        acceptRequest_addr])
    rcases h with ⟨-, hd', rfl⟩ | ⟨x, -, hp, hst, -, hloop, hx⟩
    · exact ⟨v, hv, .inl ⟨hd', rfl⟩⟩
    · exact ⟨x, (pollLoop_induct (P := P)
        (fun y z hy hp hst hyz => htransact y z hy hp (by rwa [stageCommand_poll hst]))
        (fun y hy hp _ => hdelay y hy hp) hv hp hst hloop).1, hx⟩
  next hop =>
    have hop : writeClass op = false := by simpa using hop
    obtain ⟨-, ⟨hv, rfl⟩ | ⟨u, hv, hread, hd, rfl⟩⟩ := readingOperation_cases hop h
    · exact ⟨_, haccept, .inl ⟨(acceptRequest_invalid hv).1, rfl⟩⟩
    obtain ⟨hp, hst⟩ := acceptRequest_valid hv (s := s)
    rw [hop] at hst
    exact ⟨u, htransact _ u haccept hp (by rwa [stageCommand_cmd hst, acceptRequest_opr, acceptRequest_addr]),
      .inl ⟨hd, rfl⟩⟩

/-- `P` holds again after every row of R208, each taken in its own phase, and after a request is taken from the host. -/
structure RowsKeep (P : State → Prop) : Prop where
  wait : ∀ s, P s → s.ctl.phase = .idle → P (deviceTurn s)
  pop : ∀ s, P s → s.ctl.phase = .idle → P (popRequest s)
  accept : ∀ op q s, P s → s.ctl.phase = .idle → P (acceptRequest op q s)
  start : ∀ c s, P s → s.ctl.phase = .xbegin → P (beginTransaction c s)
  failed : ∀ tx s, P s → s.ctl.phase = .xslot → P (failSlot tx (deviceTurn s))
  exchanged : ∀ sl last tx rx s, P s → s.ctl.phase = .xslot → P (doneSlot sl last tx rx (deviceTurn s))
  finish : ∀ s, P s → s.ctl.phase = .xend → P (endTransaction s)
  settle : ∀ s, P s → s.ctl.phase = .settle → P (settleDelay s)
  delay : ∀ s, P s → s.ctl.phase = .pollwait → P (pollDelay s)
  deliver : ∀ s, P s → s.ctl.phase = .done → P (respond s)

section Keep
variable {P Q : State → Prop}

theorem RowsKeep.and (hP : RowsKeep P) (hQ : RowsKeep Q) : RowsKeep fun s => P s ∧ Q s where
  wait s h hp := ⟨hP.wait s h.1 hp, hQ.wait s h.2 hp⟩
  pop s h hp := ⟨hP.pop s h.1 hp, hQ.pop s h.2 hp⟩
  accept op q s h hp := ⟨hP.accept op q s h.1 hp, hQ.accept op q s h.2 hp⟩
  start c s h hp := ⟨hP.start c s h.1 hp, hQ.start c s h.2 hp⟩
  failed tx s h hp := ⟨hP.failed tx s h.1 hp, hQ.failed tx s h.2 hp⟩
  exchanged sl last tx rx s h hp := ⟨hP.exchanged sl last tx rx s h.1 hp, hQ.exchanged sl last tx rx s h.2 hp⟩
  finish s h hp := ⟨hP.finish s h.1 hp, hQ.finish s h.2 hp⟩
  settle s h hp := ⟨hP.settle s h.1 hp, hQ.settle s h.2 hp⟩
  delay s h hp := ⟨hP.delay s h.1 hp, hQ.delay s h.2 hp⟩
  deliver s h hp := ⟨hP.deliver s h.1 hp, hQ.deliver s h.2 hp⟩

theorem RowsKeep.slot (hP : RowsKeep P) {sl : Slot} {last : Bool} {s t : State} (hs : P s)
    (hp : s.ctl.phase = .xslot) (h : runSlot sl last s = .next t) : P t := by
  rcases runSlot_cases h with ⟨-, rfl⟩ | ⟨-, -, rfl⟩
  · exact hP.failed _ s hs hp
  · exact hP.exchanged _ _ _ _ s hs hp

/-- A row keeps what every row keeps. -/
theorem RowsKeep.tick (hP : RowsKeep P) {s t : State} (hs : P s) (h : tick s = .next t) : P t := by
  unfold Machine.tick at h
  cases hp : s.ctl.phase <;> simp only [hp, Host.Outcome.next.injEq] at h
  case idle =>
    unfold idleRow at h
    split at h
    · cases h; exact hP.wait s hs hp
    · split at h
      · cases h
      · cases h; exact hP.accept _ _ _ (hP.pop s hs hp) hp
  case xslot =>
    unfold slotRow at h
    simp only at h
    split at h
    · cases h
    · exact hP.slot hs hp h
  case xbegin => exact h ▸ hP.start _ s hs hp
  case xend => exact h ▸ hP.finish s hs hp
  case settle => exact h ▸ hP.settle s hs hp
  case pollwait => exact h ▸ hP.delay s hs hp
  case done => exact h ▸ hP.deliver s hs hp

/-- The body of a transaction runs from `XSLOT`, each slot in `XSLOT`. -/
theorem RowsKeep.slots (hP : RowsKeep P) {slots : List Slot} {s t : State} (hs : P s) (hx : s.ctl.xok = true)
    (hp : s.ctl.phase = .xslot) (h : runSlots slots s = .next t) : P t := by
  induction slots generalizing s with
  | nil => cases h; exact hs
  | cons sl rest ih =>
    obtain ⟨u, h1, h2⟩ := andThen_eq_next.1 h
    have hu := hP.slot hs hp h1
    rcases runSlot_cases h1 with ⟨-, rfl⟩ | ⟨-, -, rfl⟩
    · simp only [failSlot_xok, Bool.false_eq_true, if_false, Host.Outcome.next.injEq] at h2
      exact h2 ▸ hu
    · simp only [doneSlot_xok, deviceTurn_ctl, hx, if_true] at h2
      cases rest with
      | nil => cases h2; exact hu
      | cons _ _ => exact ih hu (by simp [hx]) (by simp) h2

theorem RowsKeep.transact (hP : RowsKeep P) {c : WireCmd} {s t : State} (hs : P s) (hp : s.ctl.phase = .xbegin)
    (h : transact c s = .next t) : P t := by
  obtain ⟨u, h1, rfl⟩ := transact_cases h
  exact hP.finish u (hP.slots (hP.start c s hs hp) (by simp) (by simp) h1)
    (runSlots_phase (by simp) (layout_ne_nil _ _ _) h1)

theorem RowsKeep.exec (hP : RowsKeep P) {op : HostOp} {q : Operands} {s t : State} (hs : P s)
    (h : exec (op.instr q) s = .next t) : P t := by
  obtain ⟨u, hu, ⟨hd, rfl⟩ | ⟨-, -, rfl⟩⟩ := exec_hostOp_stages h (hP.accept op q s hs (exec_hostOp_idle h))
    (fun _ _ hx hp hxy => hP.transact hx hp hxy) hP.settle hP.delay
  · exact hP.deliver u hu hd
  · exact hu

/-- A step keeps what every row keeps. -/
theorem RowsKeep.step (hP : RowsKeep P) {s t : State} (hs : P s) (h : step s = .next t) : P t := by
  rcases step_cases h with ⟨op, q, _, hp, -, hrun⟩ | ⟨a, hp, hrun, -⟩ | ⟨hp, -, rfl⟩ | ⟨-, -, hrow⟩
  · exact hP.exec (hP.pop s hs hp) hrun
  · exact hP.transact hs hp hrun
  · exact hP.wait s hs hp
  · exact hP.tick hs hrow

theorem RowsKeep.step_or_tick (hP : RowsKeep P) {s t : State} (hs : P s)
    (h : Machine.step s = .next t ∨ Machine.tick s = .next t) : P t :=
  h.elim (hP.step hs) (hP.tick hs)

end Keep

/-! ### The configuration (R6, R21, R22) -/

theorem rowsKeep_cfg (cfg : Cfg) : RowsKeep fun s => s.cfg = cfg where
  wait s h _ := h
  pop s h _ := h
  accept op q s h _ := by simpa using h
  start c s h _ := h
  failed tx s h _ := h
  exchanged sl last tx rx s h _ := h
  finish s h _ := by simpa [endTransaction_frame] using h
  settle s h _ := h
  delay s h _ := h
  deliver s h _ := h

/-- Settles O14: no row writes the configuration. -/
theorem configurationNeverChanges : Obligations.ConfigurationNeverChanges :=
  fun s _ h => (rowsKeep_cfg s.cfg).step_or_tick rfl h

/-! ### The select line (I1) -/

/-- Where END can leave the sequencer (R208 rows T6, T7, T9, T10, T11). -/
theorem endTransaction_phase (s : State) :
    (endTransaction s).ctl.phase = .done ∨
      ((endTransaction s).ctl.phase = .settle ∧ (endTransaction s).ctl.stage = .gate) ∨
      ((endTransaction s).ctl.phase = .xbegin ∧ (endTransaction s).ctl.stage = .poll ∧ writeClass s.ctl.opr = true) ∨
      ((endTransaction s).ctl.phase = .pollwait ∧ (endTransaction s).ctl.stage = .poll ∧ s.ctl.stage = .poll) := by
  rcases endTransaction_successor s with h | h | h | h | ⟨-, hs, hst, -, h⟩
  · simp [h]
  · simp [h]
  · simp [h]
  · simp [h]
  · split at h <;> simp [h, hs, hst]

theorem rowsKeep_selectDiscipline : RowsKeep SelectDiscipline where
  wait s h _ := h
  pop s h _ := h
  accept op q s h hp := by
    have hcs : s.ctl.cs ≠ .low := by simp [h, hp]
    rcases acceptRequest_successor op q s with h' | h' <;> simp [SelectDiscipline, h', hcs]
  start c s _ _ := by simp [SelectDiscipline]
  failed tx s h hp := by simpa [SelectDiscipline, hp] using h
  exchanged sl last tx rx s h hp := by
    have hcs : s.ctl.cs = .low := by simp [h, hp]
    cases last <;> simp [SelectDiscipline, hcs]
  finish s _ _ := by
    obtain ⟨-, hcs, -⟩ := endTransaction_frame s
    rcases endTransaction_phase s with h | h | h | h <;> simp [SelectDiscipline, hcs, h]
  settle s h hp := by simpa [SelectDiscipline, hp] using h
  delay s h hp := by simpa [SelectDiscipline, hp] using h
  deliver s h hp := by simpa [SelectDiscipline, hp] using h

/-! ### The latched request (R27, R195, R211) -/

/-- Acceptance of a valid request latches it as validation has seen it. -/
theorem operationValid_acceptRequest (op : HostOp) (q : Operands) {s : State} (hL : s.cfg.Legal) :
    OperationValid (acceptRequest op q s) := by
  intro _ hd
  rcases acceptRequest_successor op q s with ⟨hv, hp, hst, -⟩ | ⟨-, hp, -⟩
  · have hlen := lenContainer_of_valid hL hv
    have hlength := (validate_eq_ok.1 hv).2
    refine ⟨by simpa [hlen] using hv, ?_, ?_, by simp [hp], by simp [hp]⟩
    · simp only [acceptRequest_opr, acceptRequest_wbuf, acceptRequest_cfg]
      rintro rfl
      exact of_not_not (of_decide_eq_false hlength)
    · intro hread
      rw [acceptRequest_opr] at hread
      simp [hst, hread]
  · exact absurd hp hd

/-- A row that keeps the latched request and goes to another phase of the operation keeps its validity, if the stage is
one that phase can have. -/
theorem OperationValid.row {s t : State} (h : OperationValid s) (hp : s.ctl.phase ≠ .idle ∧ s.ctl.phase ≠ .done)
    (hcfg : t.cfg = s.cfg) (hopr : t.ctl.opr = s.ctl.opr) (haddr : t.ctl.addr = s.ctl.addr)
    (hlen : t.ctl.len = s.ctl.len) (hwbuf : t.ctl.wbuf = s.ctl.wbuf)
    (hread : writeClass s.ctl.opr = false → s.ctl.stage = .cmd → t.ctl.phase = .done ∨ t.ctl.stage = .cmd)
    (hsettle : t.ctl.phase = .settle → t.ctl.stage = .gate)
    (hpoll : t.ctl.phase = .pollwait → t.ctl.stage = .poll) : OperationValid t := by
  intro _ hd
  obtain ⟨hv, hw, hr, -, -⟩ := h hp.1 hp.2
  rw [hcfg, hopr, haddr, hlen, hwbuf]
  exact ⟨hv, hw, fun hop => (hread hop (hr hop)).resolve_left hd, hsettle, hpoll⟩

theorem rowsKeep_operationValid : RowsKeep fun s => s.cfg.Legal ∧ OperationValid s where
  wait s h _ := h
  pop s h _ := h
  accept op q s h _ := ⟨by simpa using h.1, operationValid_acceptRequest op q h.1⟩
  start c s h hp := ⟨h.1, h.2.row (by simp [hp]) rfl rfl rfl rfl rfl (by simp) (by simp) (by simp)⟩
  failed tx s h hp := ⟨h.1, h.2.row (by simp [hp]) rfl rfl rfl rfl rfl (by simp) (by simp) (by simp)⟩
  exchanged sl last tx rx s h hp := by
    refine ⟨h.1, h.2.row (by simp [hp]) rfl (by simp) (by simp) (by simp) (by simp)
      (fun _ hst => .inr (by simpa using hst)) ?_ ?_⟩ <;> cases last <;> simp
  finish s h hp := by
    obtain ⟨hcfg, -, hopr, haddr, hlen, hwbuf, -⟩ := endTransaction_frame s
    refine ⟨hcfg ▸ h.1, h.2.row (by simp [hp]) hcfg hopr haddr hlen hwbuf ?_ ?_ ?_⟩
    · intro hread hst
      rcases endTransaction_successor s with h' | h' | h' | h' | h'
      · exact .inl h'.2.1
      · simp [hst] at h'
      · exact .inl h'.2.2.2.1
      · simp [hread] at h'
      · simp [hst] at h'
    · rcases endTransaction_phase s with h' | h' | h' | h' <;> simp [h']
    · rcases endTransaction_phase s with h' | h' | h' | h' <;> simp [h']
  settle s h hp := ⟨h.1, h.2.row (by simp [hp]) rfl rfl rfl rfl rfl (by simp) (by simp) (by simp)⟩
  delay s h hp := ⟨h.1, h.2.row (by simp [hp]) rfl rfl rfl rfl rfl (by simp) (by simp) (by simp)⟩
  deliver s h _ := ⟨h.1, fun hne => absurd rfl hne⟩

/-! ### The form of the device (R71) -/

/-- At the release of the select line the array stays as it is or becomes unknown. -/
theorem released_mem (cfg : Cfg) (n : Nat) (b : Bool) (d : Device) :
    (d.released cfg n b).mem = d.mem ∨
      (d.released cfg n b).mem = Memory.ofCells cfg.deviceSize (Config.freeCells n) := by
  unfold Device.released Device.act Device.startWrite
  grind [Device.havoc]

theorem sound_released {cfg : Cfg} {d : Device} (n : Nat) (b : Bool) (h : d.Sound cfg) :
    (d.released cfg n b).Sound cfg := by
  obtain ⟨hmem, hlock, hjedec, hlegacy⟩ := h
  obtain ⟨-, -, hrlock, hrjedec, hrlegacy, -⟩ := released_rest cfg n b d
  refine ⟨?_, by rwa [hrlock], by rwa [hrjedec], by rwa [hrlegacy]⟩
  rcases released_mem cfg n b d with h | h
  · rwa [h]
  · rw [h]; exact Memory.ofCells_wf _

theorem sound_deviceTurn {s : State} (h : s.dev.Sound s.cfg) : (deviceTurn s).dev.Sound s.cfg := by
  obtain ⟨hmem, hrest⟩ := h
  rw [deviceTurn_dev]
  split
  · exact ⟨Device.applyPending_wf hmem, hrest⟩
  · exact ⟨hmem, hrest⟩

theorem rowsKeep_sound : RowsKeep fun s => s.dev.Sound s.cfg where
  wait s h _ := sound_deviceTurn h
  pop s h _ := h
  accept op q s h _ := by simpa using sound_deviceTurn h
  start c s h _ := sound_deviceTurn h
  failed tx s h _ := sound_deviceTurn h
  exchanged sl last tx rx s h _ := sound_deviceTurn h
  finish s h _ := by
    obtain ⟨hcfg, -, -, -, -, -, -, -, -, -, -, -, -, -, -, hdev, -⟩ := endTransaction_frame s
    rw [hcfg, hdev]
    exact sound_released _ _ (sound_deviceTurn h)
  settle s h _ := sound_deviceTurn h
  delay s h _ := sound_deviceTurn h
  deliver s h _ := sound_deviceTurn h

/-! ### The invariant of the whole system (R213) -/

theorem systemInvariant_iff (s : State) :
    SystemInvariant s ↔ SelectDiscipline s ∧ (s.cfg.Legal ∧ OperationValid s) ∧ s.dev.Sound s.cfg := by
  unfold SystemInvariant
  tauto

theorem rowsKeep_systemInvariant : RowsKeep SystemInvariant := by
  rw [funext fun s => propext (systemInvariant_iff s)]
  exact rowsKeep_selectDiscipline.and (rowsKeep_operationValid.and rowsKeep_sound)

/-- Settles O11: a step keeps what every row keeps. -/
theorem stepKeepsTheInvariant : Obligations.StepKeepsTheInvariant :=
  fun _ _ hs h => rowsKeep_systemInvariant.step hs h

/-- Settles O12: every row keeps each part of the invariant. -/
theorem rowKeepsTheInvariant : Obligations.RowKeepsTheInvariant :=
  fun _ _ hs h => rowsKeep_systemInvariant.tick hs h

/-- Settles O9: the reset state evaluated. -/
theorem resetIsAtRestAndKeepsTheInvariant : Obligations.ResetIsAtRestAndKeepsTheInvariant :=
  ⟨⟨rfl, rfl⟩, rfl, rfl, by decide, by decide, by decide, by decide⟩

/-- Settles O10: power-up writes the controller, the two flags, what is pending and what the device has heard. -/
theorem powerUpClearsTheLatchAndKeepsTheArray : Obligations.PowerUpClearsTheLatchAndKeepsTheArray := by
  intro s
  refine ⟨rfl, fun _ => rfl, rfl, rfl, rfl, rfl, rfl, ⟨rfl, rfl⟩, rfl, rfl, ?_⟩
  rintro ⟨hL, -, -, hsound⟩
  exact ⟨hL, by simp [SelectDiscipline, State.powerUp, Regs.reset], fun hne => absurd rfl hne, hsound⟩

end Sys2Proof.Machine
end

section
/-! PROOFS. The statements of the step: it runs the instruction that starts in the state, and every step is a run of rows
of the transition table (R208, R212). -/

namespace Sys2Proof.Machine

/-! ### What a step runs -/

theorem step_idle_run {s : State} {q : Request} {rest : List Request} {i : Instr} (hp : s.ctl.phase = .idle)
    (hreq : s.env.requests = q :: rest) (hd : decode (.request q) = .ok i) : step s = exec i (popRequest s) := by
  simp [step, fetch, fetched, hp, hreq, hd]

theorem step_xbegin_run {s : State} {i : Instr} (hp : s.ctl.phase = .xbegin)
    (hd : decode (.wire (stageCommand s.ctl).frame.bytes) = .ok i) : step s = exec i s := by
  simp [step, fetch, fetched, hp, hd]

theorem step_wait_of_no_request {s : State} (hp : s.ctl.phase = .idle) (hreq : s.env.requests = []) :
    step s = tick s := by
  simp [step, fetch, hp, hreq]

theorem step_wait {s : State} (hi : s.ctl.phase ≠ .idle) (hx : s.ctl.phase ≠ .xbegin) : step s = tick s := by
  unfold step fetch
  cases hp : s.ctl.phase with
  | idle => exact absurd hp hi
  | xbegin => exact absurd hp hx
  | xslot | xend | settle | pollwait | done => rfl

/-- Settles O7: `fetch` by phase; the frame of a stage decodes to its command where the latched address fits. -/
theorem stepRunsTheFetchedInstruction : Obligations.StepRunsTheFetchedInstruction := by
  refine ⟨fun s q rest i hp hreq hd => step_idle_run hp hreq hd, fun s i hp hd => step_xbegin_run hp hd,
    fun s _ hfit => ?_, fun s hp hreq => step_wait_of_no_request hp hreq, fun s hi hx => step_wait hi hx⟩
  have hd := decodeWire_stageFrame (r := s.ctl) (fun _ => hfit) []
  rw [List.append_nil] at hd
  simp [decode, hd]

/-! ### Runs of rows -/

theorem ticks_add (m n : Nat) (s : State) : ticks (m + n) s = andThen (ticks m s) (ticks n) := by
  induction m generalizing s with
  | zero => simp [ticks]
  | succ m ih =>
    rw [Nat.succ_add, ticks, ticks, andThen_assoc]
    exact congrArg _ (funext ih)

/-- Some number of rows lead from `s` to `t`. -/
def Rows (s t : State) : Prop := ∃ n, ticks n s = .next t

theorem Rows.refl (s : State) : Rows s s := ⟨0, rfl⟩

theorem Rows.trans {s t u : State} (h : Rows s t) (h' : Rows t u) : Rows s u := by
  obtain ⟨m, hm⟩ := h
  obtain ⟨n, hn⟩ := h'
  exact ⟨m + n, by rw [ticks_add, hm, andThen_next, hn]⟩

/-- A run that starts with a row has at least one. -/
theorem Rows.after_row {s t u : State} (h : tick s = .next t) (h' : Rows t u) : ∃ n, 0 < n ∧ ticks n s = .next u := by
  obtain ⟨n, hn⟩ := h'
  exact ⟨n + 1, by omega, by rw [ticks, h, andThen_next, hn]⟩

theorem Rows.of_tick {s t : State} (h : tick s = .next t) : Rows s t :=
  ⟨1, by rw [ticks, h, andThen_next, ticks]⟩

/-- Rows lead from `s` to `t`, and `P` holds at both and at every state between. -/
inductive RowsIn (P : State → Prop) : State → State → Prop where
  | refl {s : State} (hs : P s) : RowsIn P s s
  | row {s t u : State} (hs : P s) (h : tick s = .next t) (h' : RowsIn P t u) : RowsIn P s u

theorem RowsIn.start {P : State → Prop} {s t : State} (h : RowsIn P s t) : P s := by
  cases h <;> assumption

theorem RowsIn.last {P : State → Prop} {s t : State} (h : RowsIn P s t) : P t := by
  induction h with
  | refl hs => exact hs
  | row _ _ _ ih => exact ih

theorem RowsIn.trans {P : State → Prop} {s t u : State} (h : RowsIn P s t) (h' : RowsIn P t u) : RowsIn P s u := by
  induction h with
  | refl => exact h'
  | row hs h _ ih => exact .row hs h (ih h')

theorem RowsIn.rows {P : State → Prop} {s t : State} (h : RowsIn P s t) : Rows s t := by
  induction h with
  | refl => exact Rows.refl _
  | row _ h _ ih => exact (Rows.of_tick h).trans ih

theorem tick_idle {s : State} {op : HostOp} {q : Operands} {rest : List Request} (hp : s.ctl.phase = .idle)
    (hreq : s.env.requests = ⟨op.selector, q⟩ :: rest) : tick s = .next (acceptRequest op q (popRequest s)) := by
  simp [tick, hp, idleRow, hreq]

theorem tick_xbegin {s : State} (hp : s.ctl.phase = .xbegin) :
    tick s = .next (beginTransaction (stageCommand s.ctl) s) := by simp [tick, hp]

theorem tick_xend {s : State} (hp : s.ctl.phase = .xend) : tick s = .next (endTransaction s) := by simp [tick, hp]

theorem tick_settle {s : State} (hp : s.ctl.phase = .settle) : tick s = .next (settleDelay s) := by simp [tick, hp]

theorem tick_pollwait {s : State} (hp : s.ctl.phase = .pollwait) : tick s = .next (pollDelay s) := by simp [tick, hp]

theorem tick_done {s : State} (hp : s.ctl.phase = .done) : tick s = .next (respond s) := by simp [tick, hp]

theorem tick_xslot {s : State} {sl : Slot} (hp : s.ctl.phase = .xslot)
    (hsl : (layout (stageCommand s.ctl).op s)[s.ctl.slot.toNat]? = some sl) :
    tick s = runSlot sl (decide (s.ctl.slot.toNat + 1 = (layout (stageCommand s.ctl).op s).length)) s := by
  simp only [tick, hp, slotRow, hsl]

/-! ### A transaction is a run of rows -/

/-- No slot changes the layout of the running transaction. -/
theorem layout_of_slotFrame {s t : State} (h : SlotFrame s t) :
    layout (stageCommand t.ctl).op t = layout (stageCommand s.ctl).op s := by
  obtain ⟨hcfg, -, hst, hopr, haddr, hlen, hwbuf, hframe, -⟩ := h
  simp only [layout, stageCommand, hcfg, hst, hopr, haddr, hlen, hwbuf, hframe]

/-- The body of a transaction is a run of rows, one for each slot: `SLOT` counts the slots behind it. It is 32 bits wide and does not wrap
before the last slot of a layout of at most 2^32 slots (log entry 15). -/
theorem rowsIn_of_runSlots {P : State → Prop}
    (hP : ∀ sl last u v, P u → runSlot sl last u = .next v → P v) {before rest : List Slot} {s t : State} (hs : P s)
    (hlayout : layout (stageCommand s.ctl).op s = before ++ rest) (hlen : (before ++ rest).length ≤ 2 ^ 32)
    (hslot : s.ctl.slot.toNat = before.length) (hp : s.ctl.phase = .xslot) (hx : s.ctl.xok = true)
    (h : runSlots rest s = .next t) : RowsIn P s t := by
  induction rest generalizing before s with
  | nil => cases h; exact .refl hs
  | cons sl rest ih =>
    obtain ⟨u, h1, h2⟩ := andThen_eq_next.1 h
    have hrow : tick s = .next u := by
      rw [← h1, tick_xslot (sl := sl) hp (by simp [hlayout, hslot]), hlayout, hslot]
      congr 1
      cases rest <;> simp
    have hu := hP _ _ _ _ hs h1
    have hframe := runSlot_frame h1
    rcases runSlot_cases h1 with ⟨-, rfl⟩ | ⟨-, -, rfl⟩
    · simp only [failSlot_xok, Bool.false_eq_true, if_false, Host.Outcome.next.injEq] at h2
      exact h2 ▸ .row hs hrow (.refl hu)
    · simp only [doneSlot_xok, deviceTurn_ctl, hx, if_true] at h2
      refine .row hs hrow ?_
      cases rest with
      | nil => cases h2; exact .refl hu
      | cons sl' rest' =>
        refine ih (before := before ++ [sl]) hu ?_ (by simpa using hlen) ?_ (by simp) (by simp [hx]) h2
        · rw [layout_of_slotFrame hframe, hlayout, List.append_assoc, List.singleton_append]
        · simp only [List.length_append, List.length_cons] at hlen
          rw [doneSlot_slot, deviceTurn_ctl, BitVec.toNat_add, hslot]
          simp only [BitVec.toNat_ofNat, List.length_append, List.length_singleton]
          omega

/-- The layout of the transaction that is due has at most 2^32 slots: READ is bounded by the device, PROGRAM by the page,
READ_ID_LEGACY by its 32-bit length. -/
theorem layout_length_le {s : State} (hinv : SystemInvariant s) (hp : s.ctl.phase = .xbegin) :
    (layout (stageCommand s.ctl).op (beginTransaction (stageCommand s.ctl) s)).length ≤ 2 ^ 32 := by
  obtain ⟨⟨hpage, -, -, -, hjedec, -, hdummy3, hdummyLock, hdummy, -, hsize, -⟩, -, hop, -⟩ := hinv
  obtain ⟨hvalid, hprogram, -⟩ := hop (by simp [hp]) (by simp [hp])
  have haddr := (validate_eq_ok.1 hvalid).1
  have hlen := s.ctl.len.isLt
  rw [layout_begin, slotsOf, List.length_append, List.length_map, WireCmd.frame_bytes]
  cases hst : s.ctl.stage with
  | gate => simp [stageCommand_gate hst, wireCmd, layoutTail, WireOp.addressBearing]
  | poll => simp [stageCommand_poll hst, wireCmd, layoutTail, WireOp.addressBearing]; omega
  | cmd =>
    rw [stageCommand_cmd hst]
    cases hopr : s.ctl.opr with
    | readIdJedec => simp [commandOf, wireCmd, layoutTail, WireOp.addressBearing, hjedec]
    | readIdLegacy => simp [commandOf, wireCmd, layoutTail, WireOp.addressBearing]; omega
    | readStatus => simp [commandOf, wireCmd, layoutTail, WireOp.addressBearing]; omega
    | readStatus3 => simp [commandOf, wireCmd, layoutTail, WireOp.addressBearing, hdummy3]
    | readLock => simp [commandOf, wireCmd, layoutTail, WireOp.addressBearing, hdummyLock]
    | read =>
      simp only [hopr, addressInvalid, Bool.or_eq_false_iff, decide_eq_false_iff_not] at haddr
      simp [commandOf, wireCmd, layoutTail, WireOp.addressBearing]
      omega
    | program =>
      have hwbuf := hprogram hopr
      simp [commandOf, wireCmd, layoutTail, WireOp.addressBearing, hwbuf, hpage]
    | eraseSector => simp [commandOf, wireCmd, layoutTail, WireOp.addressBearing]

/-- The transaction of the stage is BEGIN, its slots and END of the table (R141, R208). -/
theorem rows_of_transact {s t : State} (hinv : SystemInvariant s) (hp : s.ctl.phase = .xbegin)
    (h : transact (stageCommand s.ctl) s = .next t) : ∃ n, 0 < n ∧ ticks n s = .next t := by
  obtain ⟨u, hbody, rfl⟩ := transact_cases h
  have hbegin : stageCommand (beginTransaction (stageCommand s.ctl) s).ctl = stageCommand s.ctl := rfl
  have hend := runSlots_phase (by simp) (layout_ne_nil _ _ _) hbody
  refine Rows.after_row (tick_xbegin hp) (.trans ?_ (.of_tick (tick_xend hend)))
  exact (rowsIn_of_runSlots (P := fun _ => True) (before := []) (fun _ _ _ _ _ _ => trivial) trivial
    (by rw [hbegin]; rfl) (layout_length_le hinv hp) (by simp) (by simp) (by simp) hbody).rows

/-- Settles O8: a transaction is a run of rows, and so are acceptance, the delays and the response, of which the host
operations are made; the invariant, which every row keeps, bounds the layouts on the way. -/
theorem stepIsARunOfTheTransitionTable : Obligations.StepIsARunOfTheTransitionTable := by
  intro s t hinv h
  rcases step_cases h with ⟨op, q, rest, hp, hreq, hrun⟩ | ⟨a, hp, hrun, hcmd⟩ | ⟨hp, hreq, rfl⟩ | ⟨-, -, hrow⟩
  · have hacc := tick_idle hp hreq
    obtain ⟨u, ⟨-, hrows⟩, hu⟩ := exec_hostOp_stages
      (P := fun u => SystemInvariant u ∧ Rows (acceptRequest op q (popRequest s)) u) hrun
      ⟨rowsKeep_systemInvariant.tick hinv hacc, Rows.refl _⟩
      (fun x y hx hp hxy => by
        obtain ⟨n, -, hn⟩ := rows_of_transact hx.1 hp hxy
        exact ⟨rowsKeep_systemInvariant.transact hx.1 hp hxy, hx.2.trans ⟨n, hn⟩⟩)
      (fun x hx hp => ⟨rowsKeep_systemInvariant.settle x hx.1 hp, hx.2.trans (.of_tick (tick_settle hp))⟩)
      (fun x hx hp => ⟨rowsKeep_systemInvariant.delay x hx.1 hp, hx.2.trans (.of_tick (tick_pollwait hp))⟩)
    rcases hu with ⟨hd, rfl⟩ | ⟨-, -, rfl⟩
    · exact Rows.after_row hacc (hrows.trans (.of_tick (tick_done hd)))
    · exact Rows.after_row hacc hrows
  · obtain ⟨-, -, hop, -⟩ := id hinv
    obtain ⟨hvalid, -⟩ := hop (by simp [hp]) (by simp [hp])
    rw [← hcmd (stage_addressFits hvalid)] at hrun
    exact rows_of_transact hinv hp hrun
  · exact Rows.after_row (by simp [tick, hp, idleRow, hreq]) (Rows.refl _)
  · exact Rows.after_row hrow (Rows.refl _)

end Sys2Proof.Machine
end

section
/-! PROOFS. The invariants of the trace (R213): the select events alternate (I2), a failed exchange is reported (I3), the
gate precedes every write-class command (I4), opcodes open transactions (I7), requests and responses alternate (I8). -/

namespace Sys2Proof.Machine

/-! ### Select events alternate (I2) -/

theorem busLevel_append_singleton (trace : List Event) (e : Event) :
    busLevel (trace ++ [e]) = busLevel.busStep (busLevel trace) e := by
  simp [busLevel, List.foldl_append]

/-- The line is LOW in the phases of a transaction and HIGH in the others. -/
theorem SelectDiscipline.cs_eq {s : State} (h : SelectDiscipline s) :
    s.ctl.cs = if s.ctl.phase = .xslot ∨ s.ctl.phase = .xend then .low else .high := by
  cases hcs : s.ctl.cs with
  | low => rw [if_pos (h.1 hcs)]
  | high =>
    rw [if_neg]
    intro hp
    simp [h.2 hp] at hcs

/-- An event that the level of the line allows, and that leaves it where `CS` is then. -/
theorem busLevel_event {s t : State} {e : Event} (h : busLevel s.trace = some s.ctl.cs)
    (htr : t.trace = s.trace ++ [e]) (he : busLevel.busStep (some s.ctl.cs) e = some t.ctl.cs) :
    busLevel t.trace = some t.ctl.cs := by
  rw [htr, busLevel_append_singleton, h, he]

theorem rowsKeep_busLevel : RowsKeep fun s => SelectDiscipline s ∧ busLevel s.trace = some s.ctl.cs where
  wait s h _ := h
  pop s h _ := h
  accept op q s h hp := ⟨rowsKeep_selectDiscipline.accept op q s h.1 hp,
    busLevel_event h.2 (acceptRequest_trace op q s) (by simp [h.1.cs_eq, hp, busLevel.busStep])⟩
  start c s h hp := ⟨rowsKeep_selectDiscipline.start c s h.1 hp,
    busLevel_event h.2 (beginTransaction_trace c s) (by simp [h.1.cs_eq, hp, busLevel.busStep])⟩
  failed tx s h hp := ⟨rowsKeep_selectDiscipline.failed tx s h.1 hp,
    busLevel_event h.2 (failSlot_trace tx _) (by simp [h.1.cs_eq, hp, busLevel.busStep])⟩
  exchanged sl last tx rx s h hp := ⟨rowsKeep_selectDiscipline.exchanged sl last tx rx s h.1 hp,
    busLevel_event h.2 (doneSlot_trace sl last tx rx _) (by simp [h.1.cs_eq, hp, busLevel.busStep])⟩
  finish s h hp := ⟨rowsKeep_selectDiscipline.finish s h.1 hp,
    busLevel_event h.2 (endTransaction_trace s) (by simp [endTransaction_frame, h.1.cs_eq, hp, busLevel.busStep])⟩
  settle s h hp := ⟨rowsKeep_selectDiscipline.settle s h.1 hp,
    busLevel_event h.2 (settleDelay_trace s) (by simp [h.1.cs_eq, hp, busLevel.busStep])⟩
  delay s h hp := ⟨rowsKeep_selectDiscipline.delay s h.1 hp,
    busLevel_event h.2 (pollDelay_trace s) (by simp [h.1.cs_eq, hp, busLevel.busStep])⟩
  deliver s h hp := ⟨rowsKeep_selectDiscipline.deliver s h.1 hp,
    busLevel_event h.2 (respond_trace s) (by simp [h.1.cs_eq, hp, busLevel.busStep])⟩

/-- Settles O16: every row's one event is the one its phase allows, and the phase tells the level of the line. -/
theorem selectEventsAlternate : Obligations.SelectEventsAlternate :=
  fun _ _ hsel hlevel h => (rowsKeep_busLevel.step_or_tick ⟨hsel, hlevel⟩ h).2

/-! ### Requests and responses alternate (I8) -/

theorem openRequest_append_singleton (trace : List Event) (e : Event) :
    openRequest (trace ++ [e]) = openRequest.answerStep (openRequest trace) e := by
  simp [openRequest, List.foldl_append]

/-- A request is open exactly outside `IDLE`. -/
abbrev RequestOpen (s : State) : Prop := openRequest s.trace = some (decide (s.ctl.phase ≠ .idle))

/-- An event inside an operation keeps the request open. -/
theorem requestOpen_of_event {s t : State} {e : Event} (h : RequestOpen s) (hp : s.ctl.phase ≠ .idle)
    (hp' : t.ctl.phase ≠ .idle) (htr : t.trace = s.trace ++ [e])
    (he : openRequest.answerStep (some true) e = some true) : RequestOpen t := by
  simp only [RequestOpen, hp, ne_eq, not_false_eq_true, decide_true] at h
  simp [RequestOpen, hp', htr, openRequest_append_singleton, h, he]

theorem rowsKeep_requestOpen : RowsKeep RequestOpen where
  wait s h _ := h
  pop s h _ := h
  accept op q s h hp := by
    simp only [RequestOpen, hp, ne_eq, not_true_eq_false, decide_false] at h
    have hp' : (acceptRequest op q s).ctl.phase ≠ .idle := by
      rcases acceptRequest_successor op q s with h' | h' <;> simp [h']
    simp [RequestOpen, hp', openRequest_append_singleton, h, openRequest.answerStep]
  start c s h hp := requestOpen_of_event h (by simp [hp]) (by simp) (beginTransaction_trace c s) rfl
  failed tx s h hp := requestOpen_of_event h (by simp [hp]) (by simp) (failSlot_trace tx _) rfl
  exchanged sl last tx rx s h hp :=
    requestOpen_of_event h (by simp [hp]) (by cases last <;> simp) (doneSlot_trace sl last tx rx _) rfl
  finish s h hp := by
    refine requestOpen_of_event h (by simp [hp]) ?_ (endTransaction_trace s) rfl
    rcases endTransaction_phase s with h' | h' | h' | h' <;> simp [h']
  settle s h hp := requestOpen_of_event h (by simp [hp]) (by simp) (settleDelay_trace s) rfl
  delay s h hp := requestOpen_of_event h (by simp [hp]) (by simp) (pollDelay_trace s) rfl
  deliver s h hp := by
    simp only [RequestOpen, hp, ne_eq, reduceCtorEq, not_false_eq_true, decide_true] at h
    simp [RequestOpen, openRequest_append_singleton, h, openRequest.answerStep]

/-- Settles O20: `REQ` is emitted in `IDLE` only and leaves it, `RESP` in `DONE` only and returns to `IDLE`. -/
theorem eachRequestHasOneResponse : Obligations.EachRequestHasOneResponse :=
  fun _ _ hopen h => rowsKeep_requestOpen.step_or_tick hopen h

/-! ### A failed exchange is reported (I3) -/

/-- An event that a row appends keeps (I3), if it is the one that is due after a failure wherever one is due. -/
theorem FailuresReported.event {s t : State} {e : Event} (h : FailuresReported s) (htr : t.trace = s.trace ++ [e])
    (hfail : ∀ tx, e = .xfail tx → t.ctl.phase = .xend ∧ t.ctl.xok = false)
    (hend : s.ctl.phase = .xend → s.ctl.xok = false →
      e = .csHigh ∧ t.ctl.phase = .done ∧ t.ctl.result = .busFault)
    (hdone : s.ctl.phase = .done → s.ctl.result = .busFault → ∃ b, e = .resp .busFault b) : FailuresReported t := by
  intro before tx after heq
  rw [htr] at heq
  rcases List.eq_nil_or_concat after with rfl | ⟨after, e', rfl⟩
  · obtain ⟨-, he⟩ := List.append_inj' heq rfl
    obtain rfl : e = .xfail tx := by simpa using he
    exact .inr (.inl ⟨rfl, hfail tx rfl⟩)
  · rw [List.concat_eq_append, ← List.cons_append, ← List.append_assoc] at heq
    obtain ⟨hold, he⟩ := List.append_inj' heq rfl
    obtain rfl : e = e' := by simpa using he
    rcases h before tx after hold with ⟨b, rest, rfl⟩ | ⟨rfl, hp, hx⟩ | ⟨rfl, hp, hr⟩
    · exact .inl ⟨b, rest ++ [e], by simp⟩
    · obtain ⟨rfl, hp', hr'⟩ := hend hp hx
      exact .inr (.inr ⟨by simp, hp', hr'⟩)
    · obtain ⟨b, rfl⟩ := hdone hp hr
      exact .inl ⟨b, [], by simp⟩

/-- Where no failure can be due, the registers do not matter. -/
theorem FailuresReported.quiet {s t : State} (h : FailuresReported s) (hp : s.ctl.phase = .idle)
    (htr : t.trace = s.trace) : FailuresReported t := by
  intro before tx after heq
  rcases h before tx after (htr ▸ heq) with h | ⟨-, hp', -⟩ | ⟨-, hp', -⟩
  · exact .inl h
  · simp [hp] at hp'
  · simp [hp] at hp'

theorem rowsKeep_failuresReported : RowsKeep FailuresReported where
  wait s h hp := h.quiet hp rfl
  pop s h hp := h.quiet hp rfl
  accept op q s h hp := h.event (acceptRequest_trace op q s) (by simp) (by simp [hp]) (by simp [hp])
  start c s h hp := h.event (beginTransaction_trace c s) (by simp) (by simp [hp]) (by simp [hp])
  failed tx s h hp := h.event (failSlot_trace tx _) (by simp) (by simp [hp]) (by simp [hp])
  exchanged sl last tx rx s h hp := h.event (doneSlot_trace sl last tx rx _) (by simp) (by simp [hp]) (by simp [hp])
  finish s h hp := by
    refine h.event (endTransaction_trace s) (by simp) (fun _ hx => ⟨rfl, ?_⟩) (by simp [hp])
    rcases endTransaction_successor s with h' | h' | h' | h' | h'
    · exact ⟨h'.2.1, h'.2.2.1⟩
    all_goals simp [hx] at h'
  settle s h hp := h.event (settleDelay_trace s) (by simp) (by simp [hp]) (by simp [hp])
  delay s h hp := h.event (pollDelay_trace s) (by simp) (by simp [hp]) (by simp [hp])
  deliver s h hp := h.event (respond_trace s) (by simp) (by simp [hp]) (fun _ hr => ⟨s.ctl.rbuf, by rw [hr]⟩)

/-- Settles O17: a failed slot goes to `XEND`, END with `XOK` clear to `DONE` with `BusFault`, and `DONE` responds. -/
theorem failedExchangeReleasesThenReports : Obligations.FailedExchangeReleasesThenReports :=
  fun _ _ hrep h => rowsKeep_failuresReported.step_or_tick hrep h

/-! ### The opening of a transaction -/

/-- An event from inside a transaction: neither a further `CS_LOW` nor a delay. -/
def Event.Inner (e : Event) : Prop := e ≠ .csLow ∧ ∀ k, e ≠ .delay k

theorem not_mem_of_inner {rest : List Event} (h : ∀ x ∈ rest, x.Inner) : .csLow ∉ rest :=
  fun hmem => (h _ hmem).1 rfl

theorem inner_exchanges (tx rx : List Byte) : ∀ x ∈ List.zipWith Event.x tx rx, x.Inner := by
  intro x hx
  rw [← List.map_uncurry_zip_eq_zipWith] at hx
  obtain ⟨_, -, rfl⟩ := List.mem_map.1 hx
  exact ⟨nofun, nofun⟩

/-- A transaction is `CS_LOW`, an exchange or a failed exchange of its opcode, and more from inside it. -/
theorem transact_opening {c : WireCmd} {s t : State} (h : transact c s = .next t) :
    ∃ e rest, t.trace = s.trace ++ .csLow :: e :: rest ∧ e.sends c.op.opcode ∧ ∀ x ∈ rest, x.Inner := by
  obtain ⟨events, htr, hbody⟩ := transact_trace h
  obtain ⟨tail, hhead⟩ := slotsOf_head s.cfg c s.ctl.len.toNat s.ctl.wbuf
  rw [layout_begin, hhead] at hbody
  simp only [List.map_cons, Slot.tx] at hbody
  have hhigh : Event.csHigh.Inner := ⟨nofun, nofun⟩
  cases hok : t.ctl.xok with
  | true =>
    rw [hok] at hbody
    obtain ⟨rx, hlen, rfl⟩ := hbody
    cases rx with
    | nil => simp at hlen
    | cons r rx =>
      exact ⟨.x c.op.opcode r, List.zipWith Event.x (tail.map (Slot.tx s.cfg)) rx ++ [.csHigh], by simpa using htr,
        .inr ⟨r, rfl⟩, List.forall_mem_append.2 ⟨inner_exchanges _ _, List.forall_mem_singleton.2 hhigh⟩⟩
  | false =>
    rw [hok] at hbody
    obtain ⟨k, b, rx, hk, hlen, rfl⟩ := hbody
    cases rx with
    | nil =>
      obtain rfl : k = 0 := by simpa using hlen.symm
      obtain rfl : c.op.opcode = b := by simpa using hk
      exact ⟨.xfail c.op.opcode, [.csHigh], by simpa using htr, .inl rfl, List.forall_mem_singleton.2 hhigh⟩
    | cons r rx =>
      obtain ⟨k, rfl⟩ : ∃ k', k = k' + 1 := ⟨rx.length, by simpa using hlen.symm⟩
      exact ⟨.x c.op.opcode r, List.zipWith Event.x ((tail.map (Slot.tx s.cfg)).take k) rx ++ [.xfail b, .csHigh],
        by simpa using htr, .inr ⟨r, rfl⟩,
        List.forall_mem_append.2 ⟨inner_exchanges _ _, by simp [Event.Inner]⟩⟩

/-- A transaction that went through exchanged the bytes of its layout (R131, R141). -/
theorem transact_exchanged {c : WireCmd} {s t : State} (h : transact c s = .next t) (hx : t.ctl.xok = true) :
    ∃ body, Exchanged (sentOf s.cfg c s.ctl.len.toNat s.ctl.wbuf) body ∧ t.trace = s.trace ++ body := by
  obtain ⟨events, htr, hbody⟩ := transact_trace h
  rw [layout_begin, hx] at hbody
  obtain ⟨rx, hlen, rfl⟩ := hbody
  exact ⟨_, .zipWith hlen, htr⟩

/-! ### Steps from where steps end -/

/-- `P` holds again after every part of an operation, each in its own phase: for the invariants that speak of whole
transactions. -/
structure PartsKeep (P : State → Prop) : Prop where
  wait : ∀ s, P s → s.ctl.phase = .idle → P (deviceTurn s)
  pop : ∀ s, P s → s.ctl.phase = .idle → P (popRequest s)
  accept : ∀ op q s, P s → s.ctl.phase = .idle → P (acceptRequest op q s)
  transact : ∀ c s t, P s → s.ctl.phase = .xbegin → c.op = (stageCommand s.ctl).op → transact c s = .next t → P t
  settle : ∀ s, P s → s.ctl.phase = .settle → P (settleDelay s)
  delay : ∀ s, P s → s.ctl.phase = .pollwait → P (pollDelay s)
  deliver : ∀ s, P s → s.ctl.phase = .done → P (respond s)

theorem PartsKeep.exec {P : State → Prop} (hP : PartsKeep P) {op : HostOp} {q : Operands} {s t : State} (hs : P s)
    (h : exec (op.instr q) s = .next t) : P t := by
  obtain ⟨u, hu, ⟨hd, rfl⟩ | ⟨-, -, rfl⟩⟩ := exec_hostOp_stages h (hP.accept op q s hs (exec_hostOp_idle h))
    (fun _ _ hx hp hxy => hP.transact _ _ _ hx hp rfl hxy) hP.settle hP.delay
  · exact hP.deliver u hu hd
  · exact hu

/-- A host operation ends in `IDLE` or is left before the next status read of its poll. -/
theorem exec_atStepEnd {op : HostOp} {q : Operands} {s t : State} (h : exec (op.instr q) s = .next t) :
    AtStepEnd t := by
  obtain ⟨u, -, ⟨-, rfl⟩ | ⟨hp, hst, rfl⟩⟩ := exec_hostOp_stages (P := fun _ => True) h trivial
    (fun _ _ _ _ _ => trivial) (fun _ _ _ => trivial) (fun _ _ _ => trivial)
  · exact .inl rfl
  · exact .inr ⟨hst, .inl hp⟩

/-- A status read of the poll ends between two transactions of it, or in `DONE`. -/
theorem transact_atStepEnd {c : WireCmd} {s t : State} (hst : s.ctl.stage = .poll) (h : transact c s = .next t) :
    AtStepEnd t := by
  rcases transact_successor h with h' | h' | h' | h' | ⟨-, -, hst', -, h'⟩
  · exact .inr ⟨h'.2.2.2.1.trans hst, .inr (.inr h'.2.1)⟩
  · simp [hst] at h'
  · simp [hst] at h'
  · simp [hst] at h'
  · split at h'
    · exact .inr ⟨hst', .inr (.inr h'.1)⟩
    · exact .inr ⟨hst', .inr (.inl h'.1)⟩

/-- A step from where steps end is one part of an operation or a whole operation, and ends where steps end. -/
theorem PartsKeep.step {P : State → Prop} (hP : PartsKeep P) {s t : State} (hend : AtStepEnd s) (hs : P s)
    (h : step s = .next t) : AtStepEnd t ∧ P t := by
  rcases step_cases h with ⟨op, q, _, hp, -, hrun⟩ | ⟨a, hp, hrun, -⟩ | ⟨hp, -, rfl⟩ | ⟨hi, hb, hrow⟩
  · exact ⟨exec_atStepEnd hrun, hP.exec (hP.pop s hs hp) hrun⟩
  · have hst : s.ctl.stage = .poll := by
      rcases hend with hi | ⟨hst, -⟩
      · simp [hp] at hi
      · exact hst
    exact ⟨transact_atStepEnd hst hrun, hP.transact _ _ _ hs hp (wireCmd_op _ a) hrun⟩
  · exact ⟨.inl hp, hP.wait s hs hp⟩
  · rcases hend with hp | ⟨hst, hp | hp | hp⟩
    · exact absurd hp hi
    · exact absurd hp hb
    · rw [tick_pollwait hp] at hrow
      cases hrow
      exact ⟨.inr ⟨hst, .inl rfl⟩, hP.delay s hs hp⟩
    · rw [tick_done hp] at hrow
      cases hrow
      exact ⟨.inl rfl, hP.deliver s hs hp⟩

/-- Where a step ends, whatever it was (log entries 1 and 10). -/
theorem step_atStepEnd {s t : State} (hend : AtStepEnd s) (h : step s = .next t) : AtStepEnd t :=
  (PartsKeep.step (P := fun _ => True) ⟨fun _ _ _ => trivial, fun _ _ _ => trivial, fun _ _ _ _ _ => trivial,
    fun _ _ _ _ _ _ _ => trivial, fun _ _ _ => trivial, fun _ _ _ => trivial, fun _ _ _ => trivial⟩ hend trivial h).1

/-! ### Opcodes open transactions (I7) -/

theorem OpcodesOpen.append {a b : List Event} (ha : OpcodesOpen a) (hb : OpcodesOpen b) : OpcodesOpen (a ++ b) := by
  intro before after heq
  rcases List.append_eq_append_iff.1 heq with ⟨a', rfl, hb'⟩ | ⟨c', rfl, hc⟩
  · exact hb a' after hb'
  · cases c' with
    | nil => exact hb [] after (by simpa using hc.symm)
    | cons x c' =>
      obtain ⟨rfl, rfl⟩ := List.cons.inj hc
      obtain ⟨e, rest, op, rfl, hsends⟩ := ha before c' rfl
      exact ⟨e, rest ++ b, op, rfl, hsends⟩

/-- Events without `CS_LOW` open nothing. -/
theorem opcodesOpen_of_no_csLow {b : List Event} (h : .csLow ∉ b) : OpcodesOpen b := by
  rintro before after rfl
  simp at h

theorem opcodesOpen_transaction {e : Event} {op : WireOp} {rest : List Event} (he : e.sends op.opcode)
    (hrest : .csLow ∉ rest) : OpcodesOpen (.csLow :: e :: rest) := by
  have hne : e ≠ .csLow := by rcases he with rfl | ⟨_, rfl⟩ <;> simp
  intro before after heq
  cases before with
  | nil => exact ⟨e, rest, op, by simpa using heq.symm, he⟩
  | cons x before =>
    have hmem : Event.csLow ∈ e :: rest := by
      rw [(List.cons.inj heq).2]
      simp
    simp [hne.symm, hrest] at hmem

theorem partsKeep_opcodesOpen : PartsKeep fun s => OpcodesOpen s.trace where
  wait s h _ := h
  pop s h _ := h
  accept op q s h _ := by
    rw [acceptRequest_trace]
    exact h.append (opcodesOpen_of_no_csLow (by simp))
  transact c s t h _ _ hrun := by
    obtain ⟨e, rest, htr, he, hrest⟩ := transact_opening hrun
    rw [htr]
    exact h.append (opcodesOpen_transaction he (not_mem_of_inner hrest))
  settle s h _ := h.append (opcodesOpen_of_no_csLow (by simp))
  delay s h _ := h.append (opcodesOpen_of_no_csLow (by simp))
  deliver s h _ := h.append (opcodesOpen_of_no_csLow (by simp))

/-- Settles O19: only a transaction emits `CS_LOW`, and its first exchange sends the opcode of its command. -/
theorem onlyTheNineOpcodesOpenATransaction : Obligations.OnlyTheNineOpcodesOpenATransaction :=
  fun _ _ hend hopen h => partsKeep_opcodesOpen.step hend hopen h

/-! ### The gate precedes every write-class command (I4) -/

/-- New events keep (I4) if they do not start with an exchange, and a write-class transaction among them stands after
the gate. -/
theorem GatePrecedesWrites.append {a b : List Event} (ha : GatePrecedesWrites a)
    (hfirst : ∀ e rest tx, b = e :: rest → ¬ e.sends tx)
    (hb : ∀ before e after tx, b = before ++ .csLow :: e :: after → e.sends tx → tx = 0x02#8 ∨ tx = 0x20#8 →
      ∃ earlier rx, a ++ before = earlier ++ GateEvents rx) : GatePrecedesWrites (a ++ b) := by
  intro before e after tx heq hsends htx
  rcases List.append_eq_append_iff.1 heq with ⟨a', rfl, hb'⟩ | ⟨c', rfl, hc⟩
  · exact hb a' e after tx hb' hsends htx
  · match c', hc with
    | [], hc =>
      obtain ⟨earlier, rx, h⟩ := hb [] e after tx (by simpa using hc.symm) hsends htx
      exact ⟨earlier, rx, by simpa using h⟩
    | [_], hc => exact absurd hsends (hfirst e after tx (by simpa using (List.cons.inj hc).2.symm))
    | x :: y :: c', hc =>
      obtain ⟨hx, hc⟩ := List.cons.inj hc
      obtain ⟨rfl, rfl⟩ := List.cons.inj hc
      exact ha before e c' tx (by rw [hx]) hsends htx

/-- An event that is neither `CS_LOW` nor an exchange keeps (I4). -/
theorem GatePrecedesWrites.event {a : List Event} (ha : GatePrecedesWrites a) {e : Event}
    (hsends : ∀ tx, ¬ e.sends tx) (hlow : e ≠ .csLow) : GatePrecedesWrites (a ++ [e]) := by
  refine ha.append (fun e' rest tx heq => ?_) (fun before e' after tx heq => ?_)
  · obtain ⟨rfl, -⟩ := List.cons.inj heq
    exact hsends tx
  · have hmem : Event.csLow ∈ [e] := by rw [heq]; simp
    simp [hlow.symm] at hmem

/-- (I4), and what an operation in progress knows of the events before it: after the gate the three of WREN, and before a
write-class command the gate and the settle delay. -/
structure GateKept (s : State) : Prop where
  writes : GatePrecedesWrites s.trace
  settle : s.ctl.phase = .settle → ∃ earlier rx, s.trace = earlier ++ [.csLow, .x 0x06#8 rx, .csHigh]
  command : s.ctl.phase = .xbegin → s.ctl.stage = .cmd → writeClass s.ctl.opr = true →
    ∃ earlier rx, s.trace = earlier ++ GateEvents rx
  poll : s.ctl.phase = .pollwait → s.ctl.stage = .poll

/-- The command of a stage is a write-class one in the CMD stage of a write-class operation only (R111, R141). -/
theorem stageCommand_writes {r : Regs} (h : (stageCommand r).op.opcode = 0x02#8 ∨ (stageCommand r).op.opcode = 0x20#8) :
    r.stage = .cmd ∧ writeClass r.opr = true := by
  cases hst : r.stage with
  | gate | poll => simp [stageCommand, hst, wireCmd, WireOp.opcode] at h
  | cmd =>
    rw [stageCommand_cmd hst, wireCmd_op] at h
    refine ⟨rfl, ?_⟩
    cases hopr : r.opr with
    | program | eraseSector => rfl
    | readIdJedec | readIdLegacy | readStatus | readStatus3 | readLock | read =>
      simp [hopr, commandOf, WireOp.opcode] at h

/-- The three events of a gate that went through (R185). -/
theorem transact_wren_trace {c : WireCmd} {s t : State} (hc : c.op = .wren) (h : transact c s = .next t)
    (hx : t.ctl.xok = true) : ∃ rx, t.trace = s.trace ++ [.csLow, .x 0x06#8 rx, .csHigh] := by
  obtain ⟨body, ⟨rx, hlen, rfl⟩, htr⟩ := transact_exchanged h hx
  have hsent : sentOf s.cfg c s.ctl.len.toNat s.ctl.wbuf = [0x06#8] := by
    obtain ⟨op, a⟩ := c
    obtain rfl : op = .wren := hc
    rfl
  rw [hsent] at hlen htr
  obtain ⟨r, rfl⟩ := List.length_eq_one_iff.1 hlen
  exact ⟨r, htr⟩

theorem gateKept_transact {c : WireCmd} {s t : State} (hs : GateKept s) (hp : s.ctl.phase = .xbegin)
    (hc : c.op = (stageCommand s.ctl).op) (h : transact c s = .next t) : GateKept t := by
  obtain ⟨e, rest, htr, he, hinner⟩ := transact_opening h
  have hrest := not_mem_of_inner hinner
  have hne : e ≠ .csLow := by rcases he with rfl | ⟨_, rfl⟩ <;> simp
  constructor
  · rw [htr]
    refine hs.writes.append (fun e' rest' tx heq hsends => ?_) (fun before e' after tx heq hsends htx => ?_)
    · obtain ⟨rfl, -⟩ := List.cons.inj heq
      rcases hsends with h | ⟨_, h⟩ <;> cases h
    · cases before with
      | cons x before =>
        have hmem : Event.csLow ∈ e :: rest := by rw [(List.cons.inj heq).2]; simp
        simp [hne.symm, hrest] at hmem
      | nil =>
        obtain ⟨rfl, -⟩ : e = e' ∧ rest = after := by simpa using heq
        have htx' : tx = c.op.opcode := by
          rcases hsends with rfl | ⟨_, rfl⟩ <;> rcases he with h | ⟨_, h⟩ <;> cases h <;> rfl
        rw [htx', hc] at htx
        obtain ⟨hst, hw⟩ := stageCommand_writes htx
        simpa using hs.command hp hst hw
  · intro hp'
    rcases transact_successor h with h' | h' | h' | h' | ⟨-, -, -, -, h'⟩
    · simp [hp'] at h'
    · obtain ⟨rx, htr⟩ := transact_wren_trace (by rw [hc, stageCommand_gate h'.2.1]; rfl) h h'.1
      exact ⟨s.trace, rx, htr⟩
    · simp [hp'] at h'
    · simp [hp'] at h'
    · split at h' <;> simp [hp'] at h'
  · intro hp' hst
    rcases transact_phase h with h' | h' | h' | h' <;> simp [hp', hst] at h'
  · intro hp'
    rcases transact_phase h with h' | h' | h' | h' <;> simp [hp'] at h'
    exact h'.2

theorem partsKeep_gateKept : PartsKeep GateKept where
  wait s h _ := ⟨h.writes, h.settle, h.command, h.poll⟩
  pop s h _ := ⟨h.writes, h.settle, h.command, h.poll⟩
  accept op q s h _ := by
    refine ⟨?_, ?_, ?_, ?_⟩
    · rw [acceptRequest_trace]
      exact h.writes.event (by simp [Event.sends]) (by simp)
    · intro hp
      rcases acceptRequest_successor op q s with h' | h' <;> simp [hp] at h'
    · intro hp hst hw
      rw [acceptRequest_opr] at hw
      rcases acceptRequest_successor op q s with h' | h'
      · simp [hst, hw] at h'
      · simp [hp] at h'
    · intro hp
      rcases acceptRequest_successor op q s with h' | h' <;> simp [hp] at h'
  transact c s t h hp hc hrun := gateKept_transact h hp hc hrun
  settle s h hp := by
    obtain ⟨earlier, rx, htr⟩ := h.settle hp
    exact ⟨h.writes.event (by simp [Event.sends]) (by simp), by simp,
      fun _ _ _ => ⟨earlier, rx, by simp [htr, GateEvents]⟩, by simp⟩
  delay s h hp :=
    ⟨h.writes.event (by simp [Event.sends]) (by simp), by simp, by simp [h.poll hp], by simp⟩
  deliver s h _ := ⟨h.writes.event (by simp [Event.sends]) (by simp), by simp, by simp, by simp⟩

/-- Settles O18: a write-class command is sent in the CMD stage of a write-class operation, and only the settle delay
leads there. -/
theorem gatePrecedesEveryWriteClassCommand : Obligations.GatePrecedesEveryWriteClassCommand := by
  intro s t hend hw h
  have hkept : GateKept s := by
    rcases hend with hp | ⟨hst, hp | hp | hp⟩
    · exact ⟨hw, by simp [hp], by simp [hp], by simp [hp]⟩
    · exact ⟨hw, by simp [hp], by simp [hst], by simp [hp]⟩
    · exact ⟨hw, by simp [hp], by simp [hp], fun _ => hst⟩
    · exact ⟨hw, by simp [hp], by simp [hp], by simp [hp]⟩
  obtain ⟨hend', hkept'⟩ := partsKeep_gateKept.step hend hkept h
  exact ⟨hend', hkept'.writes⟩

end Sys2Proof.Machine
end

section
/-! PROOFS. The nine wire commands (R153 to R161): what each sends, what it returns and what the device is afterwards. -/

namespace Sys2Proof.Machine

/-! ### The bytes sent and the bytes captured, command by command -/

section Bytes
variable (cfg : Cfg) (d : Device) (k : Nat) (a : Word) (n : Nat) (w : List Byte)

theorem sentOf_read :
    sentOf cfg (wireCmd .read a) n w = 0x03#8 :: (addressBytes a ++ List.replicate n cfg.fill) :=
  sentOf_eq cfg .read a n w

theorem sentOf_pp : sentOf cfg (wireCmd .pp a) n w = 0x02#8 :: (addressBytes a ++ w) := sentOf_eq cfg .pp a n w

theorem sentOf_se : sentOf cfg (wireCmd .se a) n w = 0x20#8 :: addressBytes a := sentOf_eq cfg .se a n w

theorem sentOf_rdsr : sentOf cfg (wireCmd .rdsr a) n w =
    0x05#8 :: (List.replicate cfg.dummyRdsr cfg.fill ++ [cfg.fill]) :=
  sentOf_eq cfg .rdsr a n w

theorem sentOf_rdmdid : sentOf cfg (wireCmd .rdmdid a) n w = 0x90#8 :: List.replicate n cfg.fill :=
  sentOf_eq cfg .rdmdid a n w

variable {cfg d a n}

theorem sentOf_rdid (h : cfg.Legal) :
    sentOf cfg (wireCmd .rdid a) n w = [0x9F#8, cfg.fill, cfg.fill, cfg.fill] := by
  obtain ⟨-, -, -, -, hjedec, -⟩ := h
  rw [sentOf_eq, hjedec]
  rfl

theorem sentOf_rdsr3 (h : cfg.Legal) : sentOf cfg (wireCmd .rdsr3 a) n w = [0x15#8, cfg.fill, cfg.fill] := by
  obtain ⟨-, -, -, -, -, -, hdummy, -⟩ := h
  rw [sentOf_eq, hdummy]
  rfl

theorem sentOf_rdlock (h : cfg.Legal) :
    sentOf cfg (wireCmd .rdlock a) n w = 0x3D#8 :: (addressBytes a ++ [cfg.fill]) := by
  obtain ⟨-, -, -, -, -, -, -, hdummy, -⟩ := h
  rw [sentOf_eq, hdummy]
  rfl

/-- READ inside the device captures the array (R78). -/
theorem captured_read (h : addressFits a = true) (hrange : a.toNat + n ≤ cfg.deviceSize) :
    captured cfg d [] k (slotsOf cfg (wireCmd .read a) n w) = Memory.read erasedByte d.mem a.toNat n := by
  obtain ⟨free, hcap⟩ := captured_eq cfg d k .read h n w
  rw [hcap]
  refine List.map_congr_left fun i hi => if_pos ?_
  have := List.mem_range.1 hi
  omega

/-- A list is the list of its entries, whatever stands beyond its end. -/
theorem map_getD_range (l : List Byte) (free : Nat → Byte) :
    ((List.range l.length).map fun i => l.getD i (free i)) = l := by
  refine List.ext_getElem (by simp) fun i _ hi => ?_
  simp [hi]

/-- RDID captures the three JEDEC bytes (R79). -/
theorem captured_rdid (h : d.Sound cfg) :
    captured cfg d [] k (slotsOf cfg (wireCmd .rdid 0#32) n w) = d.jedec := by
  obtain ⟨-, -, hjedec, -⟩ := h
  obtain ⟨free, hcap⟩ := captured_eq cfg d k .rdid addressFits_zero n w
  rw [hcap, ← hjedec]
  exact map_getD_range _ _

/-- RDMDID captures `n` bytes, the legacy ID's as far as it goes (R79, U14). -/
theorem captured_rdmdid :
    (captured cfg d [] k (slotsOf cfg (wireCmd .rdmdid 0#32) n w)).length = n ∧
      ∀ i, i < n → i < d.legacy.length →
        (captured cfg d [] k (slotsOf cfg (wireCmd .rdmdid 0#32) n w))[i]? = d.legacy[i]? := by
  obtain ⟨free, hcap⟩ := captured_eq cfg d k .rdmdid addressFits_zero n w
  rw [hcap]
  refine ⟨by simp, fun i hi hlegacy => ?_⟩
  simp [hi, hlegacy]

theorem captured_rdsr3 : captured cfg d [] k (slotsOf cfg (wireCmd .rdsr3 0#32) n w) = [d.sr3] := by
  obtain ⟨free, hcap⟩ := captured_eq cfg d k .rdsr3 addressFits_zero n w
  exact hcap

/-- RDLOCK inside the device captures the lock byte (R79). -/
theorem captured_rdlock (h : addressFits a = true) (hrange : a.toNat < cfg.deviceSize) :
    captured cfg d [] k (slotsOf cfg (wireCmd .rdlock a) n w) = [Memory.get unlockedByte d.lock a.toNat] := by
  obtain ⟨free, hcap⟩ := captured_eq cfg d k .rdlock h n w
  rw [hcap]
  simp [hrange]

end Bytes

/-! ### Commands that read -/

/-- A command of the CMD stage that went through ends as R208 row T9 says for a reading operation. -/
theorem readingEnd_of_transact {c : WireCmd} {s t : State} (hst : s.ctl.stage = .cmd) (h : transact c s = .next t)
    (hx : t.ctl.xok = true) (hsr : t.ctl.sr = s.ctl.sr) : ReadingEnd s t := by
  refine ⟨(transact_frame h).2.1, hsr, fun hread => ?_⟩
  rcases transact_successor h with h' | h' | h' | h' | h'
  · simp [hx] at h'
  · simp [hst] at h'
  · obtain ⟨-, -, -, hp, hr, hst', hpolls⟩ := h'
    exact ⟨hp, hr, hst'.trans hst.symm, hpolls⟩
  · simp [hread] at h'
  · simp [hst] at h'

/-- A reading command that is due (R153, R156, R158 to R161). -/
theorem exec_readingCommand {op : WireOp} {a : Word} {s : State} (h : CommandReady s)
    (hop : op ≠ .wren ∧ op ≠ .pp ∧ op ≠ .se) :
    ∃ t body, exec (WireCmd.mk op a).instr s = .next t ∧ t.trace = s.trace ++ body ∧
      Exchanged (sentOf s.cfg (wireCmd op a) s.ctl.len.toNat s.ctl.wbuf) body ∧
      t.ctl.rbuf = s.ctl.rbuf ++
        captured s.cfg s.dev [] s.free (slotsOf s.cfg (wireCmd op a) s.ctl.len.toNat s.ctl.wbuf) ∧
      ReadingEnd s t ∧ t.dev = { s.dev with stream := [] } ∧ WireFrame s t := by
  obtain ⟨t, body, hrun, htr, hex, hrbuf, hsr, -, hdev, hx, hframe⟩ := transact_reading (a := a) h hop
  refine ⟨t, body, ?_, htr, hex, hrbuf, readingEnd_of_transact h.2.1 hrun hx hsr, hdev, hframe⟩
  rw [exec_wireCmd _ _ h.1, hrun]

/-- Settles O24: every response slot of READ lies inside the device. -/
theorem readCommandReturnsTheArray : Obligations.ReadCommandReturnsTheArray := by
  intro s a h hfit hrange
  obtain ⟨t, body, hrun, htr, hex, hrbuf, hrest⟩ := exec_readingCommand (op := .read) (a := a) h (by simp)
  rw [sentOf_read] at hex
  rw [captured_read _ _ hfit hrange] at hrbuf
  exact ⟨t, body, hrun, htr, hex, hrbuf, hrest⟩

/-- Settles O25: RDID captures the JEDEC bytes, RDMDID the legacy bytes and free ones beyond them. -/
theorem idCommandsReturnTheIds : Obligations.IdCommandsReturnTheIds := by
  intro s h
  obtain ⟨-, -, hL, hsound, -⟩ := id h
  constructor
  · obtain ⟨t, body, hrun, htr, hex, hrbuf, hrest⟩ := exec_readingCommand (op := .rdid) (a := 0#32) h (by simp)
    rw [sentOf_rdid _ hL] at hex
    rw [captured_rdid _ _ hsound] at hrbuf
    exact ⟨t, body, hrun, htr, hex, hrbuf, hrest⟩
  · obtain ⟨t, body, hrun, htr, hex, hrbuf, hrest⟩ := exec_readingCommand (op := .rdmdid) (a := 0#32) h (by simp)
    rw [sentOf_rdmdid] at hex
    obtain ⟨hlen, hids⟩ := captured_rdmdid (cfg := s.cfg) (d := s.dev) s.free (n := s.ctl.len.toNat) s.ctl.wbuf
    exact ⟨t, body, _, hrun, htr, hex, hrbuf, hlen, hids, hrest⟩

/-- Settles O27: RDSR3 captures status register 3, RDLOCK the lock byte of its address. -/
theorem registerCommandsReturnTheRegisters : Obligations.RegisterCommandsReturnTheRegisters := by
  intro s a h hfit hrange
  obtain ⟨-, -, hL, -⟩ := id h
  constructor
  · obtain ⟨t, body, hrun, htr, hex, hrbuf, hrest⟩ := exec_readingCommand (op := .rdsr3) (a := 0#32) h (by simp)
    rw [sentOf_rdsr3 _ hL] at hex
    rw [captured_rdsr3] at hrbuf
    exact ⟨t, body, hrun, htr, hex, hrbuf, hrest⟩
  · obtain ⟨t, body, hrun, htr, hex, hrbuf, hrest⟩ := exec_readingCommand (op := .rdlock) (a := a) h (by simp)
    rw [sentOf_rdlock _ hL] at hex
    rw [captured_rdlock _ _ hfit hrange] at hrbuf
    exact ⟨t, body, hrun, htr, hex, hrbuf, hrest⟩

/-! ### The status read -/

/-- The status byte as a number (R36): BUSY is bit 0, WEL bit 1. -/
theorem statusByte_toNat (d : Device) :
    (statusByte d).toNat = d.busy.toNat + 2 * d.wel.toNat + 4 * d.statusHi.toNat := by
  have key : ∀ (hi : BitVec 6) (w b : Bool),
      (hi ++ BitVec.ofBool w ++ BitVec.ofBool b).toNat = b.toNat + 2 * w.toNat + 4 * hi.toNat := by decide
  exact key _ _ _

/-- Settles O58: the byte by its parts; each mask of R6 selects one bit. -/
theorem statusByteAndBusyTest : Obligations.StatusByteAndBusyTest := by
  refine ⟨statusByte_toNat, fun cfg sr hL => ?_⟩
  obtain ⟨-, -, hbusy, hwel, -⟩ := hL
  have key : ∀ sr : Byte, (sr &&& 0x01#8 != 0#8) = decide (sr.toNat % 2 = 1) ∧
      (sr &&& 0x02#8 != 0#8) = decide (sr.toNat / 2 % 2 = 1) := by decide
  rw [isBusy, latchSet, hbusy, hwel]
  exact key sr

/-- Bit 0 of the status byte is BUSY (R36). -/
theorem statusByte_bit0 (d : Device) : (statusByte d).getLsbD 0 = d.busy := by
  have key : ∀ (hi : BitVec 6) (w b : Bool), (hi ++ BitVec.ofBool w ++ BitVec.ofBool b).getLsbD 0 = b := by decide
  exact key _ _ _

/-- The status byte does not depend on what the device has heard. -/
theorem statusByte_of_same {d d' : Device} (h : { d' with stream := [] } = { d with stream := [] }) :
    statusByte d' = statusByte d := by
  obtain ⟨-, hbusy, hwel, -, hhi, -⟩ := sameBut_stream h
  rw [statusByte, statusByte, hbusy, hwel, hhi]

/-- The status byte of a device that has at most completed. -/
theorem Evolved.statusByte_eq {cfg : Cfg} {d d' : Device} (h : Evolved cfg d d') :
    statusByte d' = statusByte d ∨ d.busy = true ∧ statusByte d' = statusByte (d.complete cfg) :=
  h.imp statusByte_of_same fun ⟨hb, h⟩ => ⟨hb, statusByte_of_same h⟩

/-- The device itself, where it has heard nothing since. -/
theorem Evolved.eq_of_stream {cfg : Cfg} {d d' : Device} (h : Evolved cfg d d') (hs : d'.stream = []) :
    d' = { d with stream := [] } ∨ d.busy = true ∧ d' = { d.complete cfg with stream := [] } := by
  have hd : { d' with stream := [] } = d' := by rw [← hs]
  unfold Evolved at h
  rwa [hd] at h

/-- How a status read of the poll that went through ends: by bit 0 of the byte it captured, and the budget (R172). -/
theorem pollRead_verdict {c : WireCmd} {s t : State} (hL : s.cfg.Legal) (hst : s.ctl.stage = .poll)
    (h : transact c s = .next t) (hx : t.ctl.xok = true) :
    t.ctl.stage = .poll ∧ t.ctl.polls = s.ctl.polls + 1 ∧
      (t.ctl.sr.getLsbD 0 = false → t.ctl.phase = .done ∧ t.ctl.result = .ok) ∧
      (t.ctl.sr.getLsbD 0 = true → ∀ n, s.cfg.pollMax = some n → n ≤ s.ctl.polls + 1 →
        t.ctl.phase = .done ∧ t.ctl.result = .flashTimeout) ∧
      (t.ctl.sr.getLsbD 0 = true → (∀ n, s.cfg.pollMax = some n → s.ctl.polls + 1 < n) →
        t.ctl.phase = .pollwait ∧ t.ctl.result = s.ctl.result) := by
  rcases transact_successor h with h' | h' | h' | h' | ⟨-, -, hst', hpolls, hv⟩
  · simp [hx] at h'
  · simp [hst] at h'
  · simp [hst] at h'
  · simp [hst] at h'
  refine ⟨hst', hpolls, fun hb => ?_, fun hb n hn hle => ?_, fun hb hlt => ?_⟩
  all_goals rw [← isBusy_eq_bit0 hL] at hb
  · simpa [pollVerdict, hb] using hv
  · simpa [pollVerdict, hb, hn, hle] using hv
  · cases hn : s.cfg.pollMax with
    | none => simpa [pollVerdict, hb, hn] using hv
    | some n => simpa [pollVerdict, hb, hn, Nat.not_le.2 (hlt n hn)] using hv

/-- Settles O26: the device has at most completed by the sample and after it, and the sampled byte decides. -/
theorem statusCommandReturnsTheStatus : Obligations.StatusCommandReturnsTheStatus := by
  intro s hp hst hL ht
  obtain ⟨t, d, hrun, hd, htd, hx, -, hstream, -, -, hcmd, hpoll, body, hex, htr⟩ := transact_status ht
  have hframe := transact_frame hrun
  obtain ⟨hcfg, hcs, hopr, haddr, hlen, hwbuf, -, hreq⟩ := hframe
  refine ⟨t, body, statusByte d, (exec_wireCmd ⟨.rdsr, 0#32⟩ s hp).trans hrun, htr, hex, hd.statusByte_eq, ?_, ?_,
    (hd.trans htd).eq_of_stream hstream, ?_, hcs, hcfg, hopr, haddr, hlen, hwbuf, hreq, by simp [htr]⟩
  · intro hst
    obtain ⟨hrbuf, hsr⟩ := hcmd hst
    exact ⟨hrbuf, readingEnd_of_transact hst hrun hx hsr⟩
  · intro hst
    obtain ⟨hsr, hrbuf⟩ := hpoll hst
    have hverdict := pollRead_verdict hL hst hrun hx
    rw [hsr] at hverdict
    exact ⟨hsr, hrbuf, hverdict⟩
  · intro hb
    rw [statusByte_bit0] at hb
    exact htd.idle_right hb

/-! ### Commands that write -/

/-- Any command that is due at a device that is not busy, when no exchange fails. -/
theorem exec_command {op : WireOp} {a : Word} {s : State} (hp : s.ctl.phase = .xbegin) (hb : s.dev.busy = false)
    (ht : TransportOk s) :
    ∃ t body n, exec (WireCmd.mk op a).instr s = .next t ∧ t.trace = s.trace ++ body ∧
      Exchanged (sentOf s.cfg (wireCmd op a) s.ctl.len.toNat s.ctl.wbuf) body ∧
      t.dev = Device.released s.cfg n true
        { s.dev with stream := sentOf s.cfg (wireCmd op a) s.ctl.len.toNat s.ctl.wbuf } ∧
      t.ctl.xok = true ∧ WireFrame s t := by
  obtain ⟨t, hrun, hdev, ⟨body, hex, htr⟩, hx, -⟩ := transact_quiet (c := wireCmd op a) hb ht
  obtain ⟨hcfg, -, hopr, haddr, hlen, hwbuf, -, hreq⟩ := transact_frame hrun
  exact ⟨t, body, _, (exec_wireCmd _ _ hp).trans hrun, htr, hex, hdev, hx, hcfg, hopr, haddr, hlen, hwbuf, hreq,
    by simp [htr]⟩

/-- Settles O28: the gate's transaction, with the registers its stage leaves alone. -/
theorem writeEnableSetsTheLatch : Obligations.WriteEnableSetsTheLatch := by
  intro s hp hst hb ht
  obtain ⟨t, rx, hrun, htr, hdev, hphase, hx, -, hrbuf⟩ := transact_gate hst hb ht
  obtain ⟨t', hrun', -, -, -, -, -, -, hsr⟩ := transact_quiet (c := wireCmd .wren 0#32) hb ht
  obtain rfl : t = t' := by simpa [hrun] using hrun'
  obtain ⟨hcfg, hcs, hopr, haddr, hlen, hwbuf, -, hreq⟩ := transact_frame hrun
  have hframe : WireFrame s t := ⟨hcfg, hopr, haddr, hlen, hwbuf, hreq, by simp [htr]⟩
  refine ⟨t, rx, (exec_wireCmd ⟨.wren, 0#32⟩ s hp).trans hrun, htr, hdev, hphase, hcs, hrbuf, hsr hst, ?_⟩
  rcases transact_successor hrun with h' | ⟨-, -, -, hr, hst', hpolls⟩ | h' | h' | h'
  · simp [hx] at h'
  · exact ⟨hpolls, hst', hr, hframe⟩
  · simp [hst] at h'
  · simp [hst] at h'
  · simp [hst] at h'

/-- A write-class command that the device takes up: what it leaves besides the device. -/
theorem exec_writeCommand {op : WireOp} {a : Word} {s : State} (h : CommandReady s) (hw : writeClass s.ctl.opr = true)
    (hop : op = .wren ∨ op = .pp ∨ op = .se) :
    ∃ t body n, exec (WireCmd.mk op a).instr s = .next t ∧ t.trace = s.trace ++ body ∧
      Exchanged (sentOf s.cfg (wireCmd op a) s.ctl.len.toNat s.ctl.wbuf) body ∧
      t.dev = Device.released s.cfg n true
        { s.dev with stream := sentOf s.cfg (wireCmd op a) s.ctl.len.toNat s.ctl.wbuf } ∧
      t.ctl.phase = .xbegin ∧ t.ctl.stage = .poll ∧ t.ctl.polls = 0 ∧ t.ctl.cs = .high ∧ t.ctl.rbuf = s.ctl.rbuf ∧
      t.ctl.sr = s.ctl.sr ∧ t.ctl.result = s.ctl.result ∧ WireFrame s t := by
  obtain ⟨hp, hst, -, -, hb, ht⟩ := h
  obtain ⟨t, body, n, hrun, htr, hex, hdev, hphase, hstage, hpolls, -, -, hr, hsr, hrbuf⟩ :=
    transact_command (w := op) (a := a) hst hw hb ht
  obtain ⟨hcfg, hcs, hopr, haddr, hlen, hwbuf, -, hreq⟩ := transact_frame hrun
  exact ⟨t, body, n, (exec_wireCmd _ _ hp).trans hrun, htr, hex, hdev, hphase, hstage, hpolls, hcs, hrbuf hop, hsr, hr,
    hcfg, hopr, haddr, hlen, hwbuf, hreq, by simp [htr]⟩

/-- Settles O29: the contract's premises make the page program pending at the release of the line. -/
theorem pageProgramBecomesPending : Obligations.PageProgramBecomesPending := by
  intro s a h hw hwel hfit halign hrange hlen hunlocked
  obtain ⟨-, -, -, -, hb, -⟩ := id h
  obtain ⟨t, body, n, hrun, htr, hex, hdev, hrest⟩ := exec_writeCommand (op := .pp) (a := a) h hw (by simp)
  rw [sentOf_pp] at hex hdev
  have hlegal : Pending.legal s.cfg (.prog a.toNat s.ctl.wbuf) = true := by simp [Pending.legal, halign, hrange, hlen]
  exact ⟨t, body, hrun, htr, hex, hdev.trans (released_pp hfit hwel hb hlegal hunlocked), hrest⟩

/-- Settles O30: the same of the sector erase. -/
theorem sectorEraseBecomesPending : Obligations.SectorEraseBecomesPending := by
  intro s a h hw hwel hfit halign hrange hunlocked
  obtain ⟨-, -, -, -, hb, -⟩ := id h
  obtain ⟨t, body, n, hrun, htr, hex, hdev, hrest⟩ := exec_writeCommand (op := .se) (a := a) h hw (by simp)
  rw [sentOf_se] at hex hdev
  have hlegal : Pending.legal s.cfg (.erase a.toNat) = true := by simp [Pending.legal, halign, hrange]
  exact ⟨t, body, hrun, htr, hex, hdev.trans (released_se hfit hwel hb hlegal hunlocked), hrest⟩

/-- Without the latch a complete page program or sector erase does nothing, whatever its address (R77). -/
theorem released_without_latch (cfg : Cfg) (n : Nat) {d : Device} (hw : d.wel = false) {op : WireOp} (a : Word)
    (k : Nat) (w : List Byte) (hop : op = .pp ∨ op = .se) :
    Device.released cfg n true { d with stream := sentOf cfg (wireCmd op a) k w } = { d with stream := [] } := by
  rw [sentOf, slotsOf_tx]
  simp only [Device.released, if_true, Device.act, decodeWire_frame]
  rcases hop with rfl | rfl <;> simp [wireCmd, layoutTail, Device.startWrite, hw]

/-- Settles O31: both commands are complete, so the cleared latch alone decides. -/
theorem writeClassCommandWithoutLatchIsIgnored : Obligations.WriteClassCommandWithoutLatchIsIgnored := by
  rintro s a ⟨hp, -, -, -, hb, ht⟩ hw
  constructor
  · obtain ⟨t, body, n, hrun, htr, hex, hdev, hrest⟩ := exec_command (op := .pp) (a := a) hp hb ht
    rw [released_without_latch _ _ hw _ _ _ (.inl rfl)] at hdev
    rw [sentOf_pp] at hex
    exact ⟨t, body, hrun, htr, hex, hdev, hrest⟩
  · obtain ⟨t, body, n, hrun, htr, hex, hdev, hrest⟩ := exec_command (op := .se) (a := a) hp hb ht
    rw [released_without_latch _ _ hw _ _ _ (.inr rfl)] at hdev
    rw [sentOf_se] at hex
    exact ⟨t, body, hrun, htr, hex, hdev, hrest⟩

/-- Settles O32: whatever the device makes of the command, the release leaves these registers alone. -/
theorem writeClassCommandOfAnyFormEnds : Obligations.WriteClassCommandOfAnyFormEnds := by
  rintro s a ⟨hp, -, -, -, hb, ht⟩
  constructor
  · obtain ⟨t, body, n, hrun, htr, hex, hdev, -, hframe⟩ := exec_command (op := .pp) (a := a) hp hb ht
    obtain ⟨-, hsr3, hlock, hjedec, hlegacy, -⟩ := hdev ▸ released_rest s.cfg n true _
    rw [sentOf_pp] at hex
    exact ⟨t, body, hrun, htr, hex, hsr3, hlock, hjedec, hlegacy, hframe⟩
  · obtain ⟨t, body, n, hrun, htr, hex, hdev, -, hframe⟩ := exec_command (op := .se) (a := a) hp hb ht
    obtain ⟨-, hsr3, hlock, hjedec, hlegacy, -⟩ := hdev ▸ released_rest s.cfg n true _
    rw [sentOf_se] at hex
    exact ⟨t, body, hrun, htr, hex, hsr3, hlock, hjedec, hlegacy, hframe⟩

/-! ### Refusals -/

/-- An instruction is a wire command or a host operation (R1). -/
theorem Instr.wire_or_host (i : Instr) :
    (∃ c, i.wireCmd? = some c ∧ i = c.instr) ∨ ∃ op q, i.wireCmd? = none ∧ i = HostOp.instr op q := by
  cases i with
  | read | pp | se | rdsr | wren | rdid | rdmdid | rdsr3 | rdlock => exact .inl ⟨_, rfl, rfl⟩
  | readIdJedec q => exact .inr ⟨.readIdJedec, q, rfl, rfl⟩
  | readIdLegacy q => exact .inr ⟨.readIdLegacy, q, rfl, rfl⟩
  | readStatus q => exact .inr ⟨.readStatus, q, rfl, rfl⟩
  | readStatus3 q => exact .inr ⟨.readStatus3, q, rfl, rfl⟩
  | readLock q => exact .inr ⟨.readLock, q, rfl, rfl⟩
  | readHost q => exact .inr ⟨.read, q, rfl, rfl⟩
  | program q => exact .inr ⟨.program, q, rfl, rfl⟩
  | eraseSector q => exact .inr ⟨.eraseSector, q, rfl, rfl⟩

/-- A host operation runs in `IDLE` only (U1). -/
theorem exec_hostOp_refused (op : HostOp) (q : Operands) {s : State} (h : s.ctl.phase ≠ .idle) :
    exec (op.instr q) s = .refused .requestDuringOperation := by
  rw [exec_hostOp]
  unfold writingOperation readingOperation
  cases hp : s.ctl.phase with
  | idle => exact absurd hp h
  | xbegin | xslot | xend | settle | pollwait | done => simp

/-- Settles O34: each kind of instruction looks at the phase first. -/
theorem secondMasterOrCallerIsRefused : Obligations.SecondMasterOrCallerIsRefused := by
  intro s i
  rcases Instr.wire_or_host i with ⟨c, hc, rfl⟩ | ⟨op, q, hc, rfl⟩
  · exact ⟨fun _ hp => exec_wireCmd_refused c s hp, fun hnone => by simp [hc] at hnone⟩
  · exact ⟨fun hsome => absurd hc hsome, fun _ hp => exec_hostOp_refused op q hp⟩

/-- A device that is busy when the first byte of a command other than a status read arrives refuses it (R80). -/
theorem Device.refuses_busy {d : Device} {op : WireOp} (hs : d.stream = []) (hb : d.busy = true) (hop : op ≠ .rdsr) :
    d.refuses op.opcode = some .commandWhileBusy := by
  unfold Device.refuses
  simp only [hs, WireOp.ofOpcode_opcode, hb, if_true]

/-- The body of a transaction starts with the exchange of its opcode. -/
theorem runSlots_begin (c : WireCmd) (s : State) :
    ∃ rest, layout c.op (beginTransaction c s) = .c c.op.opcode :: rest := by
  rw [layout_begin]
  exact slotsOf_head _ _ _ _

/-- A schedule without a completion in its next entry leaves the device as it is (R76). -/
theorem deviceTurn_of_scheduled {s : State} {rest : List Bool} (h : s.env.turns = false :: rest) :
    (deviceTurn s).dev = s.dev := by
  simp [deviceTurn_dev, completesNow, h]

/-- The device is as it was at the first byte of a transaction, if neither the turn before BEGIN nor the turn before the
first slot completes it. -/
theorem first_slot_dev {c : WireCmd} {s : State} (h : NeverCompletes s ∨ [false, false] <+: s.env.turns) :
    (deviceTurn (beginTransaction c s)).dev = { s.dev with stream := [] } := by
  rcases h with hn | ⟨rest, hturns⟩
  · have hn' : NeverCompletes (beginTransaction c s) := (deviceTurn_inputs s).neverCompletes hn
    rw [deviceTurn_of_never hn', beginTransaction_dev, deviceTurn_of_never hn]
  · rw [deviceTurn_of_scheduled (rest := rest) (by simp [← hturns]), beginTransaction_dev,
      deviceTurn_of_scheduled (rest := false :: rest) (by simp [← hturns])]

/-- Settles O33: the exchange of the opcode succeeds and finds the device busy. -/
theorem commandToABusyDeviceIsRefused : Obligations.CommandToABusyDeviceIsRefused := by
  intro s i c hp hc hop hb hstay hanswer
  rcases Instr.wire_or_host i with ⟨c', hc', rfl⟩ | ⟨_, _, hnone, -⟩
  · obtain rfl : c' = c := by simpa [hc'] using hc
    obtain ⟨rest, hlayout⟩ := runSlots_begin (wireCmd c'.op c'.a) s
    have hrefuses := Device.refuses_busy (d := (deviceTurn (beginTransaction (wireCmd c'.op c'.a) s)).dev)
      (op := c'.op) (by simp [first_slot_dev hstay]) (by simp [first_slot_dev hstay, hb]) hop
    have hanswer' : nextAnswer (deviceTurn (beginTransaction (wireCmd c'.op c'.a) s)) = .ok := hanswer
    rw [wireCmd_op] at hlayout
    rw [exec_wireCmd _ _ hp, transact]
    simp only [wireCmd_op, hlayout, runSlots, runSlot, hanswer', Slot.tx, hrefuses, andThen_refused]
  · simp [hnone] at hc

end Sys2Proof.Machine
end

section
/-! PROOFS. Acceptance and validation (R195, R211), the end of an operation after a failure (R134, R236), and completion
(R73 to R76). -/

namespace Sys2Proof.Machine

/-! ### Validation -/

/-- The fit of an address in the terms of R211. -/
theorem addressFits_eq_decide (a : Word) : addressFits a = decide (a.toNat < 2 ^ 24) := by
  rw [Bool.eq_iff_iff, decide_eq_true_iff]
  exact addressFits_iff a

/-- Settles O48: each row of R211, the constants those of R6. -/
theorem validationTable : Obligations.ValidationTable := by
  refine ⟨fun op q => by cases op <;> rfl, fun cfg addr len hL => ?_⟩
  obtain ⟨hpage, hsector, -, -, -, hmin, -⟩ := hL
  refine ⟨by simp [validate, addressInvalid, lengthInvalid], by simp [validate, addressInvalid, lengthInvalid],
    by simp [validate, addressInvalid, lengthInvalid], by simp [validate, addressInvalid, lengthInvalid, hmin], ?_, ?_,
    ?_, ?_⟩
  all_goals
    simp [validate, addressInvalid, lengthInvalid, addressFits_eq_decide, hpage, hsector, or_assoc]

/-! ### Acceptance -/

/-- Settles O22: row T1, and for an error row T13. -/
theorem acceptanceLatchesAndValidates : Obligations.AcceptanceLatchesAndValidates := by
  intro s op q rest hp hreq
  refine ⟨acceptRequest op q (popRequest s), tick_idle hp hreq, by simp, by simp, ?_, ?_, by simp, by simp,
    by simp [hreq], by simp, by simp, by simp, ?_⟩
  · intro hop
    rw [acceptRequest_len]
    cases op with
    | program => exact absurd rfl hop
    | readIdJedec | readIdLegacy | readStatus | readStatus3 | readLock | read | eraseSector =>
      simp [latchedLen]
  · rintro rfl hlen
    rw [acceptRequest_len]
    exact lenContainer_toNat hlen
  · split
    next hv =>
      obtain ⟨hp', hst⟩ := acceptRequest_valid (s := popRequest s) hv
      exact ⟨hp', by simp only [hst, writeClass_iff]⟩
    next hv =>
      obtain ⟨hp', hr⟩ := acceptRequest_invalid (s := popRequest s) hv
      exact ⟨hp', hr, _, tick_done hp', by simp, by simp, by simp⟩

/-- A request that fails validation is accepted and answered (R195, R236). -/
theorem exec_hostOp_invalid {op : HostOp} {q : Operands} {s : State} (hp : s.ctl.phase = .idle)
    (hv : validate s.cfg op q.addr (latchedLen op q) ≠ .ok) :
    exec (op.instr q) s = .next (respond (acceptRequest op q s)) := by
  obtain ⟨hd, -⟩ := acceptRequest_invalid hv
  have hne (p : Phase) (f : State → Out) (h : p ≠ .done) :
      inPhase p f (acceptRequest op q s) = .next (acceptRequest op q s) := inPhase_of_ne (by rw [hd]; exact h.symm)
  rw [exec_hostOp]
  split
  · simp only [writingOperation, hp, hne .xbegin _ (by simp), hne .settle _ (by simp), andThen_next,
      response_of_done hd]
  · simp only [readingOperation, hp, hne .xbegin _ (by simp), andThen_next, response_of_done hd]

/-- Settles O47: acceptance and the response leave everything else alone. -/
theorem invalidRequestNeverReachesTheBus : Obligations.InvalidRequestNeverReachesTheBus := by
  intro s op q e hp hv hne
  subst hv
  obtain ⟨-, hr⟩ := acceptRequest_invalid hne
  obtain ⟨hcfg, hcs, -, -, -, -, hframe, hslot, hrbuf, hsr, hpolls, hxok, hdev, hreq, hans, -, -, htr⟩ :=
    acceptRequest_frame op q s
  have hstage : (acceptRequest op q s).ctl.stage = s.ctl.stage := by
    rcases acceptRequest_successor op q s with h | h
    · exact absurd h.1 hne
    · exact h.2.2.1
  refine ⟨_, exec_hostOp_invalid hp hne, by simp [hr], hr, rfl, hcs, hframe, hslot, hsr, hpolls, hxok, hstage, hreq,
    hans, hcfg, fun hb => ?_⟩
  have hd : (acceptRequest op q s).dev = s.dev := hdev.trans (deviceTurn_of_idle hb)
  rw [respond_dev, deviceTurn_of_idle (by rw [hd, hb]), hd]

/-! ### The first transaction of a valid operation -/

/-- The command an operation starts with: the gate's for a write-class one, else its own (R187, R205). -/
theorem stageCommand_acceptRequest {op : HostOp} {q : Operands} {s : State}
    (hv : validate s.cfg op q.addr (latchedLen op q) = .ok) :
    stageCommand (acceptRequest op q s).ctl =
      if writeClass op then wireCmd .wren 0#32 else wireCmd (commandOf op) q.addr := by
  obtain ⟨-, hst⟩ := acceptRequest_valid (s := s) hv
  cases hop : writeClass op with
  | true => simp [stageCommand, hst, hop]
  | false => simp [stageCommand, hst, hop]

/-- A valid operation whose first transaction ends it. -/
theorem exec_hostOp_done {op : HostOp} {q : Operands} {s u : State} (hp : s.ctl.phase = .idle)
    (hv : validate s.cfg op q.addr (latchedLen op q) = .ok)
    (h : transact (stageCommand (acceptRequest op q s).ctl) (acceptRequest op q s) = .next u)
    (hd : u.ctl.phase = .done) : exec (op.instr q) s = .next (respond u) := by
  obtain ⟨hb, -⟩ := acceptRequest_valid (s := s) hv
  have hne (p : Phase) (f : State → Out) (h : p ≠ .done) : inPhase p f u = .next u :=
    inPhase_of_ne (by rw [hd]; exact h.symm)
  rw [stageCommand_acceptRequest hv] at h
  rw [exec_hostOp]
  split
  next hop =>
    rw [if_pos hop] at h
    simp only [writingOperation, hp, inPhase_of hb, h, hne .settle _ (by simp), hne .xbegin _ (by simp), andThen_next,
      response_of_done hd]
  next hop =>
    rw [if_neg hop] at h
    simp only [readingOperation, hp, inPhase_of hb, commandTransaction, acceptRequest_addr, h, andThen_next,
      response_of_done hd]

/-- A valid operation whose first transaction the device refuses. -/
theorem exec_hostOp_refused_first {op : HostOp} {q : Operands} {s : State} {r : Refusal} (hp : s.ctl.phase = .idle)
    (hv : validate s.cfg op q.addr (latchedLen op q) = .ok)
    (h : transact (stageCommand (acceptRequest op q s).ctl) (acceptRequest op q s) = .refused r) :
    exec (op.instr q) s = .refused r := by
  obtain ⟨hb, -⟩ := acceptRequest_valid (s := s) hv
  rw [stageCommand_acceptRequest hv] at h
  rw [exec_hostOp]
  split
  next hop =>
    rw [if_pos hop] at h
    simp only [writingOperation, hp, inPhase_of hb, h, andThen_refused]
  next hop =>
    rw [if_neg hop] at h
    simp only [readingOperation, hp, inPhase_of hb, commandTransaction, acceptRequest_addr, h, andThen_refused]

/-- A transaction whose first exchange fails: BEGIN, the failed slot, END (R134). -/
theorem transact_first_fails (c : WireCmd) {s : State} (h : nextAnswer s = .fail) :
    ∃ t, transact c s = .next t ∧ t.ctl.phase = .done ∧ t.ctl.result = .busFault ∧ t.ctl.cs = .high ∧
      t.ctl.rbuf = s.ctl.rbuf ∧ t.trace = s.trace ++ [.csLow, .xfail c.op.opcode, .csHigh] := by
  obtain ⟨rest, hlayout⟩ := runSlots_begin c s
  have hfail : runSlot (.c c.op.opcode) rest.isEmpty (beginTransaction c s) =
      .next (failSlot c.op.opcode (deviceTurn (beginTransaction c s))) := runSlot_fail h
  have hrun : transact c s = .next (endTransaction (failSlot c.op.opcode (deviceTurn (beginTransaction c s)))) := by
    rw [transact]
    simp only [hlayout, runSlots, hfail, andThen_next, failSlot_xok, Bool.false_eq_true, if_false]
  refine ⟨_, hrun, ?_⟩
  rcases transact_successor hrun with ⟨-, hd, hr, -⟩ | h' | h' | h' | h'
  · exact ⟨hd, hr, by simp [endTransaction_frame], by simp [endTransaction_frame], by simp [endTransaction_trace]⟩
  all_goals simp [endTransaction_frame] at h'

/-- Settles O49: the first transaction ends in `DONE` with `BusFault`, and the response delivers it. -/
theorem firstExchangeFailureEndsTheOperation : Obligations.FirstExchangeFailureEndsTheOperation := by
  intro s op q hp hv hfail
  obtain ⟨u, hrun, hd, hr, hcs, hrbuf, htr⟩ :=
    transact_first_fails (stageCommand (acceptRequest op q s).ctl) (s := acceptRequest op q s)
      (by simpa [nextAnswer] using hfail)
  have hopcode : (stageCommand (acceptRequest op q s).ctl).op.opcode =
      if op = .program ∨ op = .eraseSector then 0x06#8 else (commandOf op).opcode := by
    simp only [stageCommand_acceptRequest hv, ← writeClass_iff]
    split <;> rfl
  exact ⟨respond u, exec_hostOp_done hp hv hrun hd, by simp [htr, hr, hrbuf, hopcode], hr, rfl, hcs⟩

/-- Settles O23: rows T5, T6 to T11 and T13, one after another. -/
theorem failedSlotEndsTheOperation : Obligations.FailedSlotEndsTheOperation := by
  refine ⟨fun s sl hp hsl hfail => ?_, fun s hp => ?_, fun s hp => ?_⟩
  · exact ⟨_, (tick_xslot hp hsl).trans (runSlot_fail hfail), rfl, rfl, rfl, rfl, rfl, rfl, rfl,
      deviceTurn_stream s⟩
  · obtain ⟨-, hcs, -⟩ := endTransaction_frame s
    refine ⟨_, tick_xend hp, hcs, endTransaction_trace s, fun hx => ?_⟩
    rcases endTransaction_successor s with h | h | h | h | h
    · exact ⟨h.2.1, h.2.2.1⟩
    all_goals simp [hx] at h
  · exact ⟨_, tick_done hp, rfl, rfl, rfl⟩

/-! ### Completion -/

/-- Completion of a page inside the device ANDs it (R73). -/
theorem programmed_of_complete {s t : State} {a : Nat} {w : List Byte} (hs : s.dev.Sound s.cfg)
    (hpend : s.dev.pending = some (.prog a w)) (hrange : a + w.length ≤ s.cfg.deviceSize)
    (hmem : t.dev.mem = s.dev.applyPending s.cfg) : Programmed s t a w := by
  intro x
  rw [arrayByte, hmem, Device.applyPending_prog hpend hrange, Memory.get_program hs.1 hrange]
  rfl

/-- Completion of a sector erase makes it all ones (R74). -/
theorem erased_of_complete {s t : State} {a : Nat} (hpend : s.dev.pending = some (.erase a))
    (hmem : t.dev.mem = s.dev.applyPending s.cfg) : Erased s t a s.cfg.sectorSize := by
  intro x
  rw [arrayByte, hmem, Device.applyPending_erase hpend, Memory.get_erase]
  rfl

theorem deviceTurn_of_completes {s : State} (h : completesNow s = true) :
    (deviceTurn s).dev = s.dev.complete s.cfg := by
  rw [deviceTurn_dev, if_pos h]

/-- Settles O59: the two effects of completion, the flags it clears, and the schedule by its first entry. -/
theorem completionAppliesThePendingOperation : Obligations.CompletionAppliesThePendingOperation := by
  intro s _ hsound
  refine ⟨fun a w hpend hrange hc => ?_, fun a hpend hc => ?_, fun hpend hc => ?_, fun hc => ?_, ?_, fun hc => ?_⟩
  · exact programmed_of_complete hsound hpend hrange (by rw [deviceTurn_of_completes hc]; rfl)
  · exact erased_of_complete hpend (by rw [deviceTurn_of_completes hc]; rfl)
  · simp [deviceTurn_of_completes hc, Device.complete, Device.applyPending, hpend]
  · rw [Finished, deviceTurn_of_completes hc]
    exact ⟨rfl, rfl, rfl⟩
  · cases hturns : s.env.turns with
    | nil => simp [completesNow, hturns]
    | cons b rest => simp [completesNow, hturns]
  · rw [deviceTurn_dev, if_neg (by simp [hc])]

end Sys2Proof.Machine
end

section
/-! PROOFS. The host operations that read (R196 to R201). -/

namespace Sys2Proof.Machine

theorem valid_readLock {cfg : Cfg} {addr : Word} {len : Nat} (hf : addressFits addr = true)
    (hr : addr.toNat < cfg.deviceSize) : validate cfg .readLock addr len = .ok := by
  simp [validate, addressInvalid, lengthInvalid, hf, hr]

theorem valid_read_iff {cfg : Cfg} {addr : Word} {len : Nat} :
    validate cfg .read addr len = .ok ↔ addressFits addr = true ∧ addr.toNat + len ≤ cfg.deviceSize := by
  rw [validate_eq_ok]
  simp [addressInvalid, lengthInvalid]

/-- Settles O35: the one transaction of the operation captures the JEDEC bytes. -/
theorem readIdJedecReturnsTheId : Obligations.ReadIdJedecReturnsTheId := by
  intro s q h
  obtain ⟨-, hL, hsound, -⟩ := id h
  obtain ⟨t, hrun, htr, hrbuf, hrest⟩ := exec_reading (op := .readIdJedec) (q := q) h rfl
    (by simp [validate, addressInvalid, lengthInvalid])
  have hcap : captured s.cfg s.dev [] s.free (slotsOf s.cfg (wireCmd .rdid q.addr) q.len.toNat q.wbuf) = s.dev.jedec :=
    captured_rdid _ _ hsound
  simp only [commandOf, sentOf_rdid _ hL, hcap] at htr hrbuf
  exact ⟨t, hrun, htr, hrbuf, hrest⟩

/-- Settles O36: the least length is 2 by R6. -/
theorem readIdLegacyReturnsTheId : Obligations.ReadIdLegacyReturnsTheId := by
  intro s q h hlen
  obtain ⟨-, ⟨-, -, -, -, -, hmin, -⟩, -⟩ := id h
  obtain ⟨t, hrun, htr, hrbuf, hrest⟩ := exec_reading (op := .readIdLegacy) (q := q) h rfl
    (by simp [validate, addressInvalid, lengthInvalid, hmin]; omega)
  obtain ⟨hcount, hids⟩ := captured_rdmdid (cfg := s.cfg) (d := s.dev) s.free (n := q.len.toNat) q.wbuf
  simp only [commandOf, sentOf_rdmdid] at htr hrbuf
  exact ⟨t, _, hrun, htr, hcount, hids, hrbuf, hrest⟩

/-- Settles O38: the one transaction of the operation captures the register. -/
theorem readStatus3ReturnsTheRegister : Obligations.ReadStatus3ReturnsTheRegister := by
  intro s q h
  obtain ⟨-, hL, -⟩ := id h
  obtain ⟨t, hrun, htr, hrbuf, hrest⟩ := exec_reading (op := .readStatus3) (q := q) h rfl
    (by simp [validate, addressInvalid, lengthInvalid])
  have hcap : captured s.cfg s.dev [] s.free (slotsOf s.cfg (wireCmd .rdsr3 q.addr) q.len.toNat q.wbuf) = [s.dev.sr3] :=
    captured_rdsr3 _ _
  simp only [commandOf, sentOf_rdsr3 _ hL, hcap] at htr hrbuf
  exact ⟨t, hrun, htr, hrbuf, hrest⟩

/-- Settles O39: an address inside the device fits 24 bits by R6. -/
theorem readLockReturnsTheLockByte : Obligations.ReadLockReturnsTheLockByte := by
  intro s q h hrange
  obtain ⟨-, hL, -⟩ := id h
  have hsize : s.cfg.deviceSize ≤ 2 ^ 24 := by
    obtain ⟨-, -, -, -, -, -, -, -, -, -, hsize, -⟩ := hL
    exact hsize
  have hfit : addressFits q.addr = true := (addressFits_iff _).2 (by omega)
  obtain ⟨t, hrun, htr, hrbuf, hrest⟩ := exec_reading (op := .readLock) (q := q) h rfl (valid_readLock hfit hrange)
  simp only [commandOf, sentOf_rdlock _ hL, captured_rdlock _ _ hfit hrange] at htr hrbuf
  exact ⟨t, hrun, htr, hrbuf, hrest⟩

/-- A valid READ returns the array. -/
theorem exec_read {s : State} {q : Operands} (h : HostReady s) (hv : validate s.cfg .read q.addr q.len.toNat = .ok) :
    ∃ t, exec (.readHost q) s = .next t ∧
      ReadingTrace s t .read q (0x03#8 :: (addressBytes q.addr ++ List.replicate q.len.toNat s.cfg.fill))
        (Memory.read erasedByte s.dev.mem q.addr.toNat q.len.toNat) ∧
      t.ctl.rbuf = Memory.read erasedByte s.dev.mem q.addr.toNat q.len.toNat ∧ t.ctl.result = .ok ∧ AtRest t ∧
      ReadingFrame s t := by
  obtain ⟨t, hrun, htr, hrbuf, hrest⟩ := exec_reading (op := .read) (q := q) h rfl hv
  obtain ⟨hfit, hrange⟩ := valid_read_iff.1 hv
  simp only [commandOf, sentOf_read, captured_read _ _ hfit hrange] at htr hrbuf
  exact ⟨t, hrun, htr, hrbuf, hrest⟩

/-- Settles O40: validation keeps the range inside the device, where the answers are array bytes. -/
theorem readReturnsTheArray : Obligations.ReadReturnsTheArray :=
  fun _ _ h hfit hrange => exec_read h (valid_read_iff.2 ⟨(addressFits_iff _).2 hfit, hrange⟩)

/-- After a reading operation the next request finds the same conditions. -/
theorem hostReady_after_reading {op : HostOp} {q : Operands} {s t : State} (h : HostReady s)
    (hrun : exec (op.instr q) s = .next t) (hrest : AtRest t) (hframe : ReadingFrame s t) : HostReady t := by
  obtain ⟨-, hL, hsound, hb, ht⟩ := h
  obtain ⟨hcfg, -, -, -, hdev⟩ := hframe
  exact ⟨hrest.1, hcfg ▸ hL, by rw [hcfg, hdev]; exact hsound, by rw [hdev]; exact hb,
    (exec_hostOp_inputs hrun).transportOk ht⟩

/-- Settles O41: the first READ leaves the array, and every condition of the second, as they were. -/
theorem readIsIdempotent : Obligations.ReadIsIdempotent := by
  intro s q h hv
  obtain ⟨t, hrun, -, hrbuf, hr, hrest, hframe⟩ := exec_read h hv
  have hready := hostReady_after_reading (op := .read) h hrun hrest hframe
  obtain ⟨hcfg, -, -, -, hdev⟩ := hframe
  obtain ⟨u, hrun', -, hrbuf', hr', -, -, -, -, -, hdev'⟩ := exec_read (q := q) hready (hcfg ▸ hv)
  refine ⟨t, u, hrun, hrun', ?_, hr, hr', ?_⟩
  · rw [hrbuf', hrbuf, hdev]
  · rw [hdev', hdev]

/-- Settles O37: one status read in the CMD stage, whatever the device is doing. -/
theorem readStatusReturnsTheStatus : Obligations.ReadStatusReturnsTheStatus := by
  intro s q hp hcs hL ht
  have hv : validate s.cfg .readStatus q.addr (latchedLen .readStatus q) = .ok := by
    simp [validate, addressInvalid, lengthInvalid]
  obtain ⟨-, hst⟩ := acceptRequest_valid (s := s) hv
  have hcmd : stageCommand (acceptRequest .readStatus q s).ctl = wireCmd .rdsr 0#32 := by
    rw [stageCommand_acceptRequest hv]; rfl
  obtain ⟨u, d, hrun, hd, hud, hx, -, hstream, -, -, hstage, -, body, hex, htr⟩ :=
    transact_status (s := acceptRequest .readStatus q s) (by simpa [TransportOk] using ht)
  obtain ⟨hrbuf, hsr⟩ := hstage hst
  obtain ⟨-, -, hdone⟩ := readingEnd_of_transact hst hrun hx hsr
  obtain ⟨hphase, hr, -, hpolls⟩ := hdone (by simp [writeClass])
  obtain ⟨hcfg, hcs', -, -, -, -, -, hreq⟩ := transact_frame hrun
  simp only [acceptRequest_cfg, acceptRequest_dev, acceptRequest_rbuf, acceptRequest_sr, acceptRequest_polls,
    acceptRequest_trace, acceptRequest_requests, List.nil_append] at hd hud hrbuf hsr hpolls htr hcfg hreq hex
  replace hd : Evolved s.cfg s.dev d := (deviceTurn_evolved s).trans hd
  refine ⟨respond u, statusByte d, exec_hostOp_done (op := .readStatus) hp hv (hcmd ▸ hrun) hphase, ⟨body, hex, ?_⟩,
    hd.statusByte_eq, hrbuf, hr, ⟨rfl, hcs'⟩, fun hb => ⟨hcfg, hreq, hsr, hpolls, ?_⟩⟩
  · simp [htr, hr, hrbuf]
  · have hidle := (hd.trans hud).of_idle hb
    have hub : u.dev.busy = false := (sameBut_stream hidle).2.1.trans hb
    rw [respond_dev, deviceTurn_of_idle hub, ← hidle, ← hstream]

end Sys2Proof.Machine
end

section
/-! PROOFS. That every request is answered (R241): a transaction that went through is one of a transport without
failures, a status read is never refused, and the poll loop ends. -/

namespace Sys2Proof.Machine

/-! ### A transaction that went through

The idea: where no exchange failed, the transport's answers have played no part, so what is known of a transport that
does not fail is known of this transaction. -/

/-- `s` with no answer of the transport listed, so that every exchange succeeds. -/
def State.calm (s : State) : State := { s with env := { s.env with answers := [] } }

@[simp] theorem State.calm_cfg (s : State) : s.calm.cfg = s.cfg := rfl
@[simp] theorem State.calm_ctl (s : State) : s.calm.ctl = s.ctl := rfl
@[simp] theorem State.calm_dev (s : State) : s.calm.dev = s.dev := rfl
@[simp] theorem State.calm_turns (s : State) : s.calm.env.turns = s.env.turns := rfl

theorem State.calm_transportOk (s : State) : TransportOk s.calm := nofun

theorem runSlots_calm {slots : List Slot} {s t : State} (hx : s.ctl.xok = true) (h : runSlots slots s = .next t)
    (ht : t.ctl.xok = true) : runSlots slots s.calm = .next t.calm := by
  induction slots generalizing s with
  | nil => cases h; rfl
  | cons sl rest ih =>
    obtain ⟨u, h1, h2⟩ := andThen_eq_next.1 h
    rcases runSlot_cases h1 with ⟨-, rfl⟩ | ⟨-, hr, rfl⟩
    · simp only [failSlot_xok, Bool.false_eq_true, if_false, Host.Outcome.next.injEq] at h2
      subst h2
      cases ht
    · simp only [doneSlot_xok, deviceTurn_ctl, hx, if_true] at h2
      have hslot := runSlot_ok (sl := sl) (last := rest.isEmpty) (s := s.calm) rfl hr
      rw [runSlots, hslot, andThen_next, if_pos (by simpa using hx)]
      exact ih (by simp [hx]) h2

theorem endTransaction_calm (s : State) : endTransaction s.calm = (endTransaction s).calm := by
  unfold endTransaction afterEnd
  cases hx : s.ctl.xok with
  | false => simp [hx, State.calm, raise, releaseSelect, deviceTurn, completesNow, emit]
  | true =>
    cases hst : s.ctl.stage with
    | gate => simp [hx, hst, State.calm, releaseSelect, deviceTurn, completesNow, emit]
    | cmd =>
      cases hw : writeClass s.ctl.opr <;>
        simp [hx, hst, hw, State.calm, raise, releaseSelect, deviceTurn, completesNow, emit]
    | poll =>
      cases hv : pollVerdict s.cfg s.ctl.sr (s.ctl.polls + 1) <;>
        simp [hx, hst, hv, State.calm, raise, releaseSelect, deviceTurn, completesNow, emit]

theorem transact_calm {c : WireCmd} {s t : State} (h : transact c s = .next t) (ht : t.ctl.xok = true) :
    transact c s.calm = .next t.calm := by
  obtain ⟨u, hbody, rfl⟩ := transact_cases h
  have hu : u.ctl.xok = true := by simpa [endTransaction_frame] using ht
  have hrun := runSlots_calm (by simp) hbody hu
  rw [transact, show beginTransaction c s.calm = (beginTransaction c s).calm from rfl]
  change andThen (runSlots (layout c.op (beginTransaction c s)) (beginTransaction c s).calm) _ = _
  rw [hrun, andThen_next, endTransaction_calm]

/-- A status read of the poll that went through: `d` is the device as it was when the byte was sampled (R79, R170). -/
theorem transact_status_ok {s t : State} (hst : s.ctl.stage = .poll) (h : transact (wireCmd .rdsr 0#32) s = .next t)
    (ht : t.ctl.xok = true) :
    ∃ d, Evolved s.cfg s.dev d ∧ Evolved s.cfg d t.dev ∧ t.ctl.sr = statusByte d ∧
      (s.env.turns = [] → s.dev.failed = false → d.busy = false) := by
  obtain ⟨u, d, hrun, hd, hud, -, -, -, hprompt, -, -, hpoll, -⟩ := transact_status s.calm_transportOk
  obtain rfl : u = t.calm := by simpa [transact_calm h ht] using hrun.symm
  exact ⟨d, hd, hud, (hpoll hst).1, hprompt⟩

/-! ### The answers of the transport are used up -/

/-- A body that went through has taken one answer for each of its slots, none of them a failure. -/
theorem runSlots_answers {slots : List Slot} {s t : State} (hx : s.ctl.xok = true) (h : runSlots slots s = .next t)
    (ht : t.ctl.xok = true) (hfail : .fail ∈ s.env.answers) :
    .fail ∈ t.env.answers ∧ t.env.answers.length + slots.length ≤ s.env.answers.length := by
  induction slots generalizing s with
  | nil => cases h; exact ⟨hfail, by simp⟩
  | cons sl rest ih =>
    obtain ⟨u, h1, h2⟩ := andThen_eq_next.1 h
    rcases runSlot_cases h1 with ⟨-, rfl⟩ | ⟨ha, -, rfl⟩
    · simp only [failSlot_xok, Bool.false_eq_true, if_false, Host.Outcome.next.injEq] at h2
      subst h2
      cases ht
    · simp only [doneSlot_xok, deviceTurn_ctl, hx, if_true] at h2
      cases hans : s.env.answers with
      | nil => simp [hans] at hfail
      | cons a answers =>
        obtain rfl : a = .ok := by simpa [nextAnswer, hans] using ha
        obtain ⟨hmem, hlen⟩ := ih (by simp [hx]) h2 (by simpa [hans] using hfail)
        refine ⟨hmem, ?_⟩
        simp only [doneSlot_answers, deviceTurn_answers, hans, List.tail_cons, List.length_cons] at hlen ⊢
        omega

/-- A transaction that went through has left the failure that is still to come, and taken at least one answer. -/
theorem transact_answers {c : WireCmd} {s t : State} (h : transact c s = .next t) (ht : t.ctl.xok = true)
    (hfail : .fail ∈ s.env.answers) :
    .fail ∈ t.env.answers ∧ t.env.answers.length < s.env.answers.length := by
  obtain ⟨u, hbody, rfl⟩ := transact_cases h
  have hu : u.ctl.xok = true := by simpa [endTransaction_frame] using ht
  obtain ⟨hmem, hlen⟩ := runSlots_answers (by simp) hbody hu (by simpa using hfail)
  have hpos := List.length_pos_of_ne_nil (layout_ne_nil c.op c s)
  rw [beginTransaction_answers] at hlen
  simp only [endTransaction_frame]
  exact ⟨hmem, by omega⟩

/-! ### The poll loop ends -/

/-- What ends a poll within `n` more reads: the budget, the completion of a device that has not failed, or a failure of
the transport to come (R172, R174, R178). -/
def EndsWithin (n : Nat) (s : State) : Prop :=
  (∃ m, s.cfg.pollMax = some m ∧ 0 < n ∧ m ≤ s.ctl.polls + n) ∨
    (s.dev.failed = false ∧ s.env.turns.length < n) ∨
    (.fail ∈ s.env.answers ∧ s.env.answers.length < n)

/-- After a read that leaves the loop going, one read fewer is enough. -/
theorem EndsWithin.step {n : Nat} {s t : State} (h : EndsWithin (n + 1) s) (hL : s.cfg.Legal)
    (hst : s.ctl.stage = .poll) (hrun : transact (wireCmd .rdsr 0#32) s = .next t) (hp : t.ctl.phase = .pollwait) :
    EndsWithin n (pollDelay t) := by
  obtain ⟨hcfg, -⟩ := transact_frame hrun
  obtain ⟨-, hturns, hfailed⟩ := transact_inputs hrun
  have hsucc := transact_successor hrun
  simp only [hst, hp, reduceCtorEq, false_and, and_false, false_or, true_and] at hsucc
  obtain ⟨hx, -, hpolls, hv⟩ := hsucc
  have hnone : pollVerdict s.cfg t.ctl.sr (s.ctl.polls + 1) = none := by
    split at hv
    · exact hv.elim
    · assumption
  rcases h with ⟨m, hm, -, hle⟩ | ⟨hf, hlt⟩ | ⟨hfail, hlt⟩
  · have hlt := lt_of_pollVerdict_eq_none hnone hm
    refine .inl ⟨m, by simpa [hcfg] using hm, by omega, ?_⟩
    rw [pollDelay_polls, hpolls]
    omega
  · obtain ⟨d, -, -, hsr, hprompt⟩ := transact_status_ok hst hrun hx
    have hne : s.env.turns ≠ [] := by
      intro hnil
      have hidle := hprompt hnil hf
      simp [pollVerdict, hsr, isBusy_statusByte (busyMask_of_legal hL), hidle] at hnone
    have hpos := List.length_pos_of_ne_nil hne
    have hle := hturns.length_le
    refine .inr (.inl ⟨by simpa [hfailed] using hf, ?_⟩)
    rw [pollDelay_turns, List.length_tail]
    omega
  · obtain ⟨hmem, hlen⟩ := transact_answers hrun hx hfail
    exact .inr (.inr ⟨hmem, by rw [pollDelay_answers]; omega⟩)

/-- A poll loop that is allowed as many reads as end it ends in `DONE`. -/
theorem pollLoop_done {n : Nat} {s t : State} (hL : s.cfg.Legal) (hst : s.ctl.stage = .poll) (hends : EndsWithin n s)
    (h : pollLoop n s = .next t) : t.ctl.phase = .done := by
  induction n generalizing s with
  | zero => simp [EndsWithin] at hends
  | succ n ih =>
    obtain ⟨u, hread, h⟩ := andThen_eq_next.1 h
    rcases transact_phase hread with hd | hd | hd | ⟨-, hst', hd⟩
    · simp only [hd, Host.Outcome.next.injEq] at h
      exact h ▸ hd
    · simp [hst] at hd
    · simp [hst] at hd
    · simp only [hd] at h
      exact ih (by rw [pollDelay_cfg, (transact_frame hread).1]; exact hL) (by simpa using hst')
        (hends.step hL hst hread hd) h

/-- `pollReads` are enough reads (R174, log entry 10). -/
theorem endsWithin_pollReads {s : State} (h : PollEnds s ∨ .fail ∈ s.env.answers) : EndsWithin (pollReads s) s := by
  unfold pollReads
  cases hm : s.cfg.pollMax with
  | some m => exact .inl ⟨m, hm, Nat.succ_pos m, by simp only; omega⟩
  | none =>
    rcases h with (h | h) | h
    · exact absurd hm h
    · exact .inr (.inl ⟨h, by simp only; omega⟩)
    · exact .inr (.inr ⟨h, by simp only; omega⟩)

/-- What makes the poll end is left as it was by a transaction that went through. -/
theorem transact_pollEnds {c : WireCmd} {s t : State} (hrun : transact c s = .next t) (ht : t.ctl.xok = true)
    (h : PollEnds s ∨ .fail ∈ s.env.answers) : PollEnds t ∨ .fail ∈ t.env.answers := by
  obtain ⟨-, -, hfailed⟩ := transact_inputs hrun
  refine h.imp (fun h => ?_) fun h => (transact_answers hrun ht h).1
  rwa [PollEnds, (transact_frame hrun).1, hfailed]

theorem acceptRequest_pollEnds {op : HostOp} {q : Operands} {s : State} (h : PollEnds s ∨ .fail ∈ s.env.answers) :
    PollEnds (acceptRequest op q s) ∨ .fail ∈ (acceptRequest op q s).env.answers := by
  simpa [PollEnds] using h

theorem settleDelay_pollEnds {s : State} (h : PollEnds s ∨ .fail ∈ s.env.answers) :
    PollEnds (settleDelay s) ∨ .fail ∈ (settleDelay s).env.answers := by
  simpa [PollEnds] using h

/-- A host operation returns, if its poll ends (R241). -/
theorem exec_hostOp_returns {op : HostOp} {q : Operands} {s t : State} (hL : s.cfg.Legal)
    (hends : PollEnds s ∨ .fail ∈ s.env.answers) (h : exec (op.instr q) s = .next t) : t.ctl.phase = .idle := by
  rw [exec_hostOp] at h
  split at h
  next hop =>
    obtain ⟨-, ⟨-, rfl⟩ | ⟨u, -, hgate, ⟨-, -, rfl⟩ | ⟨v, hxu, -, hcmd, ⟨-, -, rfl⟩ |
      ⟨x, hxv, -, hst, -, hloop, ⟨-, rfl⟩ | ⟨hp, -, rfl⟩⟩⟩⟩⟩ := writingOperation_cases hop h
    · rfl
    · rfl
    · rfl
    · rfl
    · have hends' := transact_pollEnds hcmd hxv
        (settleDelay_pollEnds (transact_pollEnds hgate hxu (acceptRequest_pollEnds hends)))
      have hLv : v.cfg.Legal := by
        rw [(transact_frame hcmd).1, settleDelay_cfg, (transact_frame hgate).1, acceptRequest_cfg]
        exact hL
      have hd := pollLoop_done hLv hst (endsWithin_pollReads hends') hloop
      simp [hp] at hd
  next hop =>
    obtain ⟨-, ⟨-, rfl⟩ | ⟨u, -, -, -, rfl⟩⟩ := readingOperation_cases (by simpa using hop) h
    · rfl
    · rfl

/-! ### What can be refused -/

theorem andThen_eq_refused {o : Out} {f : State → Out} {r : Refusal} :
    andThen o f = .refused r ↔ o = .refused r ∨ ∃ s, o = .next s ∧ f s = .refused r := by
  cases o <;> simp

theorem runSlot_refused {sl : Slot} {last : Bool} {s : State} {r : Refusal} (h : runSlot sl last s = .refused r) :
    (deviceTurn s).dev.refuses (Slot.tx s.cfg sl) = some r := by
  unfold runSlot at h
  simp only [deviceTurn_cfg] at h
  split at h
  · cases h
  · split at h
    · cases h; assumption
    · cases h

/-- Only the first byte of a transaction can be refused (R80, R109). -/
theorem runSlots_not_refused {slots : List Slot} {s : State} (hs : s.dev.stream ≠ []) (r : Refusal) :
    runSlots slots s ≠ .refused r := by
  induction slots generalizing s with
  | nil => simp [runSlots]
  | cons sl rest ih =>
    intro h
    rcases andThen_eq_refused.1 h with h | ⟨u, h1, h⟩
    · simpa [Device.refuses_later (d := (deviceTurn s).dev) (by simpa using hs)] using runSlot_refused h
    · split at h
      · refine ih ?_ h
        rcases runSlot_cases h1 with ⟨-, rfl⟩ | ⟨-, -, rfl⟩ <;> simp [hs]
      · cases h

/-- A transaction is refused only if its command is no status read and the device is busy (R80). -/
theorem transact_refused {c : WireCmd} {s : State} {r : Refusal} (h : transact c s = .refused r) :
    r = .commandWhileBusy ∧ c.op ≠ .rdsr ∧ s.dev.busy = true := by
  obtain ⟨rest, hlayout⟩ := runSlots_begin c s
  rw [transact] at h
  rcases andThen_eq_refused.1 h with h | ⟨_, -, h⟩
  · rw [hlayout] at h
    rcases andThen_eq_refused.1 h with h | ⟨u, h1, h⟩
    · have hrefuses := runSlot_refused h
      simp only [Slot.tx] at hrefuses
      have hbusy : (deviceTurn (beginTransaction c s)).dev.busy = true := by
        by_contra hb
        simp [Device.refuses_opcode c.op (.inl (by simpa using hb))] at hrefuses
      have hop : c.op ≠ .rdsr := fun hop => by simp [Device.refuses_opcode c.op (.inr hop)] at hrefuses
      rw [Device.refuses_busy (by simp) hbusy hop] at hrefuses
      obtain ⟨-, hb⟩ := deviceTurn_busy_of hbusy
      obtain ⟨-, hb⟩ := deviceTurn_busy_of (s := s) (by simpa using hb)
      exact ⟨by simpa using hrefuses.symm, hop, hb⟩
    · rcases runSlot_cases h1 with ⟨-, rfl⟩ | ⟨-, -, rfl⟩
      · simp at h
      · split at h
        · exact absurd h (runSlots_not_refused (by simp) r)
        · cases h
  · cases h

/-- After a gate that went through the device is not busy: a busy one would have refused it (R72, R80). -/
theorem transact_gate_idle {s t : State} (h : transact (wireCmd .wren 0#32) s = .next t) (ht : t.ctl.xok = true) :
    t.dev.busy = false := by
  obtain ⟨u, hbody, rfl⟩ := transact_cases h
  have hlayout : layout (wireCmd .wren 0#32).op (beginTransaction (wireCmd .wren 0#32) s) = [.c WireOp.wren.opcode] := rfl
  rw [hlayout] at hbody
  obtain ⟨x, hslot, hrest⟩ := andThen_eq_next.1 hbody
  obtain ⟨-, -, -, -, -, -, -, -, -, -, hxok, -, -, -, -, hdev, -⟩ := endTransaction_frame u
  rw [hxok] at ht
  rcases runSlot_cases hslot with ⟨-, rfl⟩ | ⟨-, hrefuses, rfl⟩
  · simp at hrest
    simp [← hrest] at ht
  · simp [runSlots] at hrest
    have hbusy : (deviceTurn (beginTransaction (wireCmd .wren 0#32) s)).dev.busy = false := by
      by_contra hb
      have := Device.refuses_busy (d := (deviceTurn (beginTransaction (wireCmd .wren 0#32) s)).dev) (op := .wren)
        (by simp) (by simpa using hb) (by simp)
      rw [beginTransaction_cfg] at hrefuses
      simp [Slot.tx, this] at hrefuses
    have hub : u.dev.busy = false := by rw [← hrest]; simpa using hbusy
    have hstream : (deviceTurn u).dev.stream = (wireCmd .wren 0#32).frame.bytes ++ [] := by
      rw [deviceTurn_stream, ← hrest]
      simp [Slot.tx, wireCmd, WireCmd.frame_bytes, WireOp.addressBearing]
    rw [hdev, ht]
    simp only [Device.released, if_true, act_after_frame _ _ _ .wren addressFits_zero [] hstream]
    rw [deviceTurn_of_idle hub]
    exact hub

theorem pollLoop_next {n : Nat} {s : State} : ∃ t, pollLoop n s = .next t := by
  induction n generalizing s with
  | zero => exact ⟨s, rfl⟩
  | succ n ih =>
    cases h : transact (wireCmd .rdsr 0#32) s with
    | fault r => exact absurd h (transact_not_fault _ _ _)
    | refused r => exact absurd rfl (transact_refused h).2.1
    | next u =>
      simp only [pollLoop, h, andThen_next]
      split
      · exact ih
      all_goals exact ⟨u, rfl⟩

theorem response_next (s : State) : ∃ t, response s = .next t := by
  by_cases h : s.ctl.phase = .done
  · exact ⟨_, response_of_done h⟩
  · exact ⟨s, inPhase_of_ne h⟩

/-- After its command a write-class operation goes on: status reads are never refused. -/
theorem polled_response_next (s : State) :
    ∃ t, andThen (inPhase .xbegin (fun s => pollLoop (pollReads s) s) s) response = .next t := by
  by_cases h : s.ctl.phase = .xbegin
  · obtain ⟨u, hu⟩ := pollLoop_next (n := pollReads s) (s := s)
    rw [inPhase_of h, hu, andThen_next]
    exact response_next u
  · rw [inPhase_of_ne h, andThen_next]
    exact response_next s

/-- A host operation goes on, or its first transaction is refused by a busy device. -/
theorem exec_hostOp_next_or_refused (op : HostOp) (q : Operands) {s : State} (hp : s.ctl.phase = .idle) :
    (∃ t, exec (op.instr q) s = .next t) ∨
      exec (op.instr q) s = .refused .commandWhileBusy ∧ s.dev.busy = true ∧ op ≠ .readStatus ∧
        validate s.cfg op q.addr (latchedLen op q) = .ok := by
  by_cases hv : validate s.cfg op q.addr (latchedLen op q) = .ok
  swap
  · exact .inl ⟨_, exec_hostOp_invalid hp hv⟩
  obtain ⟨hb, hst⟩ := acceptRequest_valid (s := s) hv
  cases hfirst : transact (stageCommand (acceptRequest op q s).ctl) (acceptRequest op q s) with
  | fault r => exact absurd hfirst (transact_not_fault _ _ _)
  | refused r =>
    obtain ⟨rfl, hne, hbusy⟩ := transact_refused hfirst
    refine .inr ⟨exec_hostOp_refused_first hp hv hfirst, (deviceTurn_busy_of (by simpa using hbusy)).2, ?_, hv⟩
    rintro rfl
    rw [stageCommand_acceptRequest hv] at hne
    exact hne rfl
  | next u =>
    left
    rw [stageCommand_acceptRequest hv] at hfirst
    rw [exec_hostOp]
    split at hfirst
    next hop =>
      rw [if_pos hop]
      simp only [writingOperation, hp, inPhase_of hb, hfirst, andThen_next]
      by_cases hs : u.ctl.phase = .settle
      swap
      · rw [inPhase_of_ne hs, andThen_next]
        exact polled_response_next u
      have hxu : u.ctl.xok = true := by
        rcases transact_successor hfirst with h | h | h | h | h
        · simp [hs] at h
        all_goals exact h.1
      have hidle := transact_gate_idle hfirst hxu
      rw [inPhase_of hs, commandTransaction]
      cases hcmd : transact (wireCmd (commandOf op) (settleDelay u).ctl.addr) (settleDelay u) with
      | fault r => exact absurd hcmd (transact_not_fault _ _ _)
      | refused r =>
        have hbusy := (transact_refused hcmd).2.2
        rw [settleDelay_dev, deviceTurn_of_idle hidle, hidle] at hbusy
        cases hbusy
      | next v => exact polled_response_next v
    next hop =>
      rw [if_neg hop]
      simp only [readingOperation, hp, inPhase_of hb, commandTransaction, acceptRequest_addr, hfirst, andThen_next]
      exact response_next u

/-- The events so far stay, and are followed by the operation's own up to its response. -/
theorem exec_hostOp_trace {op : HostOp} {q : Operands} {s t : State} (h : exec (op.instr q) s = .next t)
    (hp : t.ctl.phase = .idle) : ∃ events, t.trace = s.trace ++ events ++ [.resp t.ctl.result t.ctl.rbuf] := by
  obtain ⟨u, hpre, ⟨-, rfl⟩ | ⟨hp', -, rfl⟩⟩ := exec_hostOp_stages (P := fun u => s.trace <+: u.trace) h (by simp)
    (fun x y hx _ hxy => by
      obtain ⟨events, htr, -⟩ := transact_trace hxy
      exact hx.trans ⟨_, htr.symm⟩)
    (fun x hx _ => hx.trans ⟨_, rfl⟩) (fun x hx _ => hx.trans ⟨_, rfl⟩)
  · obtain ⟨events, hev⟩ := hpre
    exact ⟨events, by simp [← hev]⟩
  · simp [hp'] at hp

/-- Settles O57: only the first transaction can be refused, and the poll loop ends. -/
theorem everyRequestIsAnswered : Obligations.EveryRequestIsAnswered := by
  intro s op q hp hL hends
  rcases exec_hostOp_next_or_refused op q hp with ⟨t, ht⟩ | h
  · have hidle := exec_hostOp_returns hL hends ht
    obtain ⟨events, htr⟩ := exec_hostOp_trace ht hidle
    exact .inl ⟨t, events, ht, hidle, htr⟩
  · exact .inr h

/-! ### The select line where steps end (R136) -/

/-- A row that appends a response and nothing else delivers it: it starts in `DONE`. -/
theorem tick_response {s t : State} {r : Result} {b : List Byte} (h : tick s = .next t)
    (hnew : newEvents s t = [.resp r b]) : s.ctl.phase = .done ∧ t = respond s := by
  unfold tick at h
  cases hp : s.ctl.phase <;> simp only [hp, Host.Outcome.next.injEq] at h
  case done => exact ⟨rfl, h.symm⟩
  case idle =>
    unfold idleRow at h
    split at h
    · cases h; simp [newEvents] at hnew
    · split at h
      · cases h
      · cases h; simp [newEvents] at hnew
  case xslot =>
    unfold slotRow at h
    simp only at h
    split at h
    · cases h
    · rcases runSlot_cases h with ⟨-, rfl⟩ | ⟨-, -, rfl⟩ <;> simp [newEvents] at hnew
  case xend => subst h; simp [newEvents, endTransaction_trace] at hnew
  all_goals subst h; simp [newEvents] at hnew

theorem selectDiscipline_of_atStepEnd {s : State} (h : AtStepEnd s) (hcs : s.ctl.cs = .high) : SelectDiscipline s := by
  rcases h with hp | ⟨-, hp | hp | hp⟩ <;> simp [SelectDiscipline, hp, hcs]

/-- Where a step ends the line is HIGH. -/
theorem step_cs_high {s t : State} (hend : AtStepEnd s) (hcs : s.ctl.cs = .high) (h : step s = .next t) :
    AtStepEnd t ∧ t.ctl.cs = .high := by
  have hsel := rowsKeep_selectDiscipline.step (selectDiscipline_of_atStepEnd hend hcs) h
  have hend' := step_atStepEnd hend h
  refine ⟨hend', ?_⟩
  rw [hsel.cs_eq]
  rcases hend' with hp | ⟨-, hp | hp | hp⟩ <;> simp [hp]

/-- Settles O15: the select line follows the phase, and only a poll that does not end leaves a step outside `IDLE`. -/
theorem noTransactionIsOpenAcrossOperations : Obligations.NoTransactionIsOpenAcrossOperations := by
  refine ⟨by decide, fun s t hs h => rowsKeep_selectDiscipline.tick hs h, fun s hs hp => ?_,
    fun s t r b hs h hnew => ?_, fun s t hend hcs h => step_cs_high hend hcs h, fun s t hrest hL hends h => ?_⟩
  · rw [hs.cs_eq]
    rcases hp with hp | hp <;> simp [hp]
  · obtain ⟨hp, rfl⟩ := tick_response h hnew
    have hcs : s.ctl.cs = .high := by rw [hs.cs_eq]; simp [hp]
    exact ⟨hcs, hcs⟩
  · refine ⟨?_, (step_cs_high (.inl hrest.1) hrest.2 h).2⟩
    rcases step_cases h with ⟨op, q, _, -, -, hrun⟩ | ⟨_, hp, -⟩ | ⟨hp, -, rfl⟩ | ⟨hp, -, -⟩
    · exact exec_hostOp_returns (s := popRequest s) hL (.inl hends) hrun
    · simp [hrest.1] at hp
    · exact hp
    · exact absurd hrest.1 hp

end Sys2Proof.Machine
end

section
/-! PROOFS. What an operation that has returned did: its failures (R231), its transactions and delays (R115, R212), its
status reads (R174, R179) and what `OK` says of the device (R175). -/

namespace Sys2Proof.Machine

/-! ### Failed exchanges (R231) -/

theorem pollVerdict_ne_busFault {cfg : Cfg} {sr : Byte} {k : Nat} : pollVerdict cfg sr k ≠ some .busFault := by
  unfold pollVerdict
  cases isBusy cfg sr with
  | false => simp
  | true => cases cfg.pollMax <;> simp

/-- The events since `s` hold no failure, but where the operation ended with `BusFault`. -/
structure FaultExact (s x : State) : Prop where
  traced : s.trace <+: x.trace
  going : x.ctl.phase ≠ .done → FailureFree (newEvents s x)
  ended : x.ctl.phase = .done → (x.ctl.result = .busFault ↔ ¬ FailureFree (newEvents s x))

theorem FaultExact.accept (op : HostOp) (q : Operands) (s : State) : FaultExact s (acceptRequest op q s) where
  traced := by simp
  going _ := by simp [newEvents]
  ended hd := by
    have hfree : FailureFree (newEvents s (acceptRequest op q s)) := by simp [newEvents]
    rcases acceptRequest_successor op q s with h | h
    · simp [hd] at h
    · rcases validate_cases s.cfg op q.addr (latchedLen op q) with hv | hv | hv <;> simp [h, hv, hfree]

/-- An event of a delay changes nothing. -/
theorem FaultExact.delay {s x y : State} {k : DelayKind} (h : FaultExact s x) (hp : x.ctl.phase ≠ .done)
    (htr : y.trace = x.trace ++ [.delay k]) (hp' : y.ctl.phase ≠ .done) : FaultExact s y where
  traced := h.traced.trans ⟨_, htr.symm⟩
  going _ := by simp [newEvents_of_trace_eq h.traced htr, h.going hp]
  ended hd := absurd hd hp'

theorem FaultExact.transact {c : WireCmd} {s x y : State} (h : FaultExact s x) (hp : x.ctl.phase = .xbegin)
    (hrun : transact c x = .next y) : FaultExact s y := by
  obtain ⟨hpre, -, hfree⟩ := transact_newEvents h.traced hrun
  have hx := h.going (by simp [hp])
  refine ⟨hpre, fun hd => hfree.2 ⟨hx, ?_⟩, fun hd => ?_⟩
  · rcases transact_successor hrun with h' | h' | h' | h' | h'
    · exact absurd h'.2.1 hd
    all_goals exact h'.1
  · rcases transact_successor hrun with h' | h' | h' | h' | ⟨hok, -, -, -, hv⟩
    · simp [hfree, h']
    · simp [hd] at h'
    · simp [hfree, h', hx]
    · simp [hd] at h'
    · split at hv
      next r hr =>
        have hne : r ≠ .busFault := fun h => pollVerdict_ne_busFault (h ▸ hr)
        simp [hfree, hok, hx, hv.2, hne]
      next => simp [hd] at hv

/-- Settles O50: a transaction ends in `DONE` with `BusFault` exactly if an exchange of it failed. -/
theorem busFaultExactlyAfterAFailedExchange : Obligations.BusFaultExactlyAfterAFailedExchange := by
  intro s t op q _ h hidle
  obtain ⟨x, hx, ⟨hd, rfl⟩ | ⟨hp, -, rfl⟩⟩ := exec_hostOp_stages (P := FaultExact s) h (.accept op q s)
    (fun _ _ hx hp hxy => hx.transact hp hxy)
    (fun x hx hp => hx.delay (by simp [hp]) (settleDelay_trace x) (by simp))
    (fun x hx hp => hx.delay (by simp [hp]) (pollDelay_trace x) (by simp))
  · have hnew : newEvents s (respond x) = newEvents s x ++ [_] := newEvents_of_trace_eq hx.traced (respond_trace x)
    rw [respond_result, hx.ended hd, hnew]
    simp [FailureFree]
  · simp [hp] at hidle

/-! ### Outlines -/

/-- These events do not end with a `CS_LOW`, whose exchange would be still to come. -/
def Closed (events : List Event) : Prop := events.getLast? ≠ some .csLow

theorem Closed.tail {e : Event} {rest : List Event} (h : Closed (e :: rest)) : Closed rest := by
  cases rest with
  | nil => simp [Closed]
  | cons _ _ => simpa [Closed] using h

theorem outline_append {a b : List Event} (h : Closed a) :
    outline (a ++ b) = outline a ++ outline b := by
  induction a using outline.induct with
  | case1 => rfl
  | case2 tx rx rest ih | case3 tx rest ih =>
    have ih := ih h.tail
    simp only [List.cons_append, outline] at ih ⊢
    rw [ih]
  | case4 k rest ih =>
    simp only [List.cons_append, outline, ih h.tail]
  | case5 e rest hx hfail hdelay ih =>
    rw [List.cons_append, outline, outline, ih h.tail]
    · exact hx
    · exact hfail
    · exact hdelay
    · rintro tx rx rest' rfl hrest
      cases rest with
      | nil => simp [Closed] at h
      | cons _ _ => exact hx tx rx _ rfl (by rw [(List.cons.inj hrest).1])
    · rintro tx rest' rfl hrest
      cases rest with
      | nil => simp [Closed] at h
      | cons _ _ => exact hfail tx _ rfl (by rw [(List.cons.inj hrest).1])
    · exact hdelay

/-- An entry of an outline that is a poll delay. -/
def isPollDelay : Byte ⊕ DelayKind → Bool
  | .inr .poll => true
  | .inr .settle | .inl _ => false

/-- The outline keeps every delay. -/
theorem pollDelays_eq_countP (events : List Event) : pollDelays events = (outline events).countP isPollDelay := by
  unfold pollDelays
  induction events using outline.induct with
  | case1 => rfl
  | case2 tx rx rest ih | case3 tx rest ih => simpa [outline, isPollDelay] using ih
  | case4 k rest ih => cases k <;> simp [outline, ih, isPollDelay, List.countP_cons]
  | case5 e rest hx hfail hdelay ih =>
    rw [outline, ← ih, List.count_cons_of_ne (hdelay _)]
    exacts [hx, hfail, hdelay]

theorem countP_pollOutline (n : Nat) : (pollOutline n).countP isPollDelay = n - 1 := by
  induction n using pollOutline.induct with
  | case1 | case2 => rfl
  | case3 n ih => simp [pollOutline, isPollDelay, ih, List.countP_cons]

/-- One more status read of a poll, after the delay. -/
theorem pollOutline_succ {n : Nat} (h : n ≠ 0) :
    pollOutline (n + 1) = pollOutline n ++ [.inr .poll, .inl 0x05#8] := by
  induction n using pollOutline.induct with
  | case1 => exact absurd rfl h
  | case2 => rfl
  | case3 n ih => exact congrArg (fun l => .inl 0x05#8 :: .inr .poll :: l) (ih (by omega))

/-- The outline of a transaction is the byte it opens with. -/
theorem outline_transaction {e : Event} {tx : Byte} {rest : List Event} (he : e.sends tx) (hrest : ∀ x ∈ rest, x.Inner) :
    outline (.csLow :: e :: rest) = [.inl tx] ∧ Closed (.csLow :: e :: rest) := by
  have hinner : outline rest = [] := by
    induction rest with
    | nil => rfl
    | cons x rest ih =>
      obtain ⟨hx, hrest⟩ := List.forall_mem_cons.1 hrest
      rw [outline, ih hrest]
      exacts [fun _ _ _ h => (hx.1 h).elim, fun _ _ h => (hx.1 h).elim, hx.2]
  constructor
  · rcases he with rfl | ⟨rx, rfl⟩ <;> simp [outline, hinner]
  · intro hlast
    rw [List.getLast?_cons_cons] at hlast
    rcases List.mem_cons.1 (List.mem_of_getLast? hlast) with rfl | hmem
    · rcases he with h | ⟨_, h⟩ <;> cases h
    · exact (hrest _ hmem).1 rfl

theorem Closed.append {a b : List Event} (ha : Closed a) (hb : Closed b) : Closed (a ++ b) := by
  unfold Closed at *
  rw [List.getLast?_append]
  cases h : b.getLast? <;> simp_all

/-- What a transaction adds to the events, in outline. -/
theorem transact_outline {c : WireCmd} {s t : State} (h : transact c s = .next t) :
    ∃ events, t.trace = s.trace ++ events ∧ outline events = [.inl c.op.opcode] ∧ Closed events := by
  obtain ⟨e, rest, htr, he, hrest⟩ := transact_opening h
  exact ⟨_, htr, outline_transaction he hrest⟩

/-- The same, of the events since `s`. -/
theorem transact_outline_since {c : WireCmd} {s x y : State} (hpre : s.trace <+: x.trace)
    (hclosed : Closed (newEvents s x)) (h : transact c x = .next y) :
    s.trace <+: y.trace ∧ Closed (newEvents s y) ∧
      outline (newEvents s y) = outline (newEvents s x) ++ [.inl c.op.opcode] := by
  obtain ⟨events, htr, hout, hev⟩ := transact_outline h
  rw [newEvents_of_trace_eq hpre htr, outline_append hclosed, hout]
  exact ⟨hpre.trans ⟨_, htr.symm⟩, hclosed.append hev, rfl⟩

/-- A delay, in the outline of the events since `s`. -/
theorem delay_outline_since {k : DelayKind} {s x y : State} (hpre : s.trace <+: x.trace)
    (hclosed : Closed (newEvents s x)) (htr : y.trace = x.trace ++ [.delay k]) :
    s.trace <+: y.trace ∧ Closed (newEvents s y) ∧
      outline (newEvents s y) = outline (newEvents s x) ++ [.inr k] := by
  rw [newEvents_of_trace_eq hpre htr, outline_append hclosed]
  exact ⟨hpre.trans ⟨_, htr.symm⟩, hclosed.append (by simp [Closed]), rfl⟩

/-- The response leaves no mark in an outline. -/
theorem outline_respond {s x : State} (hpre : s.trace <+: x.trace) (hclosed : Closed (newEvents s x)) :
    outline (newEvents s (respond x)) = outline (newEvents s x) := by
  rw [newEvents_of_trace_eq hpre (respond_trace x), outline_append hclosed]
  simp [outline]

/-- Acceptance leaves no mark in an outline. -/
theorem acceptRequest_outline (op : HostOp) (q : Operands) (s : State) :
    s.trace <+: (acceptRequest op q s).trace ∧ Closed (newEvents s (acceptRequest op q s)) ∧
      outline (newEvents s (acceptRequest op q s)) = [] := by
  simp [newEvents, Closed, outline]

/-! ### The poll loop -/

theorem pollVerdict_eq_ok {cfg : Cfg} {sr : Byte} {k : Nat} :
    pollVerdict cfg sr k = some .ok ↔ isBusy cfg sr = false := by
  unfold pollVerdict
  cases isBusy cfg sr with
  | false => simp
  | true => cases cfg.pollMax <;> simp

/-- The outline of `n` status reads, each with a delay after it. -/
def delayedReads (n : Nat) : List (Byte ⊕ DelayKind) := if n = 0 then [] else pollOutline n ++ [.inr .poll]

theorem delayedReads_read (n : Nat) : delayedReads n ++ [.inl 0x05#8] = pollOutline (n + 1) := by
  unfold delayedReads
  split
  next h => rw [h]; rfl
  next h => simp [pollOutline_succ h]

/-- How far a poll loop that was entered in `v` has come in `x`. -/
structure PollProgress (v x : State) : Prop where
  cfg_eq : x.cfg = v.cfg
  traced : v.trace <+: x.trace
  closed : Closed (newEvents v x)
  within : ∀ n, v.cfg.pollMax = some n → x.ctl.polls ≤ n
  going : x.ctl.phase ≠ .done → ∀ n, v.cfg.pollMax = some n → x.ctl.polls < n
  due : x.ctl.phase = .xbegin → outline (newEvents v x) = delayedReads x.ctl.polls
  read : x.ctl.phase = .pollwait ∨ x.ctl.phase = .done ∧ x.ctl.result ≠ .busFault →
    x.ctl.polls ≠ 0 ∧ outline (newEvents v x) = pollOutline x.ctl.polls
  ok : x.ctl.phase = .done → x.ctl.result = .ok → isBusy v.cfg x.ctl.sr = false ∧ x.dev.busy = false

theorem PollProgress.enter {v : State} (hL : v.cfg.Legal) (hp : v.ctl.phase = .xbegin) (hpolls : v.ctl.polls = 0) :
    PollProgress v v where
  cfg_eq := rfl
  traced := List.prefix_rfl
  closed := by simp [newEvents, Closed]
  within n _ := by omega
  going _ n hn := hpolls ▸ pollMax_pos_of_legal hL hn
  due _ := by simp [newEvents, outline, hpolls, delayedReads]
  read h := by simp [hp] at h
  ok hd := by simp [hp] at hd

/-- One status read of the loop. -/
theorem PollProgress.transact {v x y : State} (hL : v.cfg.Legal) (h : PollProgress v x) (hp : x.ctl.phase = .xbegin)
    (hst : x.ctl.stage = .poll) (hrun : transact (wireCmd .rdsr 0#32) x = .next y) : PollProgress v y := by
  obtain ⟨hpre, hclosed, hout⟩ := transact_outline_since h.traced h.closed hrun
  have hcfg : y.cfg = v.cfg := (transact_frame hrun).1.trans h.cfg_eq
  have hlt := h.going (by simp [hp])
  rw [h.due hp] at hout
  have hsucc := transact_successor hrun
  simp only [hst, reduceCtorEq, false_and, and_false, false_or, true_and] at hsucc
  rcases hsucc with ⟨-, hd, hr, -, hpolls⟩ | ⟨hx, -, hpolls, hv⟩
  · exact ⟨hcfg, hpre, hclosed, fun n hn => hpolls ▸ (hlt n hn).le, fun hne => absurd hd hne, by simp [hd],
      by simp [hd, hr], by simp [hr]⟩
  · have hreads : outline (newEvents v y) = pollOutline y.ctl.polls := by
      rw [hout, hpolls]
      exact delayedReads_read _
    have hle : ∀ n, v.cfg.pollMax = some n → y.ctl.polls ≤ n := fun n hn => by rw [hpolls]; exact hlt n hn
    rw [h.cfg_eq] at hv
    split at hv
    next r hverdict =>
      obtain ⟨hd, rfl⟩ := hv
      refine ⟨hcfg, hpre, hclosed, hle, fun hne => absurd hd hne, by simp [hd], fun _ => ⟨by omega, hreads⟩,
        fun _ hr => ?_⟩
      rw [hr, pollVerdict_eq_ok] at hverdict
      obtain ⟨d, -, hdy, hsr, -⟩ := transact_status_ok hst hrun hx
      refine ⟨hverdict, hdy.idle_right ?_⟩
      rwa [hsr, isBusy_statusByte (busyMask_of_legal hL)] at hverdict
    next hverdict =>
      refine ⟨hcfg, hpre, hclosed, hle, fun _ n hn => ?_, by simp [hv.1], fun _ => ⟨by omega, hreads⟩, by simp [hv.1]⟩
      rw [hpolls]
      exact lt_of_pollVerdict_eq_none hverdict hn

theorem PollProgress.delay {v x : State} (h : PollProgress v x) (hp : x.ctl.phase = .pollwait) :
    PollProgress v (pollDelay x) := by
  obtain ⟨hpre, hclosed, hout⟩ := delay_outline_since h.traced h.closed (pollDelay_trace x)
  obtain ⟨hne, hread⟩ := h.read (.inl hp)
  refine ⟨h.cfg_eq, hpre, hclosed, h.within, fun _ => h.going (by simp [hp]), fun _ => ?_, by simp, by simp⟩
  rw [hout, hread, delayedReads, if_neg (by simpa using hne), pollDelay_polls]

/-- How far a whole poll loop comes. -/
theorem pollLoop_progress {n : Nat} {v x : State} (hL : v.cfg.Legal) (hp : v.ctl.phase = .xbegin)
    (hst : v.ctl.stage = .poll) (hpolls : v.ctl.polls = 0) (h : pollLoop n v = .next x) : PollProgress v x :=
  (pollLoop_induct (P := PollProgress v) (fun _ _ hx hp hst hxy => hx.transact hL hp hst hxy)
    (fun _ hx hp _ => hx.delay hp) (.enter hL hp hpolls) hp hst h).1

/-! ### Whole operations -/

/-- A request that fails validation does not end with `OK` or `FlashTimeout`. -/
theorem invalid_result {op : HostOp} {q : Operands} {s : State} (hv : validate s.cfg op q.addr (latchedLen op q) ≠ .ok) :
    ¬ ((respond (acceptRequest op q s)).ctl.result = .ok ∨
      (respond (acceptRequest op q s)).ctl.result = .flashTimeout) := by
  rw [respond_result, (acceptRequest_invalid hv).2]
  exact fun h => h.elim hv (validate_ne_flashTimeout _ _ _ _)

/-- A write-class operation that has returned with `OK` or `FlashTimeout` made its gate, its command and its poll. -/
theorem exec_writing_polled {op : HostOp} {q : Operands} {s t : State} (hL : s.cfg.Legal) (hop : writeClass op = true)
    (h : exec (op.instr q) s = .next t) (hidle : t.ctl.phase = .idle)
    (hr : t.ctl.result = .ok ∨ t.ctl.result = .flashTimeout) :
    ∃ v x, s.trace <+: v.trace ∧ Closed (newEvents s v) ∧
      outline (newEvents s v) = [.inl 0x06#8, .inr .settle, .inl (commandOf op).opcode] ∧ v.cfg = s.cfg ∧
      PollProgress v x ∧ x.ctl.phase = .done ∧ x.ctl.result ≠ .busFault ∧ t = respond x := by
  rw [exec_hostOp, if_pos hop] at h
  obtain ⟨-, ⟨hv, rfl⟩ | ⟨u, -, hgate, h⟩⟩ := writingOperation_cases hop h
  · exact absurd hr (invalid_result hv)
  rcases h with ⟨hx, -, rfl⟩ | ⟨v, -, -, hcmd, ⟨hx, -, rfl⟩ | ⟨x, -, hp, hst, hpolls, hloop, ⟨hd, rfl⟩ | ⟨hp', -, rfl⟩⟩⟩
  · simp [transact_failed hgate hx] at hr
  · simp [transact_failed hcmd hx] at hr
  · obtain ⟨hpre, hclosed, hout⟩ := acceptRequest_outline op q s
    obtain ⟨hpre, hclosed, hgated⟩ := transact_outline_since hpre hclosed hgate
    obtain ⟨hpre, hclosed, hsettled⟩ := delay_outline_since hpre hclosed (settleDelay_trace u)
    obtain ⟨hpre, hclosed, hsent⟩ := transact_outline_since hpre hclosed hcmd
    rw [hsettled, hgated, hout] at hsent
    have hcfg : v.cfg = s.cfg := by
      rw [(transact_frame hcmd).1, settleDelay_cfg, (transact_frame hgate).1, acceptRequest_cfg]
    refine ⟨v, x, hpre, hclosed, hsent, hcfg, pollLoop_progress (hcfg ▸ hL) hp hst hpolls hloop, hd, ?_, rfl⟩
    intro hbf
    simp [hbf] at hr
  · simp [hp'] at hidle

/-- Events since `s` are those up to `v` and those since. -/
theorem newEvents_split {s v x : State} (hv : s.trace <+: v.trace) (hx : v.trace <+: x.trace) :
    newEvents s x = newEvents s v ++ newEvents v x := by
  obtain ⟨events, hev⟩ := hx
  rw [newEvents_of_trace_eq hv hev.symm, newEvents, newEvents, ← hev, List.drop_left]

/-- Its outline: gate, settle delay, command, poll (R202, R203). -/
theorem exec_writing_outline {op : HostOp} {q : Operands} {s t : State} (hL : s.cfg.Legal)
    (hop : writeClass op = true) (h : exec (op.instr q) s = .next t) (hidle : t.ctl.phase = .idle)
    (hr : t.ctl.result = .ok ∨ t.ctl.result = .flashTimeout) :
    t.ctl.polls ≠ 0 ∧ outline (newEvents s t) =
      .inl 0x06#8 :: .inr .settle :: .inl (commandOf op).opcode :: pollOutline t.ctl.polls := by
  obtain ⟨v, x, hpre, hclosed, hout, -, hx, hd, hne, rfl⟩ := exec_writing_polled hL hop h hidle hr
  obtain ⟨hpolls, hread⟩ := hx.read (.inr ⟨hd, hne⟩)
  have hnew := newEvents_split hpre hx.traced
  refine ⟨hpolls, ?_⟩
  rw [outline_respond (hpre.trans hx.traced) (hnew ▸ hclosed.append hx.closed), hnew, outline_append hclosed, hout, hread]
  rfl

/-- The outline of a reading operation that has returned with `OK`: its own command (R196 to R201). -/
theorem exec_reading_outline {op : HostOp} {q : Operands} {s t : State} (hop : writeClass op = false)
    (h : exec (op.instr q) s = .next t) (hr : t.ctl.result = .ok ∨ t.ctl.result = .flashTimeout) :
    outline (newEvents s t) = [.inl (commandOf op).opcode] := by
  rw [exec_hostOp, if_neg (by simp [hop])] at h
  obtain ⟨-, ⟨hv, rfl⟩ | ⟨u, -, hread, -, rfl⟩⟩ := readingOperation_cases hop h
  · exact absurd hr (invalid_result hv)
  · obtain ⟨hpre, hclosed, hout⟩ := acceptRequest_outline op q s
    obtain ⟨hpre, hclosed, hsent⟩ := transact_outline_since hpre hclosed hread
    rw [outline_respond hpre hclosed, hsent, hout]
    rfl

/-- Settles O54: a reading operation is its command, a write-class one gate, settle delay, command and poll. -/
theorem operationsExpandAsTheTable : Obligations.OperationsExpandAsTheTable := by
  intro s t op q _ hL h hidle hr
  cases op with
  | readIdJedec | readIdLegacy | readStatus | readStatus3 | readLock | read => exact exec_reading_outline rfl h hr
  | program | eraseSector => exact (exec_writing_outline hL rfl h hidle hr).2

/-- The poll delays of a write-class operation are one fewer than its status reads. -/
theorem exec_writing_pollDelays {op : HostOp} {q : Operands} {s t : State} (hL : s.cfg.Legal)
    (hop : writeClass op = true) (h : exec (op.instr q) s = .next t) (hidle : t.ctl.phase = .idle)
    (hr : t.ctl.result = .ok ∨ t.ctl.result = .flashTimeout) : pollDelays (newEvents s t) = t.ctl.polls - 1 := by
  rw [pollDelays_eq_countP, (exec_writing_outline hL hop h hidle hr).2]
  simp [isPollDelay, countP_pollOutline]

/-- Settles O52: the outline counts reads and delays, the loop keeps within its budget, and R232 says when it is used
up. -/
theorem pollCounts : Obligations.PollCounts := by
  intro s t op q hp hL hop h hidle
  refine ⟨fun hr => ⟨?_, fun n hn => ?_, exec_writing_pollDelays hL hop h hidle (.inl hr)⟩,
    fun hr => ⟨?_, exec_writing_pollDelays hL hop h hidle (.inr hr)⟩⟩
  · exact Nat.one_le_iff_ne_zero.2 (exec_writing_outline hL hop h hidle (.inl hr)).1
  · obtain ⟨v, x, -, -, -, hcfg, hx, -, -, rfl⟩ := exec_writing_polled hL hop h hidle (.inl hr)
    exact hx.within n (hcfg ▸ hn)
  · obtain ⟨-, -, -, hbudget, -⟩ := (flashTimeoutExactlyAtTheEndOfTheBudget s t op q hp hL h hidle).1.1 hr
    exact hbudget

/-- Settles O51: the last status read shows the device not busy, and a device that is not busy stays so. -/
theorem okMeansTheDeviceIsNotBusy : Obligations.OkMeansTheDeviceIsNotBusy := by
  intro s t op q _ hL hop h hidle hr
  obtain ⟨v, x, -, -, -, hcfg, hx, hd, -, rfl⟩ := exec_writing_polled hL hop h hidle (.inl hr)
  obtain ⟨hsr, hb⟩ := hx.ok hd hr
  exact ⟨hcfg ▸ hsr, by rw [respond_dev, deviceTurn_of_idle hb, hb]⟩

end Sys2Proof.Machine
end

section
/-! PROOFS. The host operations that write (R202, R203), for a device that completes at once, at any time or never. -/

namespace Sys2Proof.Machine

/-! ### Requests that pass validation -/

theorem deviceSize_le_of_legal {cfg : Cfg} (h : cfg.Legal) : cfg.deviceSize ≤ 2 ^ 24 := by
  obtain ⟨-, -, -, -, -, -, -, -, -, -, hsize, -⟩ := h
  exact hsize

/-- A target inside the device has an address of 24 bits (R6, R27). -/
theorem addressFits_of_target {cfg : Cfg} {a : Word} {n : Nat} (hL : cfg.Legal) (hn : 0 < n)
    (h : a.toNat + n ≤ cfg.deviceSize) : addressFits a = true :=
  (addressFits_iff a).2 (by have := deviceSize_le_of_legal hL; omega)

theorem pageSize_pos {cfg : Cfg} (h : cfg.Legal) : 0 < cfg.pageSize := by rw [h.1]; omega

theorem sectorSize_pos {cfg : Cfg} (h : cfg.Legal) : 0 < cfg.sectorSize := by rw [h.2.1]; omega

theorem valid_program {cfg : Cfg} {q : Operands} (hL : cfg.Legal) (hlen : q.wbuf.length = cfg.pageSize)
    (hrange : q.addr.toNat + cfg.pageSize ≤ cfg.deviceSize) :
    validate cfg .program q.addr (latchedLen .program q) = .ok := by
  have hfit := addressFits_of_target hL (pageSize_pos hL) hrange
  simp [validate, addressInvalid, lengthInvalid, latchedLen, hfit, hlen, hrange]

theorem valid_eraseSector {cfg : Cfg} {q : Operands} (hL : cfg.Legal) (halign : q.addr.toNat % cfg.sectorSize = 0)
    (hrange : q.addr.toNat + cfg.sectorSize ≤ cfg.deviceSize) :
    validate cfg .eraseSector q.addr (latchedLen .eraseSector q) = .ok := by
  have hfit := addressFits_of_target hL (sectorSize_pos hL) hrange
  simp [validate, addressInvalid, lengthInvalid, hfit, halign, hrange]

/-! ### An operation whose command has been sent -/

/-- The poll of a write-class operation is due in `v`: the events so far, and the device as the command left it. -/
structure PollDue (op : HostOp) (q : Operands) (s v : State) : Prop where
  run : exec (op.instr q) s = andThen (pollLoop (pollReads v) v) response
  sent : ∃ rx body, Exchanged (sentOf s.cfg (wireCmd (commandOf op) q.addr) (latchedLen op q) q.wbuf) body ∧
    v.trace = s.trace ++ .req op q.addr q.len q.wbuf :: (GateEvents rx ++ body)
  dev : ∃ n, v.dev = Device.released s.cfg n true { s.dev with
    wel := true, stream := sentOf s.cfg (wireCmd (commandOf op) q.addr) (latchedLen op q) q.wbuf }
  cfg_eq : v.cfg = s.cfg
  phase : v.ctl.phase = .xbegin
  stage : v.ctl.stage = .poll
  polls : v.ctl.polls = 0
  rbuf : v.ctl.rbuf = []
  requests : v.env.requests = s.env.requests
  transport : TransportOk v
  inputs : InputsLeft s v

/-- Every valid write-class operation comes to its poll, when no exchange fails (R187, R202, R203). -/
theorem exec_pollDue {op : HostOp} {q : Operands} {s : State} (h : HostReady s) (hop : writeClass op = true)
    (hv : validate s.cfg op q.addr (latchedLen op q) = .ok) : ∃ v, PollDue op q s v := by
  obtain ⟨v, rx, body, n, hrun, htr, hex, hdev, hcfg, hp, hst, hpolls, hrbuf, hreq, ht, hin⟩ := exec_writing h hop hv
  exact ⟨v, hrun, ⟨rx, body, hex, htr⟩, ⟨n, hdev⟩, hcfg, hp, hst, hpolls, hrbuf, hreq, ht, hin⟩

section Due
variable {op : HostOp} {q : Operands} {s v x : State}

/-- The registers of the device that no command touches. -/
theorem PollDue.sameRest (h : PollDue op q s v) : SameRest s.dev v.dev := by
  obtain ⟨n, hdev⟩ := h.dev
  rw [hdev]
  exact released_rest _ _ _ _

/-- What the whole operation leaves alone, wherever the device has got to. -/
theorem PollDue.writingFrame (h : PollDue op q s v) (hcfg : x.cfg = v.cfg) (hreq : x.env.requests = v.env.requests)
    (hev : Evolved s.cfg v.dev x.dev) : WritingFrame s x := by
  obtain ⟨h1, h2, h3, h4, h5, h6⟩ := h.sameRest
  obtain ⟨e1, e2, e3, e4, e5, e6⟩ := hev.rest
  exact ⟨hcfg.trans h.cfg_eq, hreq.trans h.requests, e1.trans h1, e2.trans h2, e3.trans h3, e4.trans h4, e5.trans h5,
    e6.trans h6⟩

/-- The poll ends (R172), and the response follows. -/
theorem PollDue.ends (h : PollDue op q s v) (hL : s.cfg.Legal) (hends : PollEnds s) :
    ∃ x, pollLoop (pollReads v) v = .next x ∧ exec (op.instr q) s = .next (respond x) ∧ Polled v x ∧
      PollProgress v x := by
  have hLv : v.cfg.Legal := h.cfg_eq ▸ hL
  obtain ⟨x, hloop, hpolled⟩ := pollLoop_ends (n := pollReads v) h.transport h.stage h.phase (busyMask_of_legal hLv) (by
    unfold pollReads
    rw [h.polls]
    cases hm : v.cfg.pollMax with
    | some m => exact .inl ⟨m, rfl, pollMax_pos_of_legal hLv hm, by simp only; omega⟩
    | none =>
      have hf := hends.resolve_left (fun hne => hne (h.cfg_eq ▸ hm))
      exact .inr ⟨rfl, h.inputs.2.2.trans hf, by simp only; omega⟩)
  have hprogress := pollLoop_progress hLv h.phase h.stage h.polls hloop
  obtain ⟨-, -, hd, -⟩ := id hpolled
  exact ⟨x, hloop, by rw [h.run, hloop, andThen_next, response_of_done hd], hpolled, hprogress⟩

/-- What the device has become by the response. -/
theorem PollDue.evolved (h : PollDue op q s v) (hx : Polled v x) : Evolved s.cfg v.dev (respond x).dev := by
  obtain ⟨hcfg, -, -, -, -, -, hev, -⟩ := hx
  rw [← h.cfg_eq]
  exact hev.trans (hcfg ▸ deviceTurn_evolved x)

theorem PollDue.respond_frame (h : PollDue op q s v) (hx : Polled v x) :
    AtRest (respond x) ∧ WritingFrame s (respond x) := by
  obtain ⟨hcfg, hcs, -, hreq, -⟩ := id hx
  exact ⟨⟨rfl, hcs⟩, h.writingFrame hcfg hreq (h.evolved hx)⟩

/-- After the command only status reads follow, with a delay between every two. -/
theorem PollDue.writeCommandSent (h : PollDue op q s v) (hx : Polled v x) (hprogress : PollProgress v x) :
    WriteCommandSent s (respond x) op q
      (sentOf s.cfg (wireCmd (commandOf op) q.addr) (latchedLen op q) q.wbuf) := by
  obtain ⟨rx, body, hex, htr⟩ := h.sent
  obtain ⟨-, -, hd, -, -, -, -, -, -, hresult⟩ := id hx
  have hne : x.ctl.result ≠ .busFault := by rcases hresult with ⟨hr, -⟩ | ⟨hr, -⟩ <;> simp [hr]
  obtain ⟨-, hread⟩ := hprogress.read (.inr ⟨hd, hne⟩)
  refine ⟨rx, body, newEvents v (respond x), hex, ?_, ?_⟩
  · rw [newEvents_split (v := v) (by simp [htr]) (hprogress.traced.trans ⟨_, rfl⟩)]
    simp [newEvents, htr]
  · rw [outline_respond hprogress.traced hprogress.closed, hread, respond_polls]

end Due

/-- Settles O45: a valid operation comes to its poll whatever its target, and the poll ends. -/
theorem acceptedWritesAreSentAsGiven : Obligations.AcceptedWritesAreSentAsGiven := by
  intro s q h hends
  obtain ⟨-, hL, -⟩ := id h
  constructor
  · intro hv
    obtain ⟨v, hdue⟩ := exec_pollDue (op := .program) h rfl hv
    obtain ⟨x, -, hrun, hx, hprogress⟩ := hdue.ends hL hends
    have hsent := hdue.writeCommandSent hx hprogress
    simp only [commandOf, sentOf_pp] at hsent
    obtain ⟨hrest, hframe⟩ := hdue.respond_frame hx
    exact ⟨respond x, hrun, hrest, hframe, hsent⟩
  · intro hv
    obtain ⟨v, hdue⟩ := exec_pollDue (op := .eraseSector) h rfl hv
    obtain ⟨x, -, hrun, hx, hprogress⟩ := hdue.ends hL hends
    have hsent := hdue.writeCommandSent hx hprogress
    simp only [commandOf, sentOf_se] at hsent
    obtain ⟨hrest, hframe⟩ := hdue.respond_frame hx
    exact ⟨respond x, hrun, hrest, hframe, hsent⟩

/-! ### An operation that the device has taken up -/

/-- The device has taken up `p`: it is busy with it and otherwise as before (R73, R74). -/
def Taken (s v : State) (p : Pending) : Prop :=
  v.dev = { s.dev with busy := true, wel := true, pending := some p, stream := [] }

/-- What completion of `p` makes of the array. -/
def arrayAfter (s : State) (p : Pending) : Memory := Device.applyPending s.cfg { s.dev with pending := some p }

/-- A device that has taken up an operation is at it, or has finished it. -/
theorem Taken.outcome {s v t : State} {p : Pending} (h : Taken s v p) (hev : Evolved s.cfg v.dev t.dev) :
    StillRunning s t p ∨ Finished t ∧ t.dev.mem = arrayAfter s p := by
  rcases hev with hsame | ⟨-, hdone⟩
  · obtain ⟨hmem, hbusy, hwel, hpend, -⟩ := sameBut_stream hsame
    rw [h] at hmem hbusy hwel hpend
    exact .inl ⟨hbusy, hwel, hpend, hmem⟩
  · obtain ⟨hmem, hbusy, hwel, hpend, -⟩ := sameBut_stream hdone
    rw [h] at hmem
    exact .inr ⟨⟨hbusy, hwel, hpend⟩, hmem⟩

/-- A PROGRAM within the contract is taken up (R73, R202). -/
theorem taken_program {q : Operands} {s : State} (h : HostReady s) (hlen : q.wbuf.length = s.cfg.pageSize)
    (halign : q.addr.toNat % s.cfg.pageSize = 0) (hrange : q.addr.toNat + s.cfg.pageSize ≤ s.cfg.deviceSize)
    (hunlocked : Unlocked s q.addr.toNat s.cfg.pageSize) :
    ∃ v, PollDue .program q s v ∧ Taken s v (.prog q.addr.toNat q.wbuf) := by
  obtain ⟨-, hL, -, hb, -⟩ := id h
  obtain ⟨v, hdue⟩ := exec_pollDue h rfl (valid_program hL hlen hrange)
  obtain ⟨n, hdev⟩ := hdue.dev
  have hfit := addressFits_of_target hL (pageSize_pos hL) hrange
  have hlegal : Pending.legal s.cfg (.prog q.addr.toNat q.wbuf) = true := by simp [Pending.legal, halign, hrange, hlen]
  refine ⟨v, hdue, ?_⟩
  simp only [commandOf, sentOf_pp] at hdev
  rw [Taken, hdev]
  exact released_pp (d := { s.dev with wel := true }) hfit rfl hb hlegal hunlocked

/-- An ERASE_SECTOR within the contract is taken up (R74, R203). -/
theorem taken_eraseSector {q : Operands} {s : State} (h : HostReady s) (halign : q.addr.toNat % s.cfg.sectorSize = 0)
    (hrange : q.addr.toNat + s.cfg.sectorSize ≤ s.cfg.deviceSize)
    (hunlocked : Unlocked s q.addr.toNat s.cfg.sectorSize) :
    ∃ v, PollDue .eraseSector q s v ∧ Taken s v (.erase q.addr.toNat) := by
  obtain ⟨-, hL, -, hb, -⟩ := id h
  obtain ⟨v, hdue⟩ := exec_pollDue h rfl (valid_eraseSector hL halign hrange)
  obtain ⟨n, hdev⟩ := hdue.dev
  have hfit := addressFits_of_target hL (sectorSize_pos hL) hrange
  have hlegal : Pending.legal s.cfg (.erase q.addr.toNat) = true := by simp [Pending.legal, halign, hrange]
  refine ⟨v, hdue, ?_⟩
  simp only [commandOf, sentOf_se] at hdev
  rw [Taken, hdev]
  exact released_se (d := { s.dev with wel := true }) hfit rfl hb hlegal hunlocked

theorem programmed_of_mem {q : Operands} {s t : State} (hs : s.dev.Sound s.cfg)
    (hrange : q.addr.toNat + q.wbuf.length ≤ s.cfg.deviceSize)
    (hmem : t.dev.mem = arrayAfter s (.prog q.addr.toNat q.wbuf)) : Programmed s t q.addr.toNat q.wbuf :=
  programmed_of_complete (s := { s with dev := { s.dev with pending := some (.prog q.addr.toNat q.wbuf) } }) hs rfl
    hrange hmem

theorem erased_of_mem {q : Operands} {s t : State} (hmem : t.dev.mem = arrayAfter s (.erase q.addr.toNat)) :
    Erased s t q.addr.toNat s.cfg.sectorSize :=
  erased_of_complete (s := { s with dev := { s.dev with pending := some (.erase q.addr.toNat) } }) rfl hmem

/-! ### Whenever the device completes -/

/-- However the poll ends, the device has finished after `OK`, and is at it or has finished after `FlashTimeout`. -/
theorem Taken.result {op : HostOp} {q : Operands} {s v x : State} {p : Pending} (h : Taken s v p)
    (hdue : PollDue op q s v) (hx : Polled v x) :
    (respond x).ctl.result = .ok ∧ Finished (respond x) ∧ (respond x).dev.mem = arrayAfter s p ∨
      (respond x).ctl.result = .flashTimeout ∧ s.cfg.pollMax ≠ none ∧
        (StillRunning s (respond x) p ∨ Finished (respond x) ∧ (respond x).dev.mem = arrayAfter s p) := by
  have hout := h.outcome (hdue.evolved hx)
  obtain ⟨-, -, -, -, -, -, -, -, -, ⟨hr, hb⟩ | ⟨hr, hbudget, -⟩⟩ := hx
  · refine .inl ⟨hr, hout.resolve_left fun hstill => ?_⟩
    have hbusy := hstill.1
    rw [respond_dev, deviceTurn_of_idle hb, hb] at hbusy
    cases hbusy
  · exact .inr ⟨hr, by rw [← hdue.cfg_eq, hbudget]; simp, hout⟩

/-- Settles O44: the operation is taken up, the poll ends, and completion does what the contract says. -/
theorem writeOperationsUnderAnySchedule : Obligations.WriteOperationsUnderAnySchedule := by
  intro s q h hends
  obtain ⟨-, hL, hsound, -⟩ := id h
  constructor
  · intro hlen halign hrange hunlocked
    obtain ⟨v, hdue, htaken⟩ := taken_program h hlen halign hrange hunlocked
    obtain ⟨x, -, hrun, hx, -⟩ := hdue.ends hL hends
    obtain ⟨hrest, hframe⟩ := hdue.respond_frame hx
    have hprog := programmed_of_mem (q := q) (t := respond x) hsound (by rw [hlen]; exact hrange)
    exact ⟨respond x, hrun, hrest, hframe, (htaken.result hdue hx).imp (fun ⟨hr, hf, hm⟩ => ⟨hr, hf, hprog hm⟩)
      fun ⟨hr, hb, ho⟩ => ⟨hr, hb, ho.imp_right fun ⟨hf, hm⟩ => ⟨hf, hprog hm⟩⟩⟩
  · intro halign hrange hunlocked
    obtain ⟨v, hdue, htaken⟩ := taken_eraseSector h halign hrange hunlocked
    obtain ⟨x, -, hrun, hx, -⟩ := hdue.ends hL hends
    obtain ⟨hrest, hframe⟩ := hdue.respond_frame hx
    exact ⟨respond x, hrun, hrest, hframe,
      (htaken.result hdue hx).imp (fun ⟨hr, hf, hm⟩ => ⟨hr, hf, erased_of_mem hm⟩)
      fun ⟨hr, hb, ho⟩ => ⟨hr, hb, ho.imp_right fun ⟨hf, hm⟩ => ⟨hf, erased_of_mem hm⟩⟩⟩

/-! ### A device that completes promptly -/

/-- Against such a device the loop is one status read (R76, R172). -/
theorem pollLoop_prompt {n : Nat} {v x : State} (hL : v.cfg.Legal) (ht : TransportOk v) (hst : v.ctl.stage = .poll)
    (hturns : v.env.turns = []) (hf : v.dev.failed = false) (h : pollLoop (n + 1) v = .next x) :
    transact (wireCmd .rdsr 0#32) v = .next x ∧ x.ctl.xok = true := by
  obtain ⟨u, hrun, -, -, -, -, -, -, -, -, -, hprompt, -⟩ := pollRead_cases ht hst (busyMask_of_legal hL)
  obtain ⟨hd, hr⟩ := hprompt hturns hf
  simp only [pollLoop, hrun, andThen_next, hd, Host.Outcome.next.injEq] at h
  subst h
  refine ⟨hrun, ?_⟩
  by_contra hx
  simp [transact_failed hrun (by simpa using hx)] at hr

/-- A write-class operation that a prompt device has taken up: `OK` after one status read (R202, R203). -/
theorem Taken.prompt {op : HostOp} {q : Operands} {s v : State} {p : Pending} (h : Taken s v p)
    (hdue : PollDue op q s v) (hL : s.cfg.Legal) (hf : s.dev.failed = false) (hturns : s.env.turns = []) :
    ∃ t rx body poll, exec (op.instr q) s = .next t ∧
      Exchanged (sentOf s.cfg (wireCmd (commandOf op) q.addr) (latchedLen op q) q.wbuf) body ∧
      Exchanged (0x05#8 :: (List.replicate s.cfg.dummyRdsr s.cfg.fill ++ [s.cfg.fill])) poll ∧
      t.trace = s.trace ++ .req op q.addr q.len q.wbuf :: (GateEvents rx ++ body ++ poll ++ [.resp .ok []]) ∧
      t.ctl.result = .ok ∧ t.ctl.rbuf = [] ∧ AtRest t ∧ t.dev.mem = arrayAfter s p ∧ Finished t ∧ WritingFrame s t := by
  obtain ⟨-, hturns', hfailed⟩ := hdue.inputs
  have hvt : v.env.turns = [] := List.suffix_nil.1 (hturns ▸ hturns')
  have hvf : v.dev.failed = false := hfailed.trans hf
  have hLv : v.cfg.Legal := hdue.cfg_eq ▸ hL
  obtain ⟨x, hloop, hrun, hx, -⟩ := hdue.ends hL (.inr hf)
  obtain ⟨k, hk⟩ : ∃ k, pollReads v = k + 1 := by
    unfold pollReads
    split
    · exact ⟨_, rfl⟩
    · exact ⟨_, rfl⟩
  obtain ⟨hread, hxok⟩ := pollLoop_prompt hLv hdue.transport hdue.stage hvt hvf (hk ▸ hloop)
  obtain ⟨poll, hpoll, htrx⟩ := transact_exchanged hread hxok
  rw [sentOf_rdsr, hdue.cfg_eq] at hpoll
  obtain ⟨rx, body, hbody, htrv⟩ := hdue.sent
  obtain ⟨hrest, hframe⟩ := hdue.respond_frame hx
  have hresult := h.result hdue hx
  obtain ⟨-, -, -, -, -, hrbuf, -, -, -, hcase⟩ := hx
  rw [hdue.rbuf] at hrbuf
  have hr : x.ctl.result = .ok := by
    rcases hcase with ⟨hr, -⟩ | ⟨-, -, hne⟩
    · exact hr
    · exact absurd hvt (hne hvf)
  obtain ⟨-, hfin, hmem⟩ := hresult.resolve_right (by simp [hr])
  exact ⟨respond x, rx, body, poll, hrun, hbody, hpoll, by simp [htrx, htrv, hr, hrbuf], hr, hrbuf, hrest, hmem, hfin,
    hframe⟩

/-- Settles O42: the program is taken up, and completes before the first status byte. -/
theorem programAndsThePage : Obligations.ProgramAndsThePage := by
  intro s q h hf hturns hlen halign hrange hunlocked
  obtain ⟨-, hL, hsound, -⟩ := id h
  obtain ⟨v, hdue, htaken⟩ := taken_program h hlen halign hrange hunlocked
  obtain ⟨t, rx, body, poll, hrun, hbody, hpoll, htr, hr, hrbuf, hrest, hmem, hfin, hframe⟩ :=
    htaken.prompt hdue hL hf hturns
  simp only [commandOf, sentOf_pp] at hbody
  exact ⟨t, rx, body, poll, hrun, hbody, hpoll, htr, hr, hrbuf, hrest,
    programmed_of_mem hsound (by rw [hlen]; exact hrange) hmem, hfin, hframe⟩

/-- Settles O43: the erase is taken up, and completes before the first status byte. -/
theorem eraseSetsTheSectorToOnes : Obligations.EraseSetsTheSectorToOnes := by
  intro s q h hf hturns halign hrange hunlocked
  obtain ⟨-, hL, -⟩ := id h
  obtain ⟨v, hdue, htaken⟩ := taken_eraseSector h halign hrange hunlocked
  obtain ⟨t, rx, body, poll, hrun, hbody, hpoll, htr, hr, hrbuf, hrest, hmem, hfin, hframe⟩ :=
    htaken.prompt hdue hL hf hturns
  simp only [commandOf, sentOf_se] at hbody
  exact ⟨t, rx, body, poll, hrun, hbody, hpoll, htr, hr, hrbuf, hrest, erased_of_mem hmem, hfin, hframe⟩

/-! ### Erase, program, read -/

/-- After a write-class operation that the device has finished the next request finds the same conditions. -/
theorem hostReady_after_writing {op : HostOp} {q : Operands} {s t : State} (h : HostReady s)
    (hrun : exec (op.instr q) s = .next t) (hrest : AtRest t) (hfin : Finished t) (hframe : WritingFrame s t) :
    HostReady t := by
  obtain ⟨-, hL, hsound, -, ht⟩ := h
  exact ⟨hrest.1, hframe.1 ▸ hL, rowsKeep_sound.exec hsound hrun, hfin.1, (exec_hostOp_inputs hrun).transportOk ht⟩

/-- A part of an unlocked target is unlocked. -/
theorem unlocked_within {s t : State} {a n b m : Nat} (h : Unlocked s a n) (hlock : t.dev.lock = s.dev.lock)
    (hlo : a ≤ b) (hhi : b + m ≤ a + n) : Unlocked t b m := by
  simp only [Unlocked, Device.locked, hlock, List.any_eq_false, Bool.and_eq_true, decide_eq_true_eq, not_and,
    and_imp] at h ⊢
  exact fun c hc hb hm => h c hc (by omega) (by omega)

/-- AND with a byte of ones is the other byte. -/
theorem programmed_over_ones (b : Byte) : 0xFF#8 &&& b = b := by
  rw [show 0xFF#8 = BitVec.allOnes 8 from rfl, BitVec.allOnes_and]

/-- Settles O46: every byte of the page is 0xFF after the erase, so the AND with the data is the data. -/
theorem eraseProgramReadReturnsTheData : Obligations.EraseProgramReadReturnsTheData := by
  intro s e p r h hf hturns halign hrange hunlocked halign' hlo hhi hlen haddr hrlen
  obtain ⟨t, _, _, _, hrun, -, -, -, hr, -, hrest, herased, hfin, hframe⟩ :=
    eraseSetsTheSectorToOnes s e h hf hturns halign hrange hunlocked
  have ht := hostReady_after_writing (op := .eraseSector) h hrun hrest hfin hframe
  obtain ⟨hcfg, -, -, -, hlock, -, -, hfailed⟩ := hframe
  have hturns' : t.env.turns = [] :=
    List.suffix_nil.1 (hturns ▸ (exec_hostOp_inputs (op := .eraseSector) hrun).2.1)
  obtain ⟨u, _, _, _, hrun', -, -, -, hr', -, hrest', hprog, hfin', hframe'⟩ :=
    programAndsThePage t p ht (hfailed.trans hf) hturns' (hcfg ▸ hlen) (hcfg ▸ halign') (by rw [hcfg]; omega)
      (by rw [hcfg]; exact unlocked_within hunlocked hlock hlo hhi)
  have hu := hostReady_after_writing (op := .program) ht hrun' hrest' hfin' hframe'
  have hcfgu : u.cfg = s.cfg := hframe'.1.trans hcfg
  have hpage : s.cfg.pageSize = 256 := h.2.1.1
  have hlenr : r.len.toNat = p.wbuf.length := by rw [hrlen, hlen, hpage]; rfl
  have hv : validate u.cfg .read r.addr r.len.toNat = .ok := by
    rw [valid_read_iff, haddr, hlenr, hcfgu, hlen]
    exact ⟨addressFits_of_target h.2.1 (pageSize_pos h.2.1) (by omega), by omega⟩
  obtain ⟨v, hrun'', -, hrbuf, hr'', -, -, -, -, -, hdev⟩ := exec_read (q := r) hu hv
  refine ⟨t, u, v, hrun, hrun', hrun'', hr, hr', hr'', ?_, fun x hx => ?_⟩
  · rw [hrbuf, haddr, hlenr]
    refine List.ext_getElem (by simp) fun i hi hi' => ?_
    have hbyte : arrayByte u (p.addr.toNat + i) = 0xFF#8 &&& p.wbuf.getD (p.addr.toNat + i - p.addr.toNat) 0#8 := by
      rw [hprog, if_pos ⟨by omega, by omega⟩, herased, if_pos ⟨by omega, by omega⟩]
    rw [programmed_over_ones, Nat.add_sub_cancel_left, List.getD_eq_getElem _ _ hi'] at hbyte
    rw [arrayByte] at hbyte
    simpa [Memory.read] using hbyte
  · have hvu : arrayByte v x = arrayByte u x := by rw [arrayByte, hdev]; rfl
    rw [hvu, hprog, if_neg (by omega), herased, if_neg (by omega)]

/-! ### A device that never completes -/

theorem pollLoop_inputs {n : Nat} {v x : State} (hp : v.ctl.phase = .xbegin) (hst : v.ctl.stage = .poll)
    (h : pollLoop n v = .next x) : InputsLeft v x :=
  (pollLoop_induct (P := InputsLeft v) (fun _ _ hx _ _ hxy => hx.trans (transact_inputs hxy))
    (fun x hx _ _ => hx.trans (deviceTurn_inputs x)) (InputsLeft.refl v) hp hst h).1

/-- With a budget the poll of an operation that such a device has taken up ends in `FlashTimeout` (R232). -/
theorem Taken.timesOut {op : HostOp} {q : Operands} {s v : State} {p : Pending} {n : Nat} (h : Taken s v p)
    (hdue : PollDue op q s v) (hL : s.cfg.Legal) (hnever : NeverCompletes s) (hn : s.cfg.pollMax = some n) :
    ∃ t, exec (op.instr q) s = .next t ∧ t.ctl.result = .flashTimeout ∧ t.ctl.polls = n ∧ StillRunning s t p ∧
      AtRest t ∧ WritingFrame s t := by
  obtain ⟨x, hloop, hrun, hx, -⟩ := hdue.ends hL (.inl (by simp [hn]))
  obtain ⟨hrest, hframe⟩ := hdue.respond_frame hx
  have hout := h.outcome (hdue.evolved hx)
  have hnv := hdue.inputs.neverCompletes hnever
  have hnx := (pollLoop_inputs hdue.phase hdue.stage hloop).neverCompletes hnv
  obtain ⟨-, -, -, -, -, -, -, -, hbusy, hcase⟩ := hx
  have hxb : x.dev.busy = true := hbusy hnv (by rw [h])
  rcases hcase with ⟨-, hb⟩ | ⟨hr, hbudget, -⟩
  · simp [hxb] at hb
  · refine ⟨respond x, hrun, hr, ?_, hout.resolve_right fun hfin => ?_, hrest, hframe⟩
    · rw [hdue.cfg_eq, hn] at hbudget
      simpa using hbudget.symm
    · have hb := hfin.1.1
      rw [respond_dev, deviceTurn_of_never hnx, hxb] at hb
      cases hb

/-- Settles O55: the operation is taken up, and every read of the budget finds the device busy. -/
theorem stuckDeviceTimesOut : Obligations.StuckDeviceTimesOut := by
  intro s q n h hnever hn
  obtain ⟨-, hL, -⟩ := id h
  constructor
  · intro hlen halign hrange hunlocked
    obtain ⟨v, hdue, htaken⟩ := taken_program h hlen halign hrange hunlocked
    exact htaken.timesOut hdue hL hnever hn
  · intro halign hrange hunlocked
    obtain ⟨v, hdue, htaken⟩ := taken_eraseSector h halign hrange hunlocked
    exact htaken.timesOut hdue hL hnever hn

end Sys2Proof.Machine
end

section
/-! PROOFS. A device that never completes, against a poll without a budget (R174, vector B3.8): the rows of a status read
and its delay lead back to where the read was due. -/

namespace Sys2Proof.Machine

/-- If `Q` recurs, through rows at which `P` holds, then `P` holds after any number of rows. -/
theorem ticks_of_recurring {P Q : State → Prop}
    (hQ : ∀ x, Q x → ∃ u y, tick x = .next u ∧ RowsIn P u y ∧ Q y) (n : Nat) {x y : State} (h : RowsIn P x y)
    (hy : Q y) : ∃ u, ticks n x = .next u ∧ P u := by
  induction n generalizing x y with
  | zero => exact ⟨x, rfl, h.start⟩
  | succ n ih =>
    rw [ticks]
    cases h with
    | row _ hrow hrest => simpa [hrow] using ih hrest hy
    | refl =>
      obtain ⟨u, y', hrow, hrest, hy'⟩ := hQ x hy
      simpa [hrow] using ih hrest hy'

/-- The host operation has not ended, and the device, which never completes, is as in `d`. -/
structure Hanging (d : Device) (x : State) : Prop where
  never : NeverCompletes x
  same : { x.dev with stream := [] } = { d with stream := [] }
  busy : x.dev.busy = true
  unanswered : x.ctl.phase ≠ .idle ∧ x.ctl.phase ≠ .done

theorem Hanging.runSlot {d : Device} {sl : Slot} {last : Bool} {x y : State} (h : Hanging d x)
    (hrun : runSlot sl last x = .next y) : Hanging d y := by
  obtain ⟨hnever, hsame, hbusy, -⟩ := h
  have hnever' := (runSlot_inputs hrun).neverCompletes hnever
  rcases runSlot_cases hrun with ⟨-, rfl⟩ | ⟨-, -, rfl⟩
  · exact ⟨hnever', by simpa [deviceTurn_of_never hnever] using hsame,
      by simpa [deviceTurn_of_never hnever] using hbusy, by simp⟩
  · exact ⟨hnever', by simpa [deviceTurn_of_never hnever] using hsame,
      by simpa [deviceTurn_of_never hnever] using hbusy, by cases last <;> simp⟩

/-- A status read of a poll without a budget is due. -/
structure ReadDue (d : Device) (x : State) : Prop where
  legal : x.cfg.Legal
  unbounded : x.cfg.pollMax = none
  transport : TransportOk x
  phase : x.ctl.phase = .xbegin
  stage : x.ctl.stage = .poll
  hanging : Hanging d x

/-- Evolving without completing is staying the same. -/
theorem Evolved.same_of_busy {cfg : Cfg} {d d' : Device} (h : Evolved cfg d d') (hb : d'.busy = true) :
    { d' with stream := [] } = { d with stream := [] } := by
  refine h.resolve_right fun ⟨_, hdone⟩ => ?_
  obtain ⟨-, hbusy, -⟩ := sameBut_stream hdone
  simp [hb, Device.complete] at hbusy

/-- A status read has few slots: its dummy bytes are bounded (R31). -/
theorem statusRead_length_le {s : State} (hL : s.cfg.Legal) :
    (layout .rdsr (beginTransaction (wireCmd .rdsr 0#32) s)).length ≤ 2 ^ 32 := by
  obtain ⟨-, -, -, -, -, -, -, -, hdummy, -⟩ := hL
  simp [layout, WireCmd.frame_bytes, wireCmd, layoutTail, WireOp.addressBearing]
  omega

/-- The status read finds the device busy, and after the delay the next one is due. -/
theorem ReadDue.recurs {d : Device} {x : State} (h : ReadDue d x) :
    ∃ u y, tick x = .next u ∧ RowsIn (Hanging d) u y ∧ ReadDue d y := by
  obtain ⟨hL, hnone, ht, hp, hst, hx⟩ := h
  obtain ⟨v, hread, hcfg, -, -, htv, -, hev, -, hstv, -, -, hbusy, hcase⟩ :=
    pollRead_cases ht hst (busyMask_of_legal hL)
  have hbv := hbusy hx.never hx.busy
  have hnv := (transact_inputs hread).neverCompletes hx.never
  have hpv : v.ctl.phase = .pollwait := by
    rcases hcase with ⟨-, -, h⟩ | ⟨-, -, -, m, hm, -⟩ | ⟨-, h, -⟩
    · simp [hbv] at h
    · simp [hnone] at hm
    · exact h
  have hv : Hanging d v := ⟨hnv, (hev.same_of_busy hbv).trans hx.same, hbv, by simp [hpv]⟩
  have hd : (pollDelay v).dev = v.dev := by rw [pollDelay_dev, deviceTurn_of_never hnv]
  have hy : Hanging d (pollDelay v) :=
    ⟨(deviceTurn_inputs v).neverCompletes hnv, hd ▸ hv.same, hd ▸ hbv, by simp⟩
  have hcmd : stageCommand x.ctl = wireCmd .rdsr 0#32 := stageCommand_poll hst
  have hbegin : Hanging d (beginTransaction (wireCmd .rdsr 0#32) x) :=
    ⟨(deviceTurn_inputs x).neverCompletes hx.never,
      by simpa [beginTransaction_dev, deviceTurn_of_never hx.never] using hx.same,
      by simpa [beginTransaction_dev, deviceTurn_of_never hx.never] using hx.busy, by simp⟩
  obtain ⟨w, hbody, rfl⟩ := transact_cases hread
  have hslots := rowsIn_of_runSlots (P := Hanging d) (before := []) (fun _ _ _ _ => Hanging.runSlot) hbegin
    (by rw [show stageCommand (beginTransaction (wireCmd .rdsr 0#32) x).ctl = stageCommand x.ctl from rfl, hcmd]; rfl)
    (statusRead_length_le hL) (by simp) (by simp) (by simp) hbody
  have hpw := runSlots_phase (by simp) (layout_ne_nil _ _ _) hbody
  refine ⟨_, pollDelay (endTransaction w), hcmd ▸ tick_xbegin hp,
    hslots.trans (.row hslots.last (tick_xend hpw) (.row hv (tick_pollwait hpv) (.refl hy))), ?_⟩
  exact ⟨by simpa [hcfg] using hL, by simpa [hcfg] using hnone, by simpa [TransportOk] using htv, by simp,
    by simpa using hstv, hy⟩

/-- The outline of a transaction that went through. -/
theorem Exchanged.outline {b : Byte} {tx : List Byte} {body : List Event} (h : Exchanged (b :: tx) body) :
    outline body = [.inl b] ∧ Closed body := by
  obtain ⟨rx, hlen, rfl⟩ := h
  cases rx with
  | nil => simp at hlen
  | cons r rx =>
    exact outline_transaction (.inr ⟨r, rfl⟩)
      (List.forall_mem_append.2 ⟨inner_exchanges tx rx, List.forall_mem_singleton.2 ⟨nofun, nofun⟩⟩)

/-- When the poll is due, gate, settle delay and command have been made. -/
theorem PollDue.outline {op : HostOp} {q : Operands} {s v : State} (h : PollDue op q s v) :
    s.trace <+: v.trace ∧ Closed (newEvents s v) ∧
      outline (newEvents s v) = [.inl 0x06#8, .inr .settle, .inl (commandOf op).opcode] := by
  obtain ⟨rx, body, hex, htr⟩ := h.sent
  rw [sentOf_eq] at hex
  obtain ⟨hout, hclosed⟩ := hex.outline
  have hgate : Closed (.req op q.addr q.len q.wbuf :: GateEvents rx) := by simp [Closed, GateEvents]
  rw [newEvents_of_trace_eq List.prefix_rfl htr, ← List.cons_append]
  refine ⟨⟨_, htr.symm⟩, ?_, ?_⟩
  · simpa [newEvents] using hgate.append hclosed
  · simp only [newEvents, List.drop_length, List.nil_append]
    rw [outline_append hgate, hout]
    rfl

/-- The poll of an operation that such a device has taken up goes on for ever (R174). -/
theorem Taken.neverReturns {op : HostOp} {q : Operands} {s v : State} {p : Pending} (h : Taken s v p)
    (hdue : PollDue op q s v) (hL : s.cfg.Legal) (hnever : NeverCompletes s) (hnone : s.cfg.pollMax = none) :
    ∃ t, exec (op.instr q) s = .next t ∧ t.ctl.phase = .xbegin ∧ t.ctl.stage = .poll ∧ WritingFrame s t ∧
      outline (newEvents s t) =
        .inl 0x06#8 :: .inr .settle :: .inl (commandOf op).opcode :: (pollOutline t.ctl.polls ++ [.inr .poll]) ∧
      ∀ n, ∃ u, ticks n t = .next u ∧ u.ctl.phase ≠ .idle ∧ u.ctl.phase ≠ .done ∧ StillRunning s u p := by
  have hLv : v.cfg.Legal := hdue.cfg_eq ▸ hL
  have hnonev : v.cfg.pollMax = none := hdue.cfg_eq ▸ hnone
  have hbv : v.dev.busy = true := by rw [h]
  obtain ⟨x, hloop, hp, hst, hcfg, hreq, ht, hnx, hev, hbx, hpolls⟩ := pollLoop_goes_on (n := pollReads v) hdue.transport
    hdue.stage hdue.phase (busyMask_of_legal hLv) hnonev (hdue.inputs.neverCompletes hnever) hbv
  rw [hdue.cfg_eq] at hev
  have hprogress := pollLoop_progress hLv hdue.phase hdue.stage hdue.polls hloop
  obtain ⟨hpre, hclosed, hout⟩ := hdue.outline
  have hne : x.ctl.polls ≠ 0 := by rw [hpolls]; simp [pollReads, hnonev]
  have hready : ReadDue v.dev x := ⟨hcfg ▸ hLv, hcfg ▸ hnonev, ht, hp, hst,
    hnx, hev.same_of_busy hbx, hbx, by simp [hp]⟩
  refine ⟨x, ?_, hp, hst, hdue.writingFrame hcfg hreq hev, ?_, fun n => ?_⟩
  · rw [hdue.run, hloop, andThen_next, response, inPhase_of_ne (by simp [hp])]
  · rw [newEvents_split hpre hprogress.traced, outline_append hclosed, hout, hprogress.due hp, delayedReads, if_neg hne]
    rfl
  · obtain ⟨u, hrun, -, hsame, hbu, hidle, hdone⟩ :=
      ticks_of_recurring (fun _ => ReadDue.recurs) n (.refl hready.hanging) hready
    refine ⟨u, hrun, hidle, hdone, (h.outcome (.inl hsame)).resolve_right fun hfin => ?_⟩
    simp [hfin.1.1] at hbu

/-- Settles O56: the operation is taken up, and its poll goes on for ever. -/
theorem stuckDeviceWithoutBudgetNeverReturns : Obligations.StuckDeviceWithoutBudgetNeverReturns := by
  intro s q h hnever hnone
  obtain ⟨-, hL, -⟩ := id h
  constructor
  · intro hlen halign hrange hunlocked
    obtain ⟨v, hdue, htaken⟩ := taken_program h hlen halign hrange hunlocked
    exact htaken.neverReturns hdue hL hnever hnone
  · intro halign hrange hunlocked
    obtain ⟨v, hdue, htaken⟩ := taken_eraseSector h halign hrange hunlocked
    exact htaken.neverReturns hdue hL hnever hnone

end Sys2Proof.Machine
end
